-- ==== Sys2Proof/Word.lean ====
section
/-!
DEFINITION. The plain types of the block: bytes, wire integers, binary64 values, the operand enumerations, the catalog's opcode
names and the operations' mnemonics (00_scope.md R9 to R12, 30_encoding.md R66 to R70, R74, R90).
-/

namespace Sys2Proof

/-- A byte, 8 bits (R9); also the spec's `u8`. -/
abbrev Byte := BitVec 8

/-- The wire integer `i16` in its two's complement image (R11, R111): `BitVec.toInt` is its value, `BitVec.toNat` is `u16`. -/
abbrev I16 := BitVec 16

/-- A binary64 value (R12), by the three fields of the IEEE 754 binary64 format: sign, biased exponent and fraction. Every value of
the type is a binary64 value, so an operand outside the format cannot be written down. -/
structure F64 where
  neg  : Bool
  exp  : BitVec 11
  frac : BitVec 52
deriving DecidableEq, Repr, Inhabited

/-- What a binary64 value denotes (R12): a NaN, an infinity, or the finite value `(-1)^neg * m * 2^e`. -/
inductive FVal where
  | nan
  | inf (neg : Bool)
  | fin (neg : Bool) (m : Nat) (e : Int)
deriving DecidableEq, Repr

/-- The Joint id enumeration, one value per arm joint (R66). -/
inductive Joint where
  | j1 | j2 | j3 | j4 | j5 | j6
deriving DecidableEq, Repr, Inhabited

/-- The Axis id enumeration, one value per pose axis (R67). -/
inductive Axis where
  | x | y | z | rx | ry | rz
deriving DecidableEq, Repr, Inhabited

/-- The jog direction (R68). -/
inductive Dir where
  | decrease | increase
deriving DecidableEq, Repr, Inhabited

/-- The 24 entries of the Command Catalog, in the order of R70. -/
inductive Genre where
  | version | powerOn | powerOff | isPowerOn | releaseAllServos | isControllerConnected
  | getAngles | sendAngle | sendAngles | getCoords | sendCoord | sendCoords
  | isInPosition | isMoving | jogAngle | jogCoord | jogStop | pause | isPaused | resume | stop
  | setEncoder | getEncoder | isServoEnabled
deriving DecidableEq, Repr, Inhabited

/-- The 36 mnemonics a command selects by `CMD.op` (R24): the 25 catalog operations of R74 and the 11 primitives of R90, in the
order of spec/opcode_table.json. -/
inductive Op where
  | version | powerOn | powerOff | isPowerOn | releaseAllServos | isControllerConnected
  | getAngles | sendAngle | sendAngles | getCoords | sendCoord | sendCoords | pause | isPaused | resume | stop
  | isInAnglePosition | isInCoordPosition | isMoving | jogAngle | jogCoord | jogStop
  | setEncoder | getEncoder | isServoEnabled
  | encodeAngle | encodeCoord | decodeAngle | decodeCoord | coordsToInt | intToCoords | put16 | get16
  | buildFrame | parseFrame | decodePayload
deriving DecidableEq, Repr, Inhabited

/-- The transport's own error value, propagated verbatim and read by no rule: an opaque token (R221, N22). -/
abbrev ErrInfo := Nat

end Sys2Proof
end

