-- ==== Sys2Proof/Config.lean ====
section
/-!
DEFINITION. What an implementation fixes: the configuration table of 00_scope.md R7 (its OPEN rows are fields, its fixed rows are
constants), and the free values. Nothing writes a field of `Config`; the machine's state carries the table unchanged (R23).
-/

namespace Sys2Proof

/-- What the transport answers to `Transport.write` and to the write half of `Transport.write_and_read` (R27). -/
inductive WriteAns where
  | ok
  | fault (info : ErrInfo)
deriving DecidableEq, Repr, Inhabited

/-- The transport's answer to the read of `Transport.write_and_read` (R27): any byte sequence, or a fault. -/
inductive ReadAns where
  | bytes (raw : List Byte)
  | fault (info : ErrInfo)
deriving DecidableEq, Repr, Inhabited

/-- The OPEN parameters of R7: `SENTINEL`, the 24 `OP_<NAME>` bytes, the two direction bytes, `JOG_COORD_ID_BIAS` (0 or 1) and
`RAW_MAX` (`none`: unbounded, D30). -/
structure Config where
  sentinel                : Byte
  opVersion               : Byte
  opPowerOn               : Byte
  opPowerOff              : Byte
  opIsPowerOn             : Byte
  opReleaseAllServos      : Byte
  opIsControllerConnected : Byte
  opGetAngles             : Byte
  opSendAngle             : Byte
  opSendAngles            : Byte
  opGetCoords             : Byte
  opSendCoord             : Byte
  opSendCoords            : Byte
  opIsInPosition          : Byte
  opIsMoving              : Byte
  opJogAngle              : Byte
  opJogCoord              : Byte
  opJogStop               : Byte
  opPause                 : Byte
  opIsPaused              : Byte
  opResume                : Byte
  opStop                  : Byte
  opSetEncoder            : Byte
  opGetEncoder            : Byte
  opIsServoEnabled        : Byte
  dirDecrease             : Byte
  dirIncrease             : Byte
  jogCoordIdBias          : Fin 2
  rawMax                  : Option Nat
deriving DecidableEq, Repr

/-- `ANGLE_SCALE` (R7). -/
abbrev angleScale : Nat := 100
/-- `COORD_SCALE` (R7). -/
abbrev coordScale : Nat := 10
/-- `WIRE_BITS` (R7). -/
abbrev wireBits : Nat := 16
/-- `POSE_LEN`, the six lanes of a pose or angle vector (R7, D21). -/
abbrev poseLen : Nat := 6
/-- `PAYLOAD_MAX` (R7, D15). -/
abbrev payloadMax : Nat := 253

/-- FREE VALUE (R108, R118, D13, U1; log entry 1): the `n`-th `draw i16` of a run, the field value of a NaN, an infinity or a
product that overflows. It has no body, so no proof can learn anything of it. -/
opaque Config.drawI16 : Nat → I16

/-- FREE VALUE (R27, U7, U13; log entry 2): what the transport answers to the `n`-th write of a run where the state's list of coming
answers names none. -/
opaque Config.writeAnswer : Nat → WriteAns

/-- FREE VALUE (R27, U7, U14; log entry 2): what the transport answers to the `n`-th read of a run where the state's list of coming
answers names none; `none` is a read that it never answers. -/
opaque Config.readAnswer : Nat → Option ReadAns

end Sys2Proof
end

