-- ==== Sys2Proof/Syntax.lean ====
section
/-!
DEFINITION. The operations of the block with their operands, one constructor per row of spec/opcode_table.json, in the table's
order: a command record of 10_state.md R24 cut down to the fields its operation's rule names.
-/

namespace Sys2Proof

/-- One operation as the host issues it. Vector operands are lists, so that a vector without exactly six lanes can be written down
(and is refused, R229); so are byte sequences. -/
inductive Instr where
  -- 30_encoding.md R74: the catalog operations
  | version
  | powerOn
  | powerOff
  | isPowerOn
  | releaseAllServos
  | isControllerConnected
  | getAngles
  | sendAngle (joint : Joint) (deg : F64) (speed : Byte)
  | sendAngles (degs : List F64) (speed : Byte)
  | getCoords
  | sendCoord (axis : Axis) (val : F64) (speed : Byte)
  | sendCoords (vals : List F64) (speed : Byte) (mode : Byte)
  | pause
  | isPaused
  | resume
  | stop
  | isInAnglePosition (degs : List F64)
  | isInCoordPosition (coords : List F64)
  | isMoving
  | jogAngle (joint : Joint) (dir : Dir) (speed : Byte)
  | jogCoord (axis : Axis) (dir : Dir) (speed : Byte)
  | jogStop
  | setEncoder (joint : Joint) (enc : I16)
  | getEncoder (joint : Joint)
  | isServoEnabled (joint : Joint)
  -- 30_encoding.md R90: the primitives of the two codecs
  | encodeAngle (deg : F64)
  | encodeCoord (mm : F64)
  | decodeAngle (w : I16)
  | decodeCoord (w : I16)
  | coordsToInt (pose : List F64)
  | intToCoords (vals : List I16)
  | put16 (w : I16)
  | get16 (bytes : List Byte)
  | buildFrame (opcode : Byte) (payload : List Byte)
  | parseFrame (raw : List Byte) (expected : Byte)
  | decodePayload (payload : List Byte) (opcode : Byte)
deriving DecidableEq, Repr

/-- The mnemonic of an operation, `CMD.op` (R24). -/
def Instr.op : Instr → Op
  | .version => .version
  | .powerOn => .powerOn
  | .powerOff => .powerOff
  | .isPowerOn => .isPowerOn
  | .releaseAllServos => .releaseAllServos
  | .isControllerConnected => .isControllerConnected
  | .getAngles => .getAngles
  | .sendAngle _ _ _ => .sendAngle
  | .sendAngles _ _ => .sendAngles
  | .getCoords => .getCoords
  | .sendCoord _ _ _ => .sendCoord
  | .sendCoords _ _ _ => .sendCoords
  | .pause => .pause
  | .isPaused => .isPaused
  | .resume => .resume
  | .stop => .stop
  | .isInAnglePosition _ => .isInAnglePosition
  | .isInCoordPosition _ => .isInCoordPosition
  | .isMoving => .isMoving
  | .jogAngle _ _ _ => .jogAngle
  | .jogCoord _ _ _ => .jogCoord
  | .jogStop => .jogStop
  | .setEncoder _ _ => .setEncoder
  | .getEncoder _ => .getEncoder
  | .isServoEnabled _ => .isServoEnabled
  | .encodeAngle _ => .encodeAngle
  | .encodeCoord _ => .encodeCoord
  | .decodeAngle _ => .decodeAngle
  | .decodeCoord _ => .decodeCoord
  | .coordsToInt _ => .coordsToInt
  | .intToCoords _ => .intToCoords
  | .put16 _ => .put16
  | .get16 _ => .get16
  | .buildFrame _ _ => .buildFrame
  | .parseFrame _ _ => .parseFrame
  | .decodePayload _ _ => .decodePayload

end Sys2Proof
end

