-- ==== Sys2Proof/WellFormed.lean ====
section
/-!
DEFINITION. Which commands lie in the admitted set: the operand checks of 60_exceptions.md R229 that a command itself can fail
(`BadVectorLength`, `BadFieldLength`, `PayloadTooLong`). Operands of an enumerated type, bytes, wire integers and binary64 values
need no check: a value outside the type cannot be written down.
-/

namespace Sys2Proof

/-- The command's operands are admitted (R229): six lanes in every vector (D21), two bytes for `get16` (R107), at most
`PAYLOAD_MAX` payload bytes for `build_frame` (R131). -/
def Instr.wellFormed : Instr → Bool
  | .version => true
  | .powerOn => true
  | .powerOff => true
  | .isPowerOn => true
  | .releaseAllServos => true
  | .isControllerConnected => true
  | .getAngles => true
  | .sendAngle _ _ _ => true
  | .sendAngles degs _ => degs.length == poseLen
  | .getCoords => true
  | .sendCoord _ _ _ => true
  | .sendCoords vals _ _ => vals.length == poseLen
  | .pause => true
  | .isPaused => true
  | .resume => true
  | .stop => true
  | .isInAnglePosition degs => degs.length == poseLen
  | .isInCoordPosition coords => coords.length == poseLen
  | .isMoving => true
  | .jogAngle _ _ _ => true
  | .jogCoord _ _ _ => true
  | .jogStop => true
  | .setEncoder _ _ => true
  | .getEncoder _ => true
  | .isServoEnabled _ => true
  | .encodeAngle _ => true
  | .encodeCoord _ => true
  | .decodeAngle _ => true
  | .decodeCoord _ => true
  | .coordsToInt pose => pose.length == poseLen
  | .intToCoords vals => vals.length == poseLen
  | .put16 _ => true
  | .get16 bytes => bytes.length == 2
  | .buildFrame _ payload => payload.length ≤ payloadMax
  | .parseFrame _ _ => true
  | .decodePayload _ _ => true

/-- The constraint the spec puts on the configuration: the 24 opcodes are pairwise distinct bytes (R8) and the two direction bytes
differ (D10). An opcode may equal `SENTINEL` (R8). -/
abbrev Config.WellFormed (cfg : Config) : Prop :=
  [cfg.opVersion, cfg.opPowerOn, cfg.opPowerOff, cfg.opIsPowerOn, cfg.opReleaseAllServos, cfg.opIsControllerConnected,
    cfg.opGetAngles, cfg.opSendAngle, cfg.opSendAngles, cfg.opGetCoords, cfg.opSendCoord, cfg.opSendCoords, cfg.opIsInPosition,
    cfg.opIsMoving, cfg.opJogAngle, cfg.opJogCoord, cfg.opJogStop, cfg.opPause, cfg.opIsPaused, cfg.opResume, cfg.opStop,
    cfg.opSetEncoder, cfg.opGetEncoder, cfg.opIsServoEnabled].Nodup ∧
  cfg.dirDecrease ≠ cfg.dirIncrease

end Sys2Proof
end

