-- ==== Sys2Proof/Decode.lean ====
section
/-!
DEFINITION. Reading a command: the command port's record `CMD` (10_state.md R24), the selector bits of spec/opcode_table.json
(30_encoding.md R72, R90), the decoder from a record to an operation with its operands, the encoder back, and the independent
decoder of request frames that R72 asks for. The encoding tables (opcode names, payload lengths, default configuration) stand here.
-/

namespace Sys2Proof

/-! ### The encoding tables -/

/-- The default configuration `CFG_DEFAULT` (R71; from general knowledge, G1, G2, G7; log entry 3). -/
def cfgDefault : Config where
  sentinel                := 0xFE
  opVersion               := 0x00
  opPowerOn               := 0x10
  opPowerOff              := 0x11
  opIsPowerOn             := 0x12
  opReleaseAllServos      := 0x13
  opIsControllerConnected := 0x14
  opGetAngles             := 0x20
  opSendAngle             := 0x21
  opSendAngles            := 0x22
  opGetCoords             := 0x23
  opSendCoord             := 0x24
  opSendCoords            := 0x25
  opIsInPosition          := 0x2A
  opIsMoving              := 0x2B
  opJogAngle              := 0x30
  opJogCoord              := 0x32
  opJogStop               := 0x34
  opPause                 := 0x26
  opIsPaused              := 0x27
  opResume                := 0x28
  opStop                  := 0x29
  opSetEncoder            := 0x3A
  opGetEncoder            := 0x3B
  opIsServoEnabled        := 0x50
  dirDecrease             := 0x00
  dirIncrease             := 0x01
  jogCoordIdBias          := 0
  rawMax                  := none

/-- The configured opcode byte of a catalog entry (R70). -/
def opcodeOf (cfg : Config) : Genre → Byte
  | .version => cfg.opVersion
  | .powerOn => cfg.opPowerOn
  | .powerOff => cfg.opPowerOff
  | .isPowerOn => cfg.opIsPowerOn
  | .releaseAllServos => cfg.opReleaseAllServos
  | .isControllerConnected => cfg.opIsControllerConnected
  | .getAngles => cfg.opGetAngles
  | .sendAngle => cfg.opSendAngle
  | .sendAngles => cfg.opSendAngles
  | .getCoords => cfg.opGetCoords
  | .sendCoord => cfg.opSendCoord
  | .sendCoords => cfg.opSendCoords
  | .isInPosition => cfg.opIsInPosition
  | .isMoving => cfg.opIsMoving
  | .jogAngle => cfg.opJogAngle
  | .jogCoord => cfg.opJogCoord
  | .jogStop => cfg.opJogStop
  | .pause => cfg.opPause
  | .isPaused => cfg.opIsPaused
  | .resume => cfg.opResume
  | .stop => cfg.opStop
  | .setEncoder => cfg.opSetEncoder
  | .getEncoder => cfg.opGetEncoder
  | .isServoEnabled => cfg.opIsServoEnabled

/-- The catalog entry an operation uses (R70, last column); `none` for a primitive, which sends no frame. -/
def genreOf : Op → Option Genre
  | .version => some .version
  | .powerOn => some .powerOn
  | .powerOff => some .powerOff
  | .isPowerOn => some .isPowerOn
  | .releaseAllServos => some .releaseAllServos
  | .isControllerConnected => some .isControllerConnected
  | .getAngles => some .getAngles
  | .sendAngle => some .sendAngle
  | .sendAngles => some .sendAngles
  | .getCoords => some .getCoords
  | .sendCoord => some .sendCoord
  | .sendCoords => some .sendCoords
  | .pause => some .pause
  | .isPaused => some .isPaused
  | .resume => some .resume
  | .stop => some .stop
  | .isInAnglePosition => some .isInPosition
  | .isInCoordPosition => some .isInPosition
  | .isMoving => some .isMoving
  | .jogAngle => some .jogAngle
  | .jogCoord => some .jogCoord
  | .jogStop => some .jogStop
  | .setEncoder => some .setEncoder
  | .getEncoder => some .getEncoder
  | .isServoEnabled => some .isServoEnabled
  | .encodeAngle => none
  | .encodeCoord => none
  | .decodeAngle => none
  | .decodeCoord => none
  | .coordsToInt => none
  | .intToCoords => none
  | .put16 => none
  | .get16 => none
  | .buildFrame => none
  | .parseFrame => none
  | .decodePayload => none

/-- The fixed request payload length `P` of a catalog operation, by its format (R62, R74); 0 for a primitive. -/
def payloadLen : Op → Nat
  | .getEncoder => 1                            -- F_J
  | .isServoEnabled => 1                        -- F_J
  | .jogAngle => 3                              -- F_IDS
  | .jogCoord => 3                              -- F_IDS
  | .setEncoder => 3                            -- F_JE
  | .sendAngle => 4                             -- F_JAS
  | .sendCoord => 4                             -- F_XCS
  | .sendAngles => 13                           -- F_A6S
  | .isInAnglePosition => 13                    -- F_A6F
  | .isInCoordPosition => 13                    -- F_P6F
  | .sendCoords => 14                           -- F_P6SM
  | _ => 0                                      -- F_EMPTY, and the primitives

/-- The function code `FN` of a primitive (R90); `none` for a catalog operation. -/
def fnOf : Op → Option (BitVec 4)
  | .encodeAngle => some 0b0000
  | .encodeCoord => some 0b0001
  | .decodeAngle => some 0b0010
  | .decodeCoord => some 0b0011
  | .coordsToInt => some 0b0100
  | .intToCoords => some 0b0101
  | .put16 => some 0b0110
  | .get16 => some 0b0111
  | .buildFrame => some 0b1000
  | .parseFrame => some 0b1001
  | .decodePayload => some 0b1010
  | _ => none

/-- The flag byte that tells the two operations of `OP_IS_IN_POSITION` apart (R69, R72). -/
def flagOf : Op → Option Byte
  | .isInAnglePosition => some 0x00
  | .isInCoordPosition => some 0x01
  | _ => none

/-! ### The command record and its selector -/

/-- One command on the port `CMD` (R24). `op` holds the selector bits as spec/opcode_table.json gives them, in whole bytes: the
function code `[FN]` of a primitive, `[length, opcode]` (the halfword `HW` of R72) of a catalog operation, or
`[length, opcode, flag]` for the two operations that share an opcode. The record's binary form is the model's (log entry 5). -/
structure Cmd where
  op     : List Byte
  f      : List F64
  w      : List I16
  joint  : Joint
  axis   : Axis
  dir    : Dir
  speed  : Byte
  mode   : Byte
  opcode : Byte
  bytes  : List Byte
deriving DecidableEq, Repr

/-- Why a command record is no operation: both are refusals of R229. -/
inductive DecodeError where
  /-- `CMD.op` selects none of the 36 operations (`BadSelector`). -/
  | badSelector
  /-- A scalar operand's lane 0 is absent from the record (`BadVectorLength`). -/
  | missingLane
deriving DecidableEq, Repr

/-- One row of the request map (R72, spec/opcode_table.json): the length byte, the opcode and, for the shared opcode, the flag
byte at payload index 12. -/
structure RequestRow where
  len    : Byte
  opcode : Byte
  flag   : Option Byte
  op     : Op
deriving DecidableEq, Repr

/-- The request map: the 25 catalog rows of spec/opcode_table.json, in its order, over the configured opcodes (R72, R74). -/
def requestRows (cfg : Config) : List RequestRow :=
  [⟨0x02, cfg.opVersion, none, .version⟩,
   ⟨0x02, cfg.opPowerOn, none, .powerOn⟩,
   ⟨0x02, cfg.opPowerOff, none, .powerOff⟩,
   ⟨0x02, cfg.opIsPowerOn, none, .isPowerOn⟩,
   ⟨0x02, cfg.opReleaseAllServos, none, .releaseAllServos⟩,
   ⟨0x02, cfg.opIsControllerConnected, none, .isControllerConnected⟩,
   ⟨0x02, cfg.opGetAngles, none, .getAngles⟩,
   ⟨0x06, cfg.opSendAngle, none, .sendAngle⟩,
   ⟨0x0F, cfg.opSendAngles, none, .sendAngles⟩,
   ⟨0x02, cfg.opGetCoords, none, .getCoords⟩,
   ⟨0x06, cfg.opSendCoord, none, .sendCoord⟩,
   ⟨0x10, cfg.opSendCoords, none, .sendCoords⟩] ++
  [⟨0x02, cfg.opPause, none, .pause⟩,
   ⟨0x02, cfg.opIsPaused, none, .isPaused⟩,
   ⟨0x02, cfg.opResume, none, .resume⟩,
   ⟨0x02, cfg.opStop, none, .stop⟩,
   ⟨0x0F, cfg.opIsInPosition, some 0x00, .isInAnglePosition⟩,
   ⟨0x0F, cfg.opIsInPosition, some 0x01, .isInCoordPosition⟩,
   ⟨0x02, cfg.opIsMoving, none, .isMoving⟩,
   ⟨0x05, cfg.opJogAngle, none, .jogAngle⟩,
   ⟨0x05, cfg.opJogCoord, none, .jogCoord⟩,
   ⟨0x02, cfg.opJogStop, none, .jogStop⟩,
   ⟨0x05, cfg.opSetEncoder, none, .setEncoder⟩,
   ⟨0x03, cfg.opGetEncoder, none, .getEncoder⟩,
   ⟨0x03, cfg.opIsServoEnabled, none, .isServoEnabled⟩]

/-- The selector bits of a row, in whole bytes. -/
def RequestRow.bits (r : RequestRow) : List Byte :=
  [r.len, r.opcode] ++ r.flag.toList

/-- The primitive a function code selects (R90); codes `1011` to `1111` select nothing. -/
def primOfFn : Nat → Option Op
  | 0 => some .encodeAngle
  | 1 => some .encodeCoord
  | 2 => some .decodeAngle
  | 3 => some .decodeCoord
  | 4 => some .coordsToInt
  | 5 => some .intToCoords
  | 6 => some .put16
  | 7 => some .get16
  | 8 => some .buildFrame
  | 9 => some .parseFrame
  | 10 => some .decodePayload
  | _ => none

/-- Which operation the selector bits name, for every byte sequence; anything outside the table is `BadSelector` (R229). -/
def decodeSelector (cfg : Config) (bits : List Byte) : Except DecodeError Op :=
  match bits with
  | [fn] =>
    match primOfFn fn.toNat with
    | some op => .ok op
    | none => .error .badSelector
  | bits =>
    match (requestRows cfg).find? (fun r => r.bits == bits) with
    | some r => .ok r.op
    | none => .error .badSelector

/-! ### The decoder of command records -/

/-- The scalar floating operand, lane 0 of `CMD.f` (R24). -/
def withLaneF (c : Cmd) (k : F64 → Instr) : Except DecodeError Instr :=
  match c.f with
  | d :: _ => .ok (k d)
  | [] => .error .missingLane

/-- The scalar integer operand, lane 0 of `CMD.w` (R24). -/
def withLaneW (c : Cmd) (k : I16 → Instr) : Except DecodeError Instr :=
  match c.w with
  | w :: _ => .ok (k w)
  | [] => .error .missingLane

/-- The operands an operation reads from the record; the other fields are ignored (R24). -/
def decodeOperands (c : Cmd) : Op → Except DecodeError Instr
  | .version => .ok .version
  | .powerOn => .ok .powerOn
  | .powerOff => .ok .powerOff
  | .isPowerOn => .ok .isPowerOn
  | .releaseAllServos => .ok .releaseAllServos
  | .isControllerConnected => .ok .isControllerConnected
  | .getAngles => .ok .getAngles
  | .sendAngle => withLaneF c fun d => .sendAngle c.joint d c.speed
  | .sendAngles => .ok (.sendAngles c.f c.speed)
  | .getCoords => .ok .getCoords
  | .sendCoord => withLaneF c fun v => .sendCoord c.axis v c.speed
  | .sendCoords => .ok (.sendCoords c.f c.speed c.mode)
  | .pause => .ok .pause
  | .isPaused => .ok .isPaused
  | .resume => .ok .resume
  | .stop => .ok .stop
  | .isInAnglePosition => .ok (.isInAnglePosition c.f)
  | .isInCoordPosition => .ok (.isInCoordPosition c.f)
  | .isMoving => .ok .isMoving
  | .jogAngle => .ok (.jogAngle c.joint c.dir c.speed)
  | .jogCoord => .ok (.jogCoord c.axis c.dir c.speed)
  | .jogStop => .ok .jogStop
  | .setEncoder => withLaneW c fun w => .setEncoder c.joint w
  | .getEncoder => .ok (.getEncoder c.joint)
  | .isServoEnabled => .ok (.isServoEnabled c.joint)
  | .encodeAngle => withLaneF c .encodeAngle
  | .encodeCoord => withLaneF c .encodeCoord
  | .decodeAngle => withLaneW c .decodeAngle
  | .decodeCoord => withLaneW c .decodeCoord
  | .coordsToInt => .ok (.coordsToInt c.f)
  | .intToCoords => .ok (.intToCoords c.w)
  | .put16 => withLaneW c .put16
  | .get16 => .ok (.get16 c.bytes)
  | .buildFrame => .ok (.buildFrame c.opcode c.bytes)
  | .parseFrame => .ok (.parseFrame c.bytes c.opcode)
  | .decodePayload => .ok (.decodePayload c.bytes c.opcode)

/-- The operation a command record issues (R24, R72, R90), for every record; a record that issues none is rejected by name. -/
def decode (cfg : Config) (c : Cmd) : Except DecodeError Instr :=
  match decodeSelector cfg c.op with
  | .error e => .error e
  | .ok op => decodeOperands c op

/-! ### The encoder of command records -/

/-- The selector bits of an operation: the function code of a primitive (R90), else `{length, opcode}` and the flag byte (R72). -/
def selectorBits (cfg : Config) (op : Op) : List Byte :=
  match genreOf op with
  | some g => [BitVec.ofNat 8 (payloadLen op + 2), opcodeOf cfg g] ++ (flagOf op).toList
  | none => ((fnOf op).map (BitVec.setWidth 8)).toList

/-- A record with every operand field at zero (the first member of an enumeration). -/
def blankCmd (op : List Byte) : Cmd where
  op     := op
  f      := [default, default, default, default, default, default]
  w      := [0, 0, 0, 0, 0, 0]
  joint  := .j1
  axis   := .x
  dir    := .decrease
  speed  := 0
  mode   := 0
  opcode := 0
  bytes  := []

/-- Six floating lanes with a scalar operand in lane 0 (R24). -/
def scalarLanesF (d : F64) : List F64 := [d, default, default, default, default, default]

/-- Six integer lanes with a scalar operand in lane 0 (R24). -/
def scalarLanesW (w : I16) : List I16 := [w, 0, 0, 0, 0, 0]

/-- The operand fields of an operation's record; every field its rule does not name is zero. -/
def encodeOperands (b : Cmd) : Instr → Cmd
  | .version => b
  | .powerOn => b
  | .powerOff => b
  | .isPowerOn => b
  | .releaseAllServos => b
  | .isControllerConnected => b
  | .getAngles => b
  | .sendAngle joint deg speed => { b with joint := joint, f := scalarLanesF deg, speed := speed }
  | .sendAngles degs speed => { b with f := degs, speed := speed }
  | .getCoords => b
  | .sendCoord axis val speed => { b with axis := axis, f := scalarLanesF val, speed := speed }
  | .sendCoords vals speed mode => { b with f := vals, speed := speed, mode := mode }
  | .pause => b
  | .isPaused => b
  | .resume => b
  | .stop => b
  | .isInAnglePosition degs => { b with f := degs }
  | .isInCoordPosition coords => { b with f := coords }
  | .isMoving => b
  | .jogAngle joint dir speed => { b with joint := joint, dir := dir, speed := speed }
  | .jogCoord axis dir speed => { b with axis := axis, dir := dir, speed := speed }
  | .jogStop => b
  | .setEncoder joint enc => { b with joint := joint, w := scalarLanesW enc }
  | .getEncoder joint => { b with joint := joint }
  | .isServoEnabled joint => { b with joint := joint }
  | .encodeAngle deg => { b with f := scalarLanesF deg }
  | .encodeCoord mm => { b with f := scalarLanesF mm }
  | .decodeAngle w => { b with w := scalarLanesW w }
  | .decodeCoord w => { b with w := scalarLanesW w }
  | .coordsToInt pose => { b with f := pose }
  | .intToCoords vals => { b with w := vals }
  | .put16 w => { b with w := scalarLanesW w }
  | .get16 bytes => { b with bytes := bytes }
  | .buildFrame opcode payload => { b with opcode := opcode, bytes := payload }
  | .parseFrame raw expected => { b with bytes := raw, opcode := expected }
  | .decodePayload payload opcode => { b with bytes := payload, opcode := opcode }

/-- The command record that issues an operation. -/
def encode (cfg : Config) (i : Instr) : Cmd :=
  encodeOperands (blankCmd (selectorBits cfg i.op)) i

/-! ### Opcode-table words -/

/-- The low `k` bytes of `w`, most significant first: the table writes `HW` and `{length, opcode, flag}` as one number whose high
byte is the length (R72). -/
def bytesOfWord : (k : Nat) → (w : Nat) → List Byte
  | 0, _ => []
  | k + 1, w => BitVec.ofNat 8 (w / 256 ^ k) :: bytesOfWord k w

/-- The record whose selector is the opcode-table word `w` of `nbits` bits and whose operand fields are all zero. The two zero
bytes on `CMD.bytes` are the shortest sequence every primitive that reads it admits (`get16` takes exactly two, R107). -/
def tableCmd (nbits w : Nat) : Cmd :=
  { blankCmd (bytesOfWord ((nbits + 7) / 8) w) with bytes := [0, 0] }

/-- What the decoder reads, under the default configuration, from an opcode-table word. -/
def decodeTableWord (nbits w : Nat) : Option Instr :=
  (decode cfgDefault (tableCmd nbits w)).toOption

/-! ### The decoder of request frames -/

/-- A well-formed frame (R61): both header bytes and the trailer are `SENTINEL`, the length byte is at least 2, and exactly
`length - 2` payload bytes stand between the opcode and the trailer. -/
def frameWellFormed (cfg : Config) : List Byte → Bool
  | h0 :: h1 :: len :: _ :: rest =>
    h0 == cfg.sentinel && h1 == cfg.sentinel && decide (2 ≤ len.toNat) &&
      decide (rest.length = (len.toNat - 2) + 1) && rest.getLast? == some cfg.sentinel
  | _ => false

/-- Why a byte sequence is no request of the catalog. -/
inductive RequestError where
  /-- The bytes are not one well-formed frame (R61). -/
  | notAFrame
  /-- No row of the request map has this length, opcode and flag byte (R72, R75). -/
  | unknownRequest
deriving DecidableEq, Repr

/-- A frame matches a row of the request map: frame bytes 2 and 3, and frame byte 16 where the row has a flag (R72). -/
def RequestRow.matches (r : RequestRow) (frame : List Byte) : Bool :=
  frame[2]? == some r.len && frame[3]? == some r.opcode &&
    (match r.flag with
     | none => true
     | some b => frame[16]? == some b)

/-- Which catalog operation a request frame carries (R72): a decoder of the block's own requests, written from the opcode table
independently of the payload assembly. The block itself never decodes a request. -/
def decodeRequest (cfg : Config) (frame : List Byte) : Except RequestError Op :=
  if frameWellFormed cfg frame then
    match (requestRows cfg).find? (fun r => r.matches frame) with
    | some r => .ok r.op
    | none => .error .unknownRequest
  else .error .notAFrame

end Sys2Proof
end

