-- ==== Sys2Proof/Machine/State.lean ====
section
/-!
DEFINITION. The state of the machine: the block's own state (10_state.md R29), its ports (R24 to R26), the configuration it was built
with (R23), and the two agents around it as plain data: the host's list of commands with its index (R21) and the answers the
transport is going to give (R27). The reasons a step can stop, and the state after reset (R36, R250, R251).
-/

namespace Sys2Proof.Machine

/-- Whether a reply read is outstanding (R29). -/
inductive Phase where
  | idle
  | awaitReply
deriving DecidableEq, Repr

/-- What the block holds between the write of a query and its reply (R29): the waiting operation and the opcode the reply must
carry. -/
structure Pend where
  op       : Op
  expected : Byte
deriving DecidableEq, Repr

/-- The outcome an operation reports (R26, R220): `OK`, or `TRANSPORT_ERROR` with the transport's own error value, propagated
verbatim (R221). -/
inductive Status where
  | ok
  | transportError (info : ErrInfo)
deriving DecidableEq, Repr

/-- The result port `RES` (R26). A field that no rule has written holds no value: `none`. -/
structure Res where
  status : Option Status
  scalar : Option Int
  w      : Option (List I16)
  f      : Option (List F64)
  bytes  : Option (List Byte)
deriving DecidableEq, Repr

/-- A result with no value in any field (R36). -/
def Res.empty : Res := ⟨none, none, none, none, none⟩

/-- The two calls of the Connection contract (R27). -/
inductive Call where
  | write
  | writeAndRead
deriving DecidableEq, Repr

/-- One use of the transmit port `TX` (R25): the call, the frame handed to the transport and what the transport answered. -/
structure TxEntry where
  call   : Call
  frame  : List Byte
  answer : WriteAns
deriving DecidableEq, Repr

/-- Why the machine has no step, or why a read of its result port has no value. -/
inductive Fault where
  /-- Raised by the step in `AWAIT_REPLY` when the transport never answers the read: the host is held (R35, U14: stuck). SAFE: the
  block has no step there. -/
  | noReply
  /-- Raised by the step in `AWAIT_REPLY` when the pending operation is undefined or no query. No run reaches it
  (`Sys2Proof.Machine.State.Inv`); SAFE. -/
  | noPending
  /-- Raised by the host's read of a result field that holds no value (R26, R251). SAFE: the spec asks for a fault. -/
  | noValue
deriving DecidableEq, Repr

/-- The closed list of refusals of R229, and the refusal of an instruction that has no meaning yet. -/
inductive Refusal where
  /-- Raised by `exec`'s arm of an instruction that has no meaning yet (no arm at present). SAFE. -/
  | notModelled (mnemonic : String)
  /-- Raised by `build_frame` for 254 payload bytes or more (R131, R229). SAFE. -/
  | payloadTooLong
  /-- Raised by the step for a command whose selector names no operation (R90, R229). SAFE. -/
  | badSelector
  /-- Raised by an operation whose vector operand has not exactly six lanes, or whose scalar lane is absent (R229, D21). SAFE. -/
  | badVectorLength
  /-- Raised by `get16` for a byte sequence whose length is not 2 (R107, R229). SAFE. -/
  | badFieldLength
  /-- Raised by the step REPLY for an answer longer than `RAW_MAX`, when the configuration bounds it (R229, D30). SAFE. -/
  | rawTooLong
  /-- Raised by every operation issued while a reply is awaited (R229, R255). SAFE. -/
  | busy
deriving DecidableEq, Repr

/-- The state. Fields `cfg` to `rx` are the block's and its ports'; `prog` to `rxAns` are the host's and the transport's, inputs
from the block's point of view; `draws` is the model's own. -/
structure State where
  /-- The configuration table (R7, R23): constant, written by no step. -/
  cfg   : Config
  /-- Whether a reply read is outstanding (R29). -/
  phase : Phase
  /-- The pending query, defined only while a reply is awaited (R29). -/
  pend  : Option Pend
  /-- The result port: the result of the last operation that delivered one (R26). -/
  res   : Res
  /-- What the block has handed to `TX`, oldest first (R16, R25). -/
  tx    : List TxEntry
  /-- What the block has read from `RX`, oldest first (R16, R25). -/
  rx    : List ReadAns
  /-- The host's program: the commands it issues, in order (R21). -/
  prog  : List Cmd
  /-- The host's index into its program (R21). -/
  hpc   : Nat
  /-- What the transport will answer to the coming writes, in order; beyond the list it answers as it likes (R27, log entry 2). -/
  txAns : List WriteAns
  /-- What the transport will answer to the coming reads, in order, `none` for a read that it never answers; beyond the list it answers as
  it likes, or never (R27, R35, log entry 2). -/
  rxAns : List (Option ReadAns)
  /-- The number of `draw i16` taken so far (R13; the model's own, log entry 1). -/
  draws : Nat
deriving DecidableEq, Repr

/-- The state right after reset (R36, R250, R251): the construction of the block over a configuration. The default configuration
is `CFG_DEFAULT` (log entry 3); nothing has been issued, sent, read or drawn. -/
def State.reset : State where
  cfg   := cfgDefault
  phase := .idle
  pend  := none
  res   := Res.empty
  tx    := []
  rx    := []
  prog  := []
  hpc   := 0
  txAns := []
  rxAns := []
  draws := 0

end Sys2Proof.Machine
end

