-- ==== Sys2Proof/Machine/Flags.lean ====
section
/-!
DEFINITION. The block has no status flags and no condition codes (10_state.md R22): no operation computes a carry, overflow, zero or
sign. The one outcome an operation reports beside its value is `RES.status`; its numeric codes stand here (R26, R220, D28).
-/

namespace Sys2Proof.Machine

/-- The numeric code of a status: `OK` is 0, `TRANSPORT_ERROR` is 1 (R26, R220). -/
def statusCode : Status → Nat
  | .ok => 0
  | .transportError _ => 1

end Sys2Proof.Machine
end

