-- ==== Sys2Proof/Machine/Float.lean ====
section
/-!
DEFINITION. The binary64 arithmetic the Unit Codec rests on (00_scope.md R11, R12, 40_unit_codec.md R117): what a value denotes, the
rounding `rne` to nearest even, `fmul`, `fdiv`, `i2f`, `trunc` and `wrap16`. Everything is computed on naturals and integers.
-/

namespace Sys2Proof.Machine

/-! ### What a binary64 value denotes -/

/-- What a value denotes (R12): exponent field 2047 is an infinity (fraction 0) or a NaN, exponent field 0 a subnormal or a zero
with the least exponent -1074, any other a normal value with an implicit leading bit. -/
def f64Value (d : F64) : FVal :=
  if d.exp.toNat = 2047 then
    if d.frac.toNat = 0 then .inf d.neg else .nan
  else if d.exp.toNat = 0 then .fin d.neg d.frac.toNat (-1074)
  else .fin d.neg (2 ^ 52 + d.frac.toNat) ((d.exp.toNat : Int) - 1075)

/-- The infinity of a sign. -/
def f64Inf (neg : Bool) : F64 := ⟨neg, 2047, 0⟩

/-- The value of a significand `m ≤ 2^53` and an exponent `e ≥ -1074` (with `e = -1074` where `m < 2^52`): a significand that the
rounding carried to `2^53` moves to the next exponent, and an exponent above 971 gives the infinity. -/
def f64Pack (neg : Bool) (m : Nat) (e : Int) : F64 :=
  if m < 2 ^ 52 then ⟨neg, 0, BitVec.ofNat 52 m⟩
  else
    let m' := if m = 2 ^ 53 then 2 ^ 52 else m
    let e' := if m = 2 ^ 53 then e + 1 else e
    if 971 < e' then f64Inf neg
    else ⟨neg, BitVec.ofNat 11 (e' + 1075).toNat, BitVec.ofNat 52 (m' - 2 ^ 52)⟩

/-! ### Rounding a rational to nearest even -/

/-- The numerator of `(num / den) / 2^e` over the denominator `rneDen den e`. -/
def rneNum (num : Nat) (e : Int) : Nat := num * 2 ^ (-e).toNat

/-- The denominator that goes with `rneNum`. -/
def rneDen (den : Nat) (e : Int) : Nat := den * 2 ^ e.toNat

/-- The exponent at which `num / den` is rounded: the one that puts the quotient in `[2^52, 2^53)`, but never below -1074. -/
def rneExp (num den : Nat) : Int :=
  let e := (num.log2 : Int) - (den.log2 : Int) - 52
  let e' := if rneNum num e / rneDen den e < 2 ^ 52 then e - 1 else e
  max e' (-1074)

/-- The integer nearest `n / d`, ties to the even one. -/
def rneQuot (n d : Nat) : Nat :=
  let m := n / d
  let r := n % d
  if d < 2 * r ∨ (2 * r = d ∧ m % 2 = 1) then m + 1 else m

/-- `rne(q)` for `q = (-1)^neg * num / den` (R12): the binary64 value nearest `q`, ties to the value whose significand is even, and
the infinity for a magnitude of at least `2^1024 - 2^970`. The sign of a zero result is `neg` (log entry 6). -/
def rne (neg : Bool) (num den : Nat) : F64 :=
  if num = 0 then ⟨neg, 0, 0⟩
  else
    let e := rneExp num den
    f64Pack neg (rneQuot (rneNum num e) (rneDen den e)) e

/-- A decimal literal read as the nearest binary64 (R78): `(-1)^neg * num / den`. -/
def f64Lit (neg : Bool) (num den : Nat) : F64 := rne neg num den

/-! ### The operations of R12 -/

/-- `fmul(a, b) = rne(real(a) * real(b))` for finite operands; undefined (`none`) for the others, as in R12. -/
def fmul (a b : F64) : Option F64 :=
  match f64Value a, f64Value b with
  | .fin sa ma ea, .fin sb mb eb =>
    some (rne (sa != sb) (ma * mb * 2 ^ (ea + eb).toNat) (2 ^ (-(ea + eb)).toNat))
  | _, _ => none

/-- `fdiv(a, b) = rne(real(a) / real(b))` for finite operands with `b` not zero; undefined (`none`) for the others, as in R12. -/
def fdiv (a b : F64) : Option F64 :=
  match f64Value a, f64Value b with
  | .fin sa ma ea, .fin sb mb eb =>
    if mb = 0 then none
    else some (rne (sa != sb) (ma * 2 ^ (ea - eb).toNat) (mb * 2 ^ (-(ea - eb)).toNat))
  | _, _ => none

/-- `i2f(w)`: the binary64 value of an integer, exact for every `i16` (R12). -/
def i2f (w : Int) : F64 := rne (decide (w < 0)) w.natAbs 1

/-- The magnitude of `trunc((-1)^neg * m * 2^e)`: the floor of `m * 2^e` (R12). -/
def truncMag (m : Nat) (e : Int) : Nat := m * 2 ^ e.toNat / 2 ^ (-e).toNat

/-- An integer of a given sign and magnitude. -/
def signed (neg : Bool) (n : Nat) : Int := if neg then -(n : Int) else n

/-- `trunc(real(p))`, the integer part toward zero of a finite value (R12); `none` for a NaN or an infinity. -/
def trunc (p : F64) : Option Int :=
  match f64Value p with
  | .fin neg m e => some (signed neg (truncMag m e))
  | _ => none

/-- `wrap16(t)`: the low 16 bits of an integer, read as signed (R11, R113). -/
def wrap16 (t : Int) : I16 := BitVec.ofInt 16 t

/-- `sext_8(b)` as an `i16` (R11). -/
def sext8 (b : Byte) : I16 := b.signExtend 16

end Sys2Proof.Machine
end

