-- ==== Sys2Proof/Machine/UnitCodec.lean ====
section
/-!
DEFINITION. The Unit Codec's functions (40_unit_codec.md): the two scaling functions `enc_scaled` and `dec_scaled`, the
integer-only algorithm of R110, the 16-bit big-endian field packer, and the six-lane batch forms.
-/

namespace Sys2Proof.Machine

/-- The truncated product before it is wrapped, `trunc(real(fmul(d, i2f(K))))`; `none` where R108 draws: `d` is a NaN or an
infinity, or the product is an infinity. -/
def encProduct (d : F64) (K : Nat) : Option Int :=
  (fmul d (i2f K)).bind trunc

/-- `enc_scaled(d, K)` (R108): the wrapped truncated product, or the `n`-th draw where there is none (log entry 1). -/
def encScaled (d : F64) (K n : Nat) : I16 :=
  match encProduct d K with
  | some t => wrap16 t
  | none => Config.drawI16 n

/-- `dec_scaled(w, K)` (R109): the binary64 nearest `w / K`, which is `fdiv(i2f(w), i2f(K))` since both operands are exact. -/
def decScaled (w : I16) (K : Nat) : F64 := rne (decide (w.toInt < 0)) w.toInt.natAbs K

/-- The number of bits of a natural, 0 for 0 (R110). -/
def bitLen (n : Nat) : Nat := if n = 0 then 0 else n.log2 + 1

/-- The rounding step of R110 on a significand of `n > 53` bits: the significand kept and the number of bits shifted out. -/
def roundBits (N : Nat) : Nat × Nat :=
  let r := bitLen N - 53
  let q := N / 2 ^ r
  let rem := N % 2 ^ r
  let half := 2 ^ (r - 1)
  let q := if half < rem ∨ (rem = half ∧ q % 2 = 1) then q + 1 else q
  if q = 2 ^ 53 then (2 ^ 52, r + 1) else (q, r)

/-- The integer-only reading of `enc_scaled` for a finite `d = (-1)^neg * m * 2^e` (R110): the truncated product, or `none` where
the product rounds to an infinity. -/
def encProductInt (neg : Bool) (m : Nat) (e : Int) (K : Nat) : Option Int :=
  let N := m * K
  if N = 0 then some 0
  else
    let N' := if 53 < bitLen N then (roundBits N).1 else N
    let e' := if 53 < bitLen N then e + (roundBits N).2 else e
    if 1024 < (bitLen N' : Int) + e' then none
    else some (signed neg (truncMag N' e'))

/-- The high byte `u16(w)[15:8]` of a wire integer (R42). -/
def hiByte (w : I16) : Byte := w.extractLsb' 8 8

/-- The low byte `u16(w)[7:0]` of a wire integer (R42). -/
def loByte (w : I16) : Byte := w.extractLsb' 0 8

/-- `put16(w)` (R106): the two bytes of a wire integer, high byte first (R42). -/
def put16Bytes (w : I16) : List Byte := [hiByte w, loByte w]

/-- `sext_16({hi, lo})` (R107, R42): the wire integer of two bytes, high byte first. -/
def joinBytes (hi lo : Byte) : I16 := hi ++ lo

/-- The scale of lane `k` of a pose: 10 for lanes 0 to 2, 100 for lanes 3 to 5 (R65, R104). -/
def poseScale (k : Nat) : Nat := if k < 3 then coordScale else angleScale

/-- The scale of a lane of an angle vector: 100 in every lane (R119, R164, D22). -/
def angleLanes (_ : Nat) : Nat := angleScale

/-- The lanes of a vector from lane `k` on, each scaled and truncated alone (R104, R119); lane `k` takes draw `n + k` where it
needs one. -/
def encLanes (scale : Nat → Nat) (n : Nat) : (k : Nat) → List F64 → List I16
  | _, [] => []
  | k, d :: ds => encScaled d (scale k) (n + k) :: encLanes scale n (k + 1) ds

/-- The lanes of a wire vector from lane `k` on, each divided by its scale (R105, R119). -/
def decLanes (scale : Nat → Nat) : (k : Nat) → List I16 → List F64
  | _, [] => []
  | k, w :: ws => decScaled w (scale k) :: decLanes scale (k + 1) ws

/-- The bytes of a sequence of wire integers, element 0 first, two bytes per element (R62). -/
def put16All (ws : List I16) : List Byte := ws.flatMap put16Bytes

end Sys2Proof.Machine
end

