-- ==== Sys2Proof/Machine/FrameCodec.lean ====
section
/-!
DEFINITION. The byte buffers (20_memory.md) and the Frame Codec's functions (41_frame_codec.md): `MemRead` and `MemWrite`, the slice,
`build_frame`, the scan and the checks of `parse_frame`, and `decode_payload`.
-/

namespace Sys2Proof.Machine

/-! ### Byte buffers -/

/-- A byte sequence read as one unsigned big-endian number (R13, R42). -/
def bigEndian (bs : List Byte) : Nat := bs.foldl (fun acc b => acc * 256 + b.toNat) 0

/-- `MemRead(buf, i, n)` (R13, R44): the `n` bytes from index `i` as one unsigned big-endian number, defined only when
`i + n ≤ len(buf)`. There is no alignment requirement. -/
def memRead (buf : List Byte) (i n : Nat) : Option Nat :=
  if i + n ≤ buf.length then some (bigEndian ((buf.drop i).take n)) else none

/-- `MemWrite(buf, i, n, v)` (R13, R45): stores the `n`-byte big-endian image of `v` at index `i`, defined only when
`i + n ≤ len(buf)`. -/
def memWrite (buf : List Byte) (i n v : Nat) : Option (List Byte) :=
  if i + n ≤ buf.length then some (buf.take i ++ bytesOfWord n v ++ buf.drop (i + n)) else none

/-- The slice `s[a .. b]` of the elements `a` up to but not including `b` (R10). -/
def slice (s : List Byte) (a b : Nat) : List Byte := (s.drop a).take (b - a)

/-! ### build_frame -/

/-- `build_frame(opcode, payload)` (R130, R60): the envelope around a payload, or `none` for a payload longer than `PAYLOAD_MAX`
(`PayloadTooLong`, R131). No byte is escaped. -/
def buildFrame (cfg : Config) (opcode : Byte) (payload : List Byte) : Option (List Byte) :=
  if payloadMax < payload.length then none
  else
    some ([cfg.sentinel, cfg.sentinel, BitVec.ofNat 8 (payload.length + 2), opcode] ++ payload ++ [cfg.sentinel])

/-! ### parse_frame -/

/-- The scan (R134): the least index at which two consecutive bytes equal the sentinel. -/
def firstPair (s : Byte) : List Byte → Option Nat
  | a :: b :: rest => if a = s ∧ b = s then some 0 else (firstPair s (b :: rest)).map (· + 1)
  | _ => none

/-- `parse_frame(raw, expected)` (R133 to R139): the payload of the frame at the first sentinel pair, or empty for every anomaly.
The trailer is not read (R138). -/
def parseFrame (cfg : Config) (raw : List Byte) (expected : Byte) : List Byte :=
  match firstPair cfg.sentinel raw with
  | none => []
  | some i =>
    match memRead raw (i + 2) 1, memRead raw (i + 3) 1 with
    | some len, some actual =>
      if len < 2 then []
      else if actual ≠ expected.toNat then []
      else if raw.length < i + 4 + (len - 2) then []
      else slice raw (i + 4) (i + 4 + (len - 2))
    | _, _ => []

/-! ### decode_payload -/

/-- The 16-bit big-endian values of a payload, two bytes each, element 0 first (R140, R150). -/
def pairs : List Byte → List I16
  | hi :: lo :: rest => joinBytes hi lo :: pairs rest
  | _ => []

/-- `decode_payload(payload, opcode)` (R140 to R143): dispatch by the payload length, the opcode choosing the reading of two
bytes. -/
def decodePayload (cfg : Config) (payload : List Byte) (opcode : Byte) : List I16 :=
  match payload with
  | [] => []
  | [hi, lo] => if opcode = cfg.opIsServoEnabled then [sext8 lo] else [joinBytes hi lo]
  | b :: _ => if payload.length = 12 then pairs payload else [sext8 b]

end Sys2Proof.Machine
end

