-- ==== Sys2Proof/Machine/Operands.lean ====
section
/-!
DEFINITION. The operand fields of the request payloads (30_encoding.md R64 to R69) and the ten payload formats of R62. Floating
operands enter already converted to wire integers (step (a) of R175); a format only lays bytes out (step (b)).
-/

namespace Sys2Proof.Machine

/-- The ordinal of a Joint id: `Joint<n>` has ordinal `n` (R66, D8). -/
def jointOrdinal : Joint → Nat
  | .j1 => 1
  | .j2 => 2
  | .j3 => 3
  | .j4 => 4
  | .j5 => 5
  | .j6 => 6

/-- The ordinal of an Axis id, 1 to 6 in the listed order (R67, D9). -/
def axisOrdinal : Axis → Nat
  | .x => 1
  | .y => 2
  | .z => 3
  | .rx => 4
  | .ry => 5
  | .rz => 6

/-- The joint id byte: the ordinal (R66). -/
def jointByte (j : Joint) : Byte := BitVec.ofNat 8 (jointOrdinal j)

/-- The axis id byte of `send_coord`: the ordinal minus one (R67). -/
def axisByte (a : Axis) : Byte := BitVec.ofNat 8 (axisOrdinal a - 1)

/-- The axis id byte of `jog_coord`: the ordinal minus `JOG_COORD_ID_BIAS` (R67, R168, C3). -/
def jogAxisByte (cfg : Config) (a : Axis) : Byte := BitVec.ofNat 8 (axisOrdinal a - cfg.jogCoordIdBias.val)

/-- The direction byte (R68). -/
def dirByte (cfg : Config) : Dir → Byte
  | .decrease => cfg.dirDecrease
  | .increase => cfg.dirIncrease

/-! ### The ten payload formats (R62) -/

/-- `F_EMPTY`: no payload. -/
def fmtEmpty : List Byte := []

/-- `F_J`: a joint id byte. -/
def fmtJ (joint : Joint) : List Byte := [jointByte joint]

/-- `F_IDS`: an id byte, a direction byte, the speed. -/
def fmtIDS (id dir speed : Byte) : List Byte := [id, dir, speed]

/-- `F_JE`: a joint id byte and an encoder value, big-endian, unscaled (R69). -/
def fmtJE (joint : Joint) (enc : I16) : List Byte := [jointByte joint] ++ put16Bytes enc

/-- `F_JAS`: a joint id byte, an angle16, the speed. -/
def fmtJAS (joint : Joint) (angle : I16) (speed : Byte) : List Byte := [jointByte joint] ++ put16Bytes angle ++ [speed]

/-- `F_XCS`: an axis id byte (ordinal minus one), a coord16, the speed. -/
def fmtXCS (axis : Axis) (coord : I16) (speed : Byte) : List Byte := [axisByte axis] ++ put16Bytes coord ++ [speed]

/-- `F_A6S`: six angle16, the speed. -/
def fmtA6S (angles : List I16) (speed : Byte) : List Byte := put16All angles ++ [speed]

/-- `F_A6F`: six angle16, the flag byte 0x00 (R69). -/
def fmtA6F (angles : List I16) : List Byte := put16All angles ++ [0x00]

/-- `F_P6F`: a pose as mixed-scale16, the flag byte 0x01 (R65, R69). -/
def fmtP6F (pose : List I16) : List Byte := put16All pose ++ [0x01]

/-- `F_P6SM`: a pose as mixed-scale16, the speed, the mode. -/
def fmtP6SM (pose : List I16) (speed mode : Byte) : List Byte := put16All pose ++ [speed] ++ [mode]

end Sys2Proof.Machine
end

