-- ==== Sys2Proof/Machine/Ops.lean ====
section
/-!
DEFINITION. The shared operations over the state: delivering a result, taking a `TransportError` (the block's one exception,
60_exceptions.md R225), the transport calls, the four steps of 10_state.md R31 to R34, and what the host may do beside issuing.
-/

namespace Sys2Proof.Machine

/-- A step's outcome. -/
abbrev Out := Host.Outcome State Fault Refusal

/-! ### Results -/

/-- `RES` with status `OK` and no other field (R32). -/
def Res.okOnly : Res := { Res.empty with status := some .ok }

/-- `RES` with status `OK` and a scalar. -/
def Res.okScalar (v : Int) : Res := { Res.okOnly with scalar := some v }

/-- `RES` with status `OK` and wire integers. -/
def Res.okW (ws : List I16) : Res := { Res.okOnly with w := some ws }

/-- `RES` with status `OK` and floating values. -/
def Res.okF (fs : List F64) : Res := { Res.okOnly with f := some fs }

/-- `RES` with status `OK` and bytes. -/
def Res.okBytes (bs : List Byte) : Res := { Res.okOnly with bytes := some bs }

/-- `RES` after a `TransportError`: the status, and no other field (R26, R225). -/
def Res.failed (info : ErrInfo) : Res := { Res.empty with status := some (.transportError info) }

/-- Delivers a result: `RES` is written, no transaction is in flight, and the host's index advances by 1 (R21, R31, R34). -/
def deliver (r : Res) (s : State) : State :=
  { s with res := r, phase := .idle, pend := none, hpc := s.hpc + 1 }

/-- Taking a `TransportError` (R225): the operation is aborted, only the status is reported, `phase` is `IDLE`, `pend` undefined;
nothing is saved and control returns to the host with the error as the operation's outcome. There is no return instruction: the
host's next operation is admitted as after any other result (R226). -/
def abort (info : ErrInfo) (s : State) : State := deliver (Res.failed info) s

/-! ### The transport calls -/

/-- What the transport answers to the next write: the first of the coming answers, or a free one (R27, log entry 2). -/
def nextWriteAns (s : State) : WriteAns :=
  match s.txAns with
  | a :: _ => a
  | [] => Config.writeAnswer s.tx.length

/-- What the transport answers to the next read: the first of the coming answers, or a free one; `none` where it never answers (R27, R35,
log entry 2). -/
def nextReadAns (s : State) : Option ReadAns :=
  match s.rxAns with
  | a :: _ => a
  | [] => Config.readAnswer s.rx.length

/-- One write on `TX`: the frame is handed to the transport, whole, and its answer recorded (R25, R27). -/
def transmit (call : Call) (frame : List Byte) (s : State) : State :=
  { s with tx := s.tx ++ [⟨call, frame, nextWriteAns s⟩], txAns := s.txAns.tail }

/-- The read half of `write_and_read` takes one answer from `RX` (R27, R34). -/
def receive (a : ReadAns) (s : State) : State :=
  { s with rx := s.rx ++ [a], rxAns := s.rxAns.tail }

/-! ### Admission -/

/-- An operation is admitted only while no reply is awaited; else it is refused `Busy` (R229, R255). -/
def whenIdle (s : State) (k : Out) : Out :=
  match s.phase with
  | .idle => k
  | .awaitReply => .refused .busy

/-- A vector operand has exactly six lanes; else the operation is refused `BadVectorLength` (R229, D21). -/
def withSix {α : Type} (v : List α) (k : Out) : Out :=
  if v.length = poseLen then k else .refused .badVectorLength

/-! ### The steps of the block -/

/-- The step ISSUE-PRIM (R31): the primitive's result is delivered; the transport is not used. `n` draws are taken. -/
def issuePrim (r : Res) (n : Nat) (s : State) : Out :=
  .next (deliver r { s with draws := s.draws + n })

/-- What a write-only operation leaves, by the transport's answer to its write (R32). -/
def finishWrite (a : WriteAns) (s : State) : State :=
  match a with
  | .ok => deliver Res.okOnly s
  | .fault info => abort info s

/-- What the write half of a query leaves (R33): on `Ok` the block awaits the reply, on a fault the operation is aborted and no read
is made. -/
def finishRequest (op : Op) (opcode : Byte) (a : WriteAns) (s : State) : State :=
  match a with
  | .ok => { s with phase := .awaitReply, pend := some ⟨op, opcode⟩ }
  | .fault info => abort info s

/-- The step ISSUE-WRITE (R32, R175): `build_frame`, then one write. `n` draws were taken by the conversion before it. -/
def issueWrite (opcode : Byte) (payload : List Byte) (n : Nat) (s : State) : Out :=
  match buildFrame s.cfg opcode payload with
  | none => .refused .payloadTooLong
  | some frame => .next (finishWrite (nextWriteAns s) (transmit .write frame { s with draws := s.draws + n }))

/-- The step ISSUE-QUERY (R33, R190): `build_frame`, then the write half of `write_and_read`. -/
def issueQuery (op : Op) (opcode : Byte) (payload : List Byte) (n : Nat) (s : State) : Out :=
  match buildFrame s.cfg opcode payload with
  | none => .refused .payloadTooLong
  | some frame =>
    .next (finishRequest op opcode (nextWriteAns s) (transmit .writeAndRead frame { s with draws := s.draws + n }))

/-! ### Reply decoding shared by the queries (R190, R202, R203) -/

/-- The result of a scalar query: the first element of the decode, or -1 when it is empty (R190, R202). -/
def scalarReply (cfg : Config) (expected : Byte) (raw : List Byte) : Res :=
  match decodePayload cfg (parseFrame cfg raw expected) expected with
  | [] => Res.okScalar (-1)
  | w :: _ => Res.okScalar w.toInt

/-- The result of a vector query: every element of the decode divided by its lane's scale, empty when the decode is (R190, R203). -/
def vectorReply (scale : Nat → Nat) (cfg : Config) (expected : Byte) (raw : List Byte) : Res :=
  Res.okF (decLanes scale 0 (decodePayload cfg (parseFrame cfg raw expected) expected))

/-- The result of `version`: the payload's bytes, one character each (R200). -/
def textReply (cfg : Config) (expected : Byte) (raw : List Byte) : Res :=
  Res.okBytes (parseFrame cfg raw expected)

/-- An answer is longer than `RAW_MAX`, where the configuration bounds it (R27, R229). -/
def rawTooLong (cfg : Config) (raw : List Byte) : Bool :=
  match cfg.rawMax with
  | none => false
  | some m => decide (m < raw.length)

/-! ### The host beside issuing -/

/-- The host sets its own index, from a result or at will (R21). -/
def hostGoto (n : Nat) (s : State) : State := { s with hpc := n }

/-- The host's read of `RES.status`; a field that holds no value faults (R26, R251). -/
def readStatus (s : State) : Except Fault Status := s.res.status.elim (.error .noValue) .ok

/-- The host's read of `RES.scalar` (R26, R251). -/
def readScalar (s : State) : Except Fault Int := s.res.scalar.elim (.error .noValue) .ok

/-- The host's read of `RES.w` (R26, R251). -/
def readW (s : State) : Except Fault (List I16) := s.res.w.elim (.error .noValue) .ok

/-- The host's read of `RES.f` (R26, R251). -/
def readF (s : State) : Except Fault (List F64) := s.res.f.elim (.error .noValue) .ok

/-- The host's read of `RES.bytes` (R26, R251). -/
def readBytes (s : State) : Except Fault (List Byte) := s.res.bytes.elim (.error .noValue) .ok

end Sys2Proof.Machine
end

