-- ==== Sys2Proof/Machine/Commands.lean ====
section
/-!
DEFINITION. The fourteen catalog operations with a write-only transaction (42_commands_write.md R160 to R176), one meaning each:
convert, lay out the payload, build the frame, write it. No operand value makes one fail (R176).
-/

namespace Sys2Proof.Machine

/-- `power_on` (R160). -/
def execPowerOn (s : State) : Out :=
  whenIdle s (issueWrite s.cfg.opPowerOn fmtEmpty 0 s)

/-- `power_off` (R161). -/
def execPowerOff (s : State) : Out :=
  whenIdle s (issueWrite s.cfg.opPowerOff fmtEmpty 0 s)

/-- `release_all_servos` (R162). -/
def execReleaseAllServos (s : State) : Out :=
  whenIdle s (issueWrite s.cfg.opReleaseAllServos fmtEmpty 0 s)

/-- `send_angle joint, deg, speed` (R163). -/
def execSendAngle (joint : Joint) (deg : F64) (speed : Byte) (s : State) : Out :=
  whenIdle s (issueWrite s.cfg.opSendAngle (fmtJAS joint (encScaled deg angleScale s.draws) speed) 1 s)

/-- `send_angles degs[6], speed` (R164): scale 100 in every lane. -/
def execSendAngles (degs : List F64) (speed : Byte) (s : State) : Out :=
  whenIdle s (withSix degs
    (issueWrite s.cfg.opSendAngles (fmtA6S (encLanes angleLanes s.draws 0 degs) speed) poseLen s))

/-- `send_coord axis, val, speed` (R165): scale 10 for every axis (C7). -/
def execSendCoord (axis : Axis) (val : F64) (speed : Byte) (s : State) : Out :=
  whenIdle s (issueWrite s.cfg.opSendCoord (fmtXCS axis (encScaled val coordScale s.draws) speed) 1 s)

/-- `send_coords vals[6], speed, mode` (R166): the pose rule's scales. -/
def execSendCoords (vals : List F64) (speed mode : Byte) (s : State) : Out :=
  whenIdle s (withSix vals
    (issueWrite s.cfg.opSendCoords (fmtP6SM (encLanes poseScale s.draws 0 vals) speed mode) poseLen s))

/-- `jog_angle joint, dir, speed` (R167). -/
def execJogAngle (joint : Joint) (dir : Dir) (speed : Byte) (s : State) : Out :=
  whenIdle s (issueWrite s.cfg.opJogAngle (fmtIDS (jointByte joint) (dirByte s.cfg dir) speed) 0 s)

/-- `jog_coord axis, dir, speed` (R168): the id byte is the ordinal less `JOG_COORD_ID_BIAS` (C3). -/
def execJogCoord (axis : Axis) (dir : Dir) (speed : Byte) (s : State) : Out :=
  whenIdle s (issueWrite s.cfg.opJogCoord (fmtIDS (jogAxisByte s.cfg axis) (dirByte s.cfg dir) speed) 0 s)

/-- `jog_stop` (R169). -/
def execJogStop (s : State) : Out :=
  whenIdle s (issueWrite s.cfg.opJogStop fmtEmpty 0 s)

/-- `pause` (R170). -/
def execPause (s : State) : Out :=
  whenIdle s (issueWrite s.cfg.opPause fmtEmpty 0 s)

/-- `resume` (R171). -/
def execResume (s : State) : Out :=
  whenIdle s (issueWrite s.cfg.opResume fmtEmpty 0 s)

/-- `stop` (R172). -/
def execStop (s : State) : Out :=
  whenIdle s (issueWrite s.cfg.opStop fmtEmpty 0 s)

/-- `set_encoder joint, enc` (R173): the encoder value is not scaled. -/
def execSetEncoder (joint : Joint) (enc : I16) (s : State) : Out :=
  whenIdle s (issueWrite s.cfg.opSetEncoder (fmtJE joint enc) 0 s)

end Sys2Proof.Machine
end

