-- ==== Sys2Proof/Machine/FramePrims.lean ====
section
/-!
DEFINITION. The three primitives of the Frame Codec (41_frame_codec.md R130, R133, R140), each one step ISSUE-PRIM (10_state.md R31).
-/

namespace Sys2Proof.Machine

/-- `build_frame opcode, payload` (R130): a payload longer than `PAYLOAD_MAX` is refused (R131). -/
def execBuildFrame (opcode : Byte) (payload : List Byte) (s : State) : Out :=
  whenIdle s
    (match buildFrame s.cfg opcode payload with
     | some frame => issuePrim (Res.okBytes frame) 0 s
     | none => .refused .payloadTooLong)

/-- `parse_frame raw, expected` (R133). -/
def execParseFrame (raw : List Byte) (expected : Byte) (s : State) : Out :=
  whenIdle s (issuePrim (Res.okBytes (parseFrame s.cfg raw expected)) 0 s)

/-- `decode_payload payload, opcode` (R140). -/
def execDecodePayload (payload : List Byte) (opcode : Byte) (s : State) : Out :=
  whenIdle s (issuePrim (Res.okW (decodePayload s.cfg payload opcode)) 0 s)

end Sys2Proof.Machine
end

