-- ==== Sys2Proof/Machine/Queries.lean ====
section
/-!
DEFINITION. The eleven catalog operations with a write-then-read transaction (43_commands_query.md R190 to R204). Each has two
meanings: `exec…` is its step ISSUE-QUERY (10_state.md R33), `reply…` is what its step REPLY makes of the raw answer (R34). The step
REPLY itself is `reply`.
-/

namespace Sys2Proof.Machine

/-! ### ISSUE-QUERY, one meaning per query -/

/-- `is_power_on` (R191). -/
def execIsPowerOn (s : State) : Out :=
  whenIdle s (issueQuery .isPowerOn s.cfg.opIsPowerOn fmtEmpty 0 s)

/-- `is_controller_connected` (R192). -/
def execIsControllerConnected (s : State) : Out :=
  whenIdle s (issueQuery .isControllerConnected s.cfg.opIsControllerConnected fmtEmpty 0 s)

/-- `is_moving` (R193). -/
def execIsMoving (s : State) : Out :=
  whenIdle s (issueQuery .isMoving s.cfg.opIsMoving fmtEmpty 0 s)

/-- `is_paused` (R194). -/
def execIsPaused (s : State) : Out :=
  whenIdle s (issueQuery .isPaused s.cfg.opIsPaused fmtEmpty 0 s)

/-- `is_in_angle_position degs[6]` (R195): scale 100 in every lane, flag byte 0x00. -/
def execIsInAnglePosition (degs : List F64) (s : State) : Out :=
  whenIdle s (withSix degs
    (issueQuery .isInAnglePosition s.cfg.opIsInPosition (fmtA6F (encLanes angleLanes s.draws 0 degs)) poseLen s))

/-- `is_in_coord_position coords[6]` (R196): the pose rule's scales, flag byte 0x01. -/
def execIsInCoordPosition (coords : List F64) (s : State) : Out :=
  whenIdle s (withSix coords
    (issueQuery .isInCoordPosition s.cfg.opIsInPosition (fmtP6F (encLanes poseScale s.draws 0 coords)) poseLen s))

/-- `get_encoder joint` (R197). -/
def execGetEncoder (joint : Joint) (s : State) : Out :=
  whenIdle s (issueQuery .getEncoder s.cfg.opGetEncoder (fmtJ joint) 0 s)

/-- `is_servo_enabled joint` (R201; the request payload is the spec's own, C4, D25, log entry 9). -/
def execIsServoEnabled (joint : Joint) (s : State) : Out :=
  whenIdle s (issueQuery .isServoEnabled s.cfg.opIsServoEnabled (fmtJ joint) 0 s)

/-- `get_angles` (R198). -/
def execGetAngles (s : State) : Out :=
  whenIdle s (issueQuery .getAngles s.cfg.opGetAngles fmtEmpty 0 s)

/-- `get_coords` (R199). -/
def execGetCoords (s : State) : Out :=
  whenIdle s (issueQuery .getCoords s.cfg.opGetCoords fmtEmpty 0 s)

/-- `version` (R200). -/
def execVersion (s : State) : Out :=
  whenIdle s (issueQuery .version s.cfg.opVersion fmtEmpty 0 s)

/-! ### What each query makes of its reply -/

/-- The result of `is_power_on` (R191, R202). -/
def replyIsPowerOn (cfg : Config) (expected : Byte) (raw : List Byte) : Res := scalarReply cfg expected raw

/-- The result of `is_controller_connected` (R192, R202). -/
def replyIsControllerConnected (cfg : Config) (expected : Byte) (raw : List Byte) : Res := scalarReply cfg expected raw

/-- The result of `is_moving` (R193, R202). -/
def replyIsMoving (cfg : Config) (expected : Byte) (raw : List Byte) : Res := scalarReply cfg expected raw

/-- The result of `is_paused` (R194, R202). -/
def replyIsPaused (cfg : Config) (expected : Byte) (raw : List Byte) : Res := scalarReply cfg expected raw

/-- The result of `is_in_angle_position` (R195, R202). -/
def replyIsInAnglePosition (cfg : Config) (expected : Byte) (raw : List Byte) : Res := scalarReply cfg expected raw

/-- The result of `is_in_coord_position` (R196, R202). -/
def replyIsInCoordPosition (cfg : Config) (expected : Byte) (raw : List Byte) : Res := scalarReply cfg expected raw

/-- The result of `get_encoder` (R197, R202): the value is not scaled. -/
def replyGetEncoder (cfg : Config) (expected : Byte) (raw : List Byte) : Res := scalarReply cfg expected raw

/-- The result of `is_servo_enabled` (R201, R202): two bytes are read by the narrow rule, since the expected opcode is
`OP_IS_SERVO_ENABLED` (R141). -/
def replyIsServoEnabled (cfg : Config) (expected : Byte) (raw : List Byte) : Res := scalarReply cfg expected raw

/-- The result of `get_angles` (R198, R203): scale 100 in every lane (D22). -/
def replyGetAngles (cfg : Config) (expected : Byte) (raw : List Byte) : Res := vectorReply angleLanes cfg expected raw

/-- The result of `get_coords` (R199, R203): the pose rule's scales. -/
def replyGetCoords (cfg : Config) (expected : Byte) (raw : List Byte) : Res := vectorReply poseScale cfg expected raw

/-- The result of `version` (R200). -/
def replyVersion (cfg : Config) (expected : Byte) (raw : List Byte) : Res := textReply cfg expected raw

/-- What the rule of the pending operation makes of a raw answer (R34); `none` for an operation that is no query. -/
def replyResult (cfg : Config) (expected : Byte) (raw : List Byte) : Op → Option Res
  | .version => some (replyVersion cfg expected raw)
  | .isPowerOn => some (replyIsPowerOn cfg expected raw)
  | .isControllerConnected => some (replyIsControllerConnected cfg expected raw)
  | .getAngles => some (replyGetAngles cfg expected raw)
  | .getCoords => some (replyGetCoords cfg expected raw)
  | .isPaused => some (replyIsPaused cfg expected raw)
  | .isInAnglePosition => some (replyIsInAnglePosition cfg expected raw)
  | .isInCoordPosition => some (replyIsInCoordPosition cfg expected raw)
  | .isMoving => some (replyIsMoving cfg expected raw)
  | .getEncoder => some (replyGetEncoder cfg expected raw)
  | .isServoEnabled => some (replyIsServoEnabled cfg expected raw)
  | .powerOn => none
  | .powerOff => none
  | .releaseAllServos => none
  | .sendAngle => none
  | .sendAngles => none
  | .sendCoord => none
  | .sendCoords => none
  | .pause => none
  | .resume => none
  | .stop => none
  | .jogAngle => none
  | .jogCoord => none
  | .jogStop => none
  | .setEncoder => none
  | .encodeAngle => none
  | .encodeCoord => none
  | .decodeAngle => none
  | .decodeCoord => none
  | .coordsToInt => none
  | .intToCoords => none
  | .put16 => none
  | .get16 => none
  | .buildFrame => none
  | .parseFrame => none
  | .decodePayload => none

/-! ### REPLY -/

/-- The step REPLY once the transport has answered with bytes (R34): the pending operation's rule applied to the answer and the
expected opcode. An answer longer than `RAW_MAX` is refused (R229). -/
def replyBytes (raw : List Byte) (s : State) : Out :=
  if rawTooLong s.cfg raw then .refused .rawTooLong
  else
    match s.pend with
    | none => .fault .noPending
    | some p =>
      match replyResult s.cfg p.expected raw p.op with
      | none => .fault .noPending
      | some r => .next (deliver r (receive (.bytes raw) s))

/-- The step REPLY (R34, R35): what lifts the hold of `AWAIT_REPLY` is the transport's answer and nothing else; where none ever
comes, the host is held (U14). -/
def reply (s : State) : Out :=
  match nextReadAns s with
  | none => .fault .noReply
  | some (.fault info) => .next (abort info (receive (.fault info) s))
  | some (.bytes raw) => replyBytes raw s

end Sys2Proof.Machine
end

