-- ==== Sys2Proof/Machine/UnitPrims.lean ====
section
/-!
DEFINITION. The eight primitives of the Unit Codec (40_unit_codec.md R100 to R107), each one step ISSUE-PRIM (10_state.md R31).
-/

namespace Sys2Proof.Machine

/-- `encode_angle deg` (R100). -/
def execEncodeAngle (deg : F64) (s : State) : Out :=
  whenIdle s (issuePrim (Res.okScalar (encScaled deg angleScale s.draws).toInt) 1 s)

/-- `encode_coord mm` (R101). -/
def execEncodeCoord (mm : F64) (s : State) : Out :=
  whenIdle s (issuePrim (Res.okScalar (encScaled mm coordScale s.draws).toInt) 1 s)

/-- `decode_angle w` (R102). -/
def execDecodeAngle (w : I16) (s : State) : Out :=
  whenIdle s (issuePrim (Res.okF [decScaled w angleScale]) 0 s)

/-- `decode_coord w` (R103). -/
def execDecodeCoord (w : I16) (s : State) : Out :=
  whenIdle s (issuePrim (Res.okF [decScaled w coordScale]) 0 s)

/-- `coords_to_int pose[6]` (R104). -/
def execCoordsToInt (pose : List F64) (s : State) : Out :=
  whenIdle s (withSix pose (issuePrim (Res.okW (encLanes poseScale s.draws 0 pose)) poseLen s))

/-- `int_to_coords vals[6]` (R105). -/
def execIntToCoords (vals : List I16) (s : State) : Out :=
  whenIdle s (withSix vals (issuePrim (Res.okF (decLanes poseScale 0 vals)) 0 s))

/-- `put16 w` (R106). -/
def execPut16 (w : I16) (s : State) : Out :=
  whenIdle s (issuePrim (Res.okBytes (put16Bytes w)) 0 s)

/-- `get16 bytes` (R107): exactly two bytes; any other length is refused (R229). -/
def execGet16 (bytes : List Byte) (s : State) : Out :=
  whenIdle s
    (match bytes with
     | [hi, lo] => issuePrim (Res.okScalar (joinBytes hi lo).toInt) 0 s
     | _ => .refused .badFieldLength)

end Sys2Proof.Machine
end

