-- ==== Sys2Proof/Machine/Dispatch.lean ====
section
/-!
DEFINITION. The dispatch from an operation to its meaning, one arm per constructor of `Instr`.
-/

namespace Sys2Proof.Machine

/-- One operation issued by the host: the steps ISSUE-PRIM, ISSUE-WRITE and ISSUE-QUERY (10_state.md R31 to R33). -/
def exec (i : Instr) (s : State) : Host.Outcome State Fault Refusal :=
  match i with
  | .version => Sys2Proof.Machine.execVersion s
  | .powerOn => Sys2Proof.Machine.execPowerOn s
  | .powerOff => Sys2Proof.Machine.execPowerOff s
  | .isPowerOn => Sys2Proof.Machine.execIsPowerOn s
  | .releaseAllServos => Sys2Proof.Machine.execReleaseAllServos s
  | .isControllerConnected => Sys2Proof.Machine.execIsControllerConnected s
  | .getAngles => Sys2Proof.Machine.execGetAngles s
  | .sendAngle joint deg speed => Sys2Proof.Machine.execSendAngle joint deg speed s
  | .sendAngles degs speed => Sys2Proof.Machine.execSendAngles degs speed s
  | .getCoords => Sys2Proof.Machine.execGetCoords s
  | .sendCoord axis val speed => Sys2Proof.Machine.execSendCoord axis val speed s
  | .sendCoords vals speed mode => Sys2Proof.Machine.execSendCoords vals speed mode s
  | .pause => Sys2Proof.Machine.execPause s
  | .isPaused => Sys2Proof.Machine.execIsPaused s
  | .resume => Sys2Proof.Machine.execResume s
  | .stop => Sys2Proof.Machine.execStop s
  | .isInAnglePosition degs => Sys2Proof.Machine.execIsInAnglePosition degs s
  | .isInCoordPosition coords => Sys2Proof.Machine.execIsInCoordPosition coords s
  | .isMoving => Sys2Proof.Machine.execIsMoving s
  | .jogAngle joint dir speed => Sys2Proof.Machine.execJogAngle joint dir speed s
  | .jogCoord axis dir speed => Sys2Proof.Machine.execJogCoord axis dir speed s
  | .jogStop => Sys2Proof.Machine.execJogStop s
  | .setEncoder joint enc => Sys2Proof.Machine.execSetEncoder joint enc s
  | .getEncoder joint => Sys2Proof.Machine.execGetEncoder joint s
  | .isServoEnabled joint => Sys2Proof.Machine.execIsServoEnabled joint s
  | .encodeAngle deg => Sys2Proof.Machine.execEncodeAngle deg s
  | .encodeCoord mm => Sys2Proof.Machine.execEncodeCoord mm s
  | .decodeAngle w => Sys2Proof.Machine.execDecodeAngle w s
  | .decodeCoord w => Sys2Proof.Machine.execDecodeCoord w s
  | .coordsToInt pose => Sys2Proof.Machine.execCoordsToInt pose s
  | .intToCoords vals => Sys2Proof.Machine.execIntToCoords vals s
  | .put16 w => Sys2Proof.Machine.execPut16 w s
  | .get16 bytes => Sys2Proof.Machine.execGet16 bytes s
  | .buildFrame opcode payload => Sys2Proof.Machine.execBuildFrame opcode payload s
  | .parseFrame raw expected => Sys2Proof.Machine.execParseFrame raw expected s
  | .decodePayload payload opcode => Sys2Proof.Machine.execDecodePayload payload opcode s

end Sys2Proof.Machine
end

