-- ==== Sys2Proof/Machine/Fetch.lean ====
section
/-!
DEFINITION. Where the next operation comes from: the block fetches nothing (10_state.md R21, 20_memory.md R53); the host issues the
command its index points at. A command record that is no operation is refused by name (60_exceptions.md R229).
-/

namespace Sys2Proof.Machine

/-- The command the host is about to issue, if its program has one at its index (R21). -/
def fetchCmd (s : State) : Option Cmd := s.prog[s.hpc]?

/-- The refusal of a command record that names no operation, or lacks its scalar operand (R229). -/
def decodeRefusal : DecodeError → Refusal
  | .badSelector => .badSelector
  | .missingLane => .badVectorLength

/-- A program with a given command at index `n`; what stands before and after is kept, a gap is filled with the same command. -/
def placeCmd (c : Cmd) : (n : Nat) → List Cmd → List Cmd
  | 0, [] => [c]
  | 0, _ :: rest => c :: rest
  | n + 1, [] => c :: placeCmd c n []
  | n + 1, d :: rest => d :: placeCmd c n rest

end Sys2Proof.Machine
end

