-- ==== Sys2Proof/Machine/Step.lean ====
section
/-!
DEFINITION. One step of the machine (10_state.md R31 to R35): while a reply is awaited the only step is REPLY; otherwise the host
issues the command at its index. With no command to issue the block waits (R250).
-/

namespace Sys2Proof.Machine

/-- One step. In `IDLE` the host's command is decoded and executed; without one the block waits and nothing changes (R250, log
entry 4). In `AWAIT_REPLY` the host has no step and the step is REPLY (R35). -/
def step (s : State) : Host.Outcome State Fault Refusal :=
  match s.phase with
  | .awaitReply => reply s
  | .idle =>
    match fetchCmd s with
    | none => .next s
    | some c =>
      match decode s.cfg c with
      | .error e => .refused (decodeRefusal e)
      | .ok i => exec i s

/-- The state with the operation of an opcode-table word standing where the next step takes its command: at the host's index, with no
reply awaited, so that the host is the agent that moves (log entry 4). -/
def State.withFetchWord (s : State) (nbits w : Nat) : State :=
  { s with prog := placeCmd (tableCmd nbits w) s.hpc s.prog, phase := .idle, pend := none }

end Sys2Proof.Machine
end

