-- ==== Sys2Proof/Safety.lean ====
section
/-!
DEFINITION. The terms the claims are stated in: the real number a binary64 value denotes, what a delivered operation leaves, the
declarative reading of the scan and of the silent anomalies, and the invariant of the machine.
-/

namespace Sys2Proof.Machine

/-! ### Numbers -/

/-- The rational `(-1)^neg * m * 2^e`, `real(d)` of a finite value (R12). -/
def ratOf (neg : Bool) (m : Nat) (e : Int) : ℚ := (if neg then -1 else 1) * (m : ℚ) * (2 : ℚ) ^ e

/-- The rational `(-1)^neg * num / den`. -/
def ratQuot (neg : Bool) (num den : Nat) : ℚ := (if neg then -1 else 1) * ((num : ℚ) / (den : ℚ))

/-- `sext_16(h)` of an unsigned 16-bit value (R11). -/
def sext16Int (h : Nat) : Int := if h < 32768 then (h : Int) else (h : Int) - 65536

/-- `sext_8(b)` of an unsigned 8-bit value (R11). -/
def sext8Int (b : Nat) : Int := if b < 128 then (b : Int) else (b : Int) - 256

/-! ### What a step leaves -/

/-- The state a primitive leaves (R31): its result in `RES`, the host's index advanced, `n` draws taken, all else as it was. -/
def primDone (s : State) (r : Res) (n : Nat) : State :=
  { s with res := r, pend := none, hpc := s.hpc + 1, draws := s.draws + n }

/-- `RES` by the transport's answer to a write: `OK` and no other field, or `TRANSPORT_ERROR` and no other field (R32, R225). -/
def resOfWrite : WriteAns → Res
  | .ok => ⟨some .ok, none, none, none, none⟩
  | .fault info => ⟨some (.transportError info), none, none, none, none⟩

/-- The state a write-only operation leaves (R32): one frame on `TX`, the status in `RES`, the host's index advanced. -/
def wrote (s : State) (frame : List Byte) (n : Nat) : State :=
  { s with
    res := resOfWrite (nextWriteAns s), pend := none, hpc := s.hpc + 1, draws := s.draws + n
    tx := s.tx ++ [⟨.write, frame, nextWriteAns s⟩], txAns := s.txAns.tail }

/-- The state the write half of a query leaves (R33): one frame on `TX` and, when the transport took it, the reply awaited with the
operation and its opcode pending; else the operation aborted. -/
def asked (s : State) (op : Op) (opcode : Byte) (frame : List Byte) (n : Nat) : State :=
  match nextWriteAns s with
  | .ok =>
    { s with
      phase := .awaitReply, pend := some ⟨op, opcode⟩, draws := s.draws + n
      tx := s.tx ++ [⟨.writeAndRead, frame, .ok⟩], txAns := s.txAns.tail }
  | .fault info =>
    { s with
      res := ⟨some (.transportError info), none, none, none, none⟩, pend := none, hpc := s.hpc + 1, draws := s.draws + n
      tx := s.tx ++ [⟨.writeAndRead, frame, .fault info⟩], txAns := s.txAns.tail }

/-- The state the step REPLY leaves (R34): one answer taken from `RX`, the result in `RES`, no transaction in flight. -/
def answered (s : State) (r : Res) (a : ReadAns) : State :=
  { s with res := r, phase := .idle, pend := none, hpc := s.hpc + 1, rx := s.rx ++ [a], rxAns := s.rxAns.tail }

/-- An answer the configuration admits: not longer than `RAW_MAX`, where that is bounded (R27). -/
def Admitted (cfg : Config) (raw : List Byte) : Prop := ∀ m, cfg.rawMax = some m → raw.length ≤ m

/-! ### The scan and the anomalies, declaratively -/

/-- `i` is the first index at which two consecutive bytes equal the sentinel (R134). -/
def IsFirstPair (sentinel : Byte) (raw : List Byte) (i : Nat) : Prop :=
  (raw[i]? = some sentinel ∧ raw[i + 1]? = some sentinel) ∧
    ∀ j, j < i → ¬ (raw[j]? = some sentinel ∧ raw[j + 1]? = some sentinel)

/-- One of the causes of `ProtocolMismatch` that `parse_frame` detects (R222): no sentinel pair; or, at the first pair, the length or
opcode byte missing, a length byte below 2, another opcode, or the payload cut short. -/
def Anomaly (cfg : Config) (raw : List Byte) (expected : Byte) : Prop :=
  (∀ i, ¬ IsFirstPair cfg.sentinel raw i) ∨
  ∃ i, IsFirstPair cfg.sentinel raw i ∧
    (raw.length ≤ i + 3 ∨
     (∃ len, raw[i + 2]? = some len ∧ (len.toNat < 2 ∨ raw.length < i + 4 + (len.toNat - 2))) ∨
     (∃ opc, raw[i + 3]? = some opc ∧ opc ≠ expected))

/-! ### The operations by kind -/

/-- The opcode a query's reply must carry: the configured opcode of its catalog entry; `none` for an operation that reads nothing
(R74, D20, D36). -/
def queryOpcode (cfg : Config) : Op → Option Byte
  | .version => some cfg.opVersion
  | .isPowerOn => some cfg.opIsPowerOn
  | .isControllerConnected => some cfg.opIsControllerConnected
  | .getAngles => some cfg.opGetAngles
  | .getCoords => some cfg.opGetCoords
  | .isPaused => some cfg.opIsPaused
  | .isInAnglePosition => some cfg.opIsInPosition
  | .isInCoordPosition => some cfg.opIsInPosition
  | .isMoving => some cfg.opIsMoving
  | .getEncoder => some cfg.opGetEncoder
  | .isServoEnabled => some cfg.opIsServoEnabled
  | _ => none

/-- The eight queries whose result is a scalar (R74). -/
def scalarOps : List Op :=
  [.isPowerOn, .isControllerConnected, .isMoving, .isPaused, .isInAnglePosition, .isInCoordPosition, .getEncoder,
   .isServoEnabled]

/-- The operation is one of the eleven primitives (R90). -/
def isPrim (op : Op) : Bool := (genreOf op).isNone

/-- The operation sends a request and awaits a reply (R74, kind `Q`). -/
def isQuery (op : Op) : Bool := (queryOpcode cfgDefault op).isSome

/-! ### The invariant -/

/-- A pending query exactly while a reply is awaited, with the opcode its request carried (R29, R33). -/
def pendOk (s : State) : Bool :=
  match s.phase, s.pend with
  | .idle, none => true
  | .awaitReply, some p => queryOpcode s.cfg p.op == some p.expected
  | _, _ => false

/-- `RES` as R26 says it can be: no value at all; an error and no other field; or `OK` with at most one other field, a scalar in
the `i16` range, or a sequence of 0, 1 or 6 elements. -/
def resOk (r : Res) : Bool :=
  match r.status, r.scalar, r.w, r.f, r.bytes with
  | none, none, none, none, none => true
  | some (.transportError _), none, none, none, none => true
  | some .ok, none, none, none, none => true
  | some .ok, some v, none, none, none => decide (-32768 ≤ v) && decide (v ≤ 32767)
  | some .ok, none, some ws, none, none => ws.length == 0 || ws.length == 1 || ws.length == 6
  | some .ok, none, none, some fs, none => fs.length == 0 || fs.length == 1 || fs.length == 6
  | some .ok, none, none, none, some _ => true
  | _, _, _, _, _ => false

/-- One frame on `TX` is a well-formed request of the catalog, sent by the call its operation's kind asks for (R61, R74, R75). -/
def txOk (cfg : Config) (e : TxEntry) : Bool :=
  match decodeRequest cfg e.frame with
  | .ok op => e.call == (if isQuery op then .writeAndRead else .write)
  | .error _ => false

/-- The number of requests whose reply read was begun: the writes of queries that the transport took (R33). -/
def readsBegun (tx : List TxEntry) : Nat := tx.countP (fun e => e.call == .writeAndRead && e.answer == .ok)

/-- The number of reads outstanding: one while a reply is awaited. -/
def readsOutstanding : Phase → Nat
  | .idle => 0
  | .awaitReply => 1

/-- One answer read from `RX` is within `RAW_MAX` (R27). -/
def rxOk (cfg : Config) : ReadAns → Bool
  | .bytes raw => !rawTooLong cfg raw
  | .fault _ => true

/-- The invariant: the configuration is one R8 admits; the transaction, the result and the two ports are as the spec says; and every
query whose write was taken is read exactly once (R46). -/
abbrev State.Inv (s : State) : Prop :=
  s.cfg.WellFormed ∧ pendOk s = true ∧ resOk s.res = true ∧ s.tx.all (txOk s.cfg) = true ∧ s.rx.all (rxOk s.cfg) = true ∧
    s.rx.length + readsOutstanding s.phase = readsBegun s.tx

end Sys2Proof.Machine
end

