-- ==== Sys2Proof/Certificates/Slice0/Obligations.lean ====
section
/-!
DEFINITION. The statements for the provers, each a `Prop` named for what it states. Every docstring cites the rule of spec/ it
formalises; OBLIGATIONS.json lists them.
-/

open Sys2Proof Sys2Proof.Machine

/-! ### The arithmetic of the Unit Codec -/

/-- R12: `rne(q)` is the binary64 value nearest `q`, ties to the value whose significand is even, and the infinity of `q`'s sign from
`2^1024 - 2^970` on. That f64 is binary64 rounded to nearest even is the spec's from general knowledge (D12, G3; log entry 7); the
sign of a zero result, which R12 leaves open, is the model's (log entry 6). -/
def Obligations.RoundingIsNearestTiesToEven : Prop :=
  ∀ (neg : Bool) (num den : Nat), 0 < den →
    ((2 ^ 1024 - 2 ^ 970 : ℚ) ≤ |ratQuot neg num den| → rne neg num den = f64Inf neg) ∧
    (|ratQuot neg num den| < (2 ^ 1024 - 2 ^ 970 : ℚ) →
      ∃ m e, f64Value (rne neg num den) = .fin neg m e ∧
        ∀ (d : F64) (neg' : Bool) (m' : Nat) (e' : Int), f64Value d = .fin neg' m' e' →
          |ratQuot neg num den - ratOf neg m e| ≤ |ratQuot neg num den - ratOf neg' m' e'| ∧
          (|ratQuot neg num den - ratOf neg m e| = |ratQuot neg num den - ratOf neg' m' e'| →
            ratOf neg' m' e' ≠ ratOf neg m e → m % 2 = 0))

/-- R12: `fmul` and `fdiv` of finite operands round the exact product and the exact quotient once. (The spec's reading from general
knowledge, D12, G3; log entry 7. The sign of a zero result, which R12 leaves open, is the model's, log entry 6.) -/
def Obligations.ProductAndQuotientRoundOnce : Prop :=
  ∀ (a b : F64) (sa sb : Bool) (ma mb : Nat) (ea eb : Int),
    f64Value a = .fin sa ma ea → f64Value b = .fin sb mb eb →
    (∃ num den, 0 < den ∧ ratQuot (sa != sb) num den = ratOf sa ma ea * ratOf sb mb eb ∧
      fmul a b = some (rne (sa != sb) num den)) ∧
    (ratOf sb mb eb ≠ 0 →
      ∃ num den, 0 < den ∧ ratQuot (sa != sb) num den = ratOf sa ma ea / ratOf sb mb eb ∧
        fdiv a b = some (rne (sa != sb) num den))

/-- R108: `enc_scaled` draws for a NaN, an infinity and an overflowing product; otherwise it is the low 16 bits of the rounded
product's integer part toward zero. (The one rounding, the draw and the missing intermediate width are the spec's decisions D12 to
D14; log entries 1, 7 and 8.) -/
def Obligations.EncodingFollowsItsRule : Prop :=
  ∀ (d : F64) (K n : Nat), K = 10 ∨ K = 100 →
    ((f64Value d = .nan ∨ ∃ neg, f64Value d = .inf neg) → encScaled d K n = Config.drawI16 n) ∧
    (∀ sd md ed, f64Value d = .fin sd md ed →
      ∃ p, fmul d (i2f K) = some p ∧
        ((∃ neg, f64Value p = .inf neg) ∧ encScaled d K n = Config.drawI16 n ∨
         ∃ neg m e, f64Value p = .fin neg m e ∧
          ∃ t : Int, (if 0 ≤ ratOf neg m e then t = ⌊ratOf neg m e⌋ else t = -⌊-ratOf neg m e⌋) ∧
            (encScaled d K n).toInt = sext16Int (t % 65536).toNat))

/-- R110: the integer-only algorithm gives the truncated product of R108 for every finite operand, and draws exactly where R108 does.
(The spec marks R110 as its own derivation from R108.) -/
def Obligations.EncodingAgreesWithTheIntegerAlgorithm : Prop :=
  ∀ (d : F64) (neg : Bool) (m : Nat) (e : Int) (K : Nat), K = 10 ∨ K = 100 → f64Value d = .fin neg m e →
    encProduct d K = encProductInt neg m e K

/-- R109: `dec_scaled` is the binary64 quotient of two exact integers, finite, normal or zero, and `+0` for 0. (The spec's decision
D12; log entry 7.) -/
def Obligations.DecodingIsTheBinary64Quotient : Prop :=
  ∀ (w : I16) (K : Nat), K = 10 ∨ K = 100 →
    fdiv (i2f w.toInt) (i2f K) = some (decScaled w K) ∧
    (∃ neg m e, f64Value (i2f w.toInt) = .fin neg m e ∧ ratOf neg m e = w.toInt) ∧
    (∃ m e, f64Value (decScaled w K) = .fin (decide (w.toInt < 0)) m e) ∧
    (w.toInt ≠ 0 → 0 < (decScaled w K).exp.toNat ∧ (decScaled w K).exp.toNat < 2047) ∧
    decScaled 0 K = ⟨false, 0, 0⟩

/-- R112: truncation is toward zero and odd: negating the operand negates the integer before wrapping. After wrapping the results are
opposite too, but for `t mod 65536 = 32768`, where both signs give -32768. (The spec marks R112 as its own derivation from R108.) -/
def Obligations.EncodingIsOddBeforeWrapping : Prop :=
  ∀ (d : F64) (K n : Nat) (t : Int), K = 10 ∨ K = 100 → encProduct d K = some t →
    encProduct ⟨!d.neg, d.exp, d.frac⟩ K = some (-t) ∧
    encScaled ⟨!d.neg, d.exp, d.frac⟩ K n = wrap16 (-t) ∧
    (t % 65536 ≠ 32768 → (encScaled ⟨!d.neg, d.exp, d.frac⟩ K n).toInt = -(encScaled d K n).toInt) ∧
    (t % 65536 = 32768 →
      (encScaled d K n).toInt = -32768 ∧ (encScaled ⟨!d.neg, d.exp, d.frac⟩ K n).toInt = -32768)

/-- R113: the result is the value congruent to the truncated product modulo 65536 in the `i16` range, never a clamped one; a product
of magnitude `2^68` or more encodes to 0; and nothing reports it: the status is OK. (The one step from the unbounded product to 16
bits is the spec's decision D14, log entry 8, and the product's binary64 rounding its D12, log entry 7.) -/
def Obligations.EncodingWrapsModulo65536 : Prop :=
  ∀ (d : F64) (K n : Nat) (t : Int), K = 10 ∨ K = 100 → encProduct d K = some t →
    (encScaled d K n).toInt % 65536 = t % 65536 ∧
    -32768 ≤ (encScaled d K n).toInt ∧ (encScaled d K n).toInt ≤ 32767 ∧
    (2 ^ 68 ≤ |t| → (encScaled d K n).toInt = 0) ∧
    ∀ s : State, s.phase = .idle →
      ∃ u, exec (if K = 100 then .encodeAngle d else .encodeCoord d) s = .next u ∧
        u.res = ⟨some .ok, some (encScaled d K s.draws).toInt, none, none, none⟩

/-- R114: for a finite operand whose truncated product `t` does not wrap, `t / K` lies within one unit of resolution toward zero of
the operand, and the decoded value is `t / K` up to its one rounding. (The spec marks R114 as its own derivation from R108 and R109.) -/
def Obligations.EncodeThenDecodeIsWithinOneUnit : Prop :=
  ∀ (d : F64) (neg : Bool) (m : Nat) (e : Int) (K n : Nat) (t : Int), K = 10 ∨ K = 100 →
    f64Value d = .fin neg m e → encProduct d K = some t → -32768 ≤ t → t ≤ 32767 →
    (0 ≤ ratOf neg m e → -(1 / 2 ^ 38 : ℚ) < ratOf neg m e * K - t ∧ ratOf neg m e * K - t < 1) ∧
    (ratOf neg m e < 0 → -(1 / 2 ^ 38 : ℚ) < t - ratOf neg m e * K ∧ t - ratOf neg m e * K < 1) ∧
    (encScaled d K n).toInt = t ∧
    ∃ neg' m' e', f64Value (decScaled (encScaled d K n) K) = .fin neg' m' e' ∧
      |ratOf neg' m' e' - (t : ℚ) / K| ≤ (if K = 100 then 1 / 2 ^ 45 else 1 / 2 ^ 42)

/-- R115, in part: decoding and encoding again is the identity on every wire coordinate; on wire angles it is not, and 29 is the
smallest positive value that it changes (to 28). (The spec marks R115 as its own, by exhaustive evaluation.) -/
def Obligations.DecodeThenEncodeRestoresCoordinates : Prop :=
  (∀ (w : I16) (n : Nat), encScaled (decScaled w 10) 10 n = w) ∧
  (∀ (w : I16) (n : Nat), 0 ≤ w.toInt → w.toInt < 29 → encScaled (decScaled w 100) 100 n = w) ∧
  (∀ n : Nat, encScaled (decScaled 29 100) 100 n = 28)

/-! ### The primitives of the Unit Codec -/

/-- R100, R101, R31: the scalar encoders deliver the encoded value with status OK, take one draw index, and leave everything else.
(The draw index is the model's, log entry 1.) -/
def Obligations.EncodePrimitivesDeliverTheirScalar : Prop :=
  ∀ (s : State) (d : F64), s.phase = .idle →
    exec (.encodeAngle d) s =
      .next (primDone s ⟨some .ok, some (encScaled d 100 s.draws).toInt, none, none, none⟩ 1) ∧
    exec (.encodeCoord d) s =
      .next (primDone s ⟨some .ok, some (encScaled d 10 s.draws).toInt, none, none, none⟩ 1)

/-- R108, R117, U1: the encoders run on a NaN, an infinity and an operand whose product overflows; the scalar is then the next free
draw, with status OK and no report. (The spec's decision D13; the draw is the free value of log entry 1.) -/
def Obligations.NonFiniteOperandsEncodeToADraw : Prop :=
  ∀ (s : State) (d : F64), s.phase = .idle →
    ((f64Value d = .nan ∨ (∃ neg, f64Value d = .inf neg) ∨ fmul d (i2f 100) = some (f64Inf d.neg)) →
      ∃ t, exec (.encodeAngle d) s = .next t ∧ t.res = ⟨some .ok, some (Config.drawI16 s.draws).toInt, none, none, none⟩) ∧
    ((f64Value d = .nan ∨ (∃ neg, f64Value d = .inf neg) ∨ fmul d (i2f 10) = some (f64Inf d.neg)) →
      ∃ t, exec (.encodeCoord d) s = .next t ∧ t.res = ⟨some .ok, some (Config.drawI16 s.draws).toInt, none, none, none⟩)

/-- R102, R103, R31: the scalar decoders deliver one floating value with status OK and leave everything else. -/
def Obligations.DecodePrimitivesDeliverTheirQuotient : Prop :=
  ∀ (s : State) (w : I16), s.phase = .idle →
    exec (.decodeAngle w) s = .next (primDone s ⟨some .ok, none, none, some [decScaled w 100], none⟩ 0) ∧
    exec (.decodeCoord w) s = .next (primDone s ⟨some .ok, none, none, some [decScaled w 10], none⟩ 0)

/-- R104, R105, R119: the batch forms convert six lanes, each alone, with scale 10 in lanes 0 to 2 and scale 100 in lanes 3 to 5. (Six
lanes: the spec's decision D21. Which draw a lane would take is the model's, log entry 1.) -/
def Obligations.BatchFormsScaleEachLaneAlone : Prop :=
  ∀ s : State, s.phase = .idle →
    (∀ p0 p1 p2 p3 p4 p5 : F64,
      exec (.coordsToInt [p0, p1, p2, p3, p4, p5]) s =
        .next (primDone s ⟨some .ok, none,
          some [encScaled p0 10 s.draws, encScaled p1 10 (s.draws + 1), encScaled p2 10 (s.draws + 2),
            encScaled p3 100 (s.draws + 3), encScaled p4 100 (s.draws + 4), encScaled p5 100 (s.draws + 5)],
          none, none⟩ 6)) ∧
    (∀ v0 v1 v2 v3 v4 v5 : I16,
      exec (.intToCoords [v0, v1, v2, v3, v4, v5]) s =
        .next (primDone s ⟨some .ok, none, none,
          some [decScaled v0 10, decScaled v1 10, decScaled v2 10,
            decScaled v3 100, decScaled v4 100, decScaled v5 100], none⟩ 0))

/-- R106, R107, R42: `put16` delivers the high byte `u16(w) / 256` and the low byte `u16(w) mod 256`, `get16` joins two bytes high byte
first and reads them as signed, and each undoes the other. -/
def Obligations.FieldPackerIsBigEndianAndInvertible : Prop :=
  ∀ s : State, s.phase = .idle →
    (∀ w : I16, ∃ hi lo : Byte,
      exec (.put16 w) s = .next (primDone s ⟨some .ok, none, none, none, some [hi, lo]⟩ 0) ∧
      hi.toNat = w.toNat / 256 ∧ lo.toNat = w.toNat % 256 ∧
      exec (.get16 [hi, lo]) s = .next (primDone s ⟨some .ok, some w.toInt, none, none, none⟩ 0)) ∧
    (∀ hi lo : Byte, ∃ w : I16,
      exec (.get16 [hi, lo]) s =
        .next (primDone s ⟨some .ok, some (sext16Int (hi.toNat * 256 + lo.toNat)), none, none, none⟩ 0) ∧
      w.toInt = sext16Int (hi.toNat * 256 + lo.toNat) ∧
      exec (.put16 w) s = .next (primDone s ⟨some .ok, none, none, none, some [hi, lo]⟩ 0))

/-! ### The Frame Codec -/

/-- R130, R47, R60: `build_frame` delivers the two sentinels, the length byte `P + 2`, the opcode, the payload unchanged and the
trailing sentinel, for every payload of at most 253 bytes. (That it does so up to 253 bytes, where the source says 252, is the spec's
decision D15; log entry 28.) -/
def Obligations.BuildFrameWrapsThePayload : Prop :=
  ∀ (s : State) (opcode : Byte) (payload : List Byte), s.phase = .idle → payload.length ≤ 253 →
    ∃ frame : List Byte,
      exec (.buildFrame opcode payload) s = .next (primDone s ⟨some .ok, none, none, none, some frame⟩ 0) ∧
      frame.length = payload.length + 5 ∧
      frame[0]? = some s.cfg.sentinel ∧ frame[1]? = some s.cfg.sentinel ∧
      (frame[2]?.map BitVec.toNat) = some (payload.length + 2) ∧ frame[3]? = some opcode ∧
      (∀ k, k < payload.length → frame[4 + k]? = payload[k]?) ∧
      frame[4 + payload.length]? = some s.cfg.sentinel

/-- R131, R107, R229: what the operands of a command can be refused for: `build_frame` a payload of 254 bytes or more, `get16` any
length but 2, and the six operations with a vector operand any number of lanes but six. (The list of refusals is the spec's decision,
D15 and D21.) -/
def Obligations.OperandsOutsideTheAdmittedSetAreRefused : Prop :=
  ∀ s : State, s.phase = .idle →
    (∀ (opcode : Byte) (payload : List Byte), 254 ≤ payload.length →
      exec (.buildFrame opcode payload) s = .refused .payloadTooLong) ∧
    (∀ bytes : List Byte, bytes.length ≠ 2 → exec (.get16 bytes) s = .refused .badFieldLength) ∧
    (∀ v : List F64, v.length ≠ 6 →
      (∀ speed : Byte, exec (.sendAngles v speed) s = .refused .badVectorLength) ∧
      (∀ speed mode : Byte, exec (.sendCoords v speed mode) s = .refused .badVectorLength) ∧
      exec (.isInAnglePosition v) s = .refused .badVectorLength ∧
      exec (.isInCoordPosition v) s = .refused .badVectorLength ∧
      exec (.coordsToInt v) s = .refused .badVectorLength) ∧
    (∀ v : List I16, v.length ≠ 6 → exec (.intToCoords v) s = .refused .badVectorLength)

/-- R133 to R137: `parse_frame` delivers, with status OK for every input, the `length - 2` bytes after the opcode of the frame at the
FIRST sentinel pair, and the empty sequence when there is no pair, when the length or opcode byte or a payload byte is missing, when
the length byte is below 2, and when the opcode is not the expected one. (The length byte below 2 is the spec's decision D16; log
entry 12.) -/
def Obligations.ParseFrameReadsTheFirstSentinelPair : Prop :=
  ∀ (s : State) (raw : List Byte) (expected : Byte), s.phase = .idle →
    ∃ p : List Byte,
      exec (.parseFrame raw expected) s = .next (primDone s ⟨some .ok, none, none, none, some p⟩ 0) ∧
      ((∀ i, ¬ IsFirstPair s.cfg.sentinel raw i) → p = []) ∧
      ∀ i, IsFirstPair s.cfg.sentinel raw i →
        (raw.length ≤ i + 3 → p = []) ∧
        ∀ len opc : Byte, raw[i + 2]? = some len → raw[i + 3]? = some opc →
          if 2 ≤ len.toNat ∧ opc = expected ∧ i + 4 + (len.toNat - 2) ≤ raw.length then
            p.length = len.toNat - 2 ∧ ∀ k, k < len.toNat - 2 → p[k]? = raw[i + 4 + k]?
          else p = []

/-- R145: parsing a built frame with its own opcode gives back the payload, whatever bytes it holds, up to 253 of them. (The spec
marks R145 as its own derivation; up to 253 bytes is D15, log entry 28.) -/
def Obligations.ParsingABuiltFrameReturnsThePayload : Prop :=
  ∀ (cfg : Config) (opcode : Byte) (payload : List Byte), payload.length ≤ 253 →
    ∃ frame, buildFrame cfg opcode payload = some frame ∧ parseFrame cfg frame opcode = payload

/-- R146: parsing a built frame with any other opcode gives the empty sequence. -/
def Obligations.ParsingWithAnotherOpcodeReturnsNothing : Prop :=
  ∀ (cfg : Config) (a b : Byte) (payload frame : List Byte), buildFrame cfg a payload = some frame → a ≠ b →
    parseFrame cfg frame b = []

/-- R147: leading noise without two consecutive sentinels leaves the parse of a built frame unchanged, provided that it does not end
in a sentinel; without the proviso it is false, as the frame of opcode 0x12 shows. (The spec marks R147 as its own derivation,
conflict C1.) -/
def Obligations.LeadingNoiseIsSkipped : Prop :=
  (∀ (cfg : Config) (opcode expected : Byte) (payload frame noise : List Byte),
    buildFrame cfg opcode payload = some frame →
    (∀ i, ¬ IsFirstPair cfg.sentinel noise i) → noise.getLast? ≠ some cfg.sentinel →
    parseFrame cfg (noise ++ frame) expected = parseFrame cfg frame expected) ∧
  (∃ frame, buildFrame cfgDefault 0x12 [0x01] = some frame ∧
    parseFrame cfgDefault frame 0x12 = [0x01] ∧ parseFrame cfgDefault (0xFE :: frame) 0x12 = [])

/-- R134, R148: the scan does not resume: once a sentinel pair in leading noise is followed by an opcode byte that is not the expected
one, the result is empty, whatever follows, a good frame with the expected opcode included. -/
def Obligations.APairInNoiseHidesTheFrame : Prop :=
  ∀ (cfg : Config) (noise rest : List Byte) (opc expected : Byte) (i : Nat),
    IsFirstPair cfg.sentinel noise i → noise[i + 3]? = some opc → opc ≠ expected →
    parseFrame cfg (noise ++ rest) expected = []

/-- R138: the trailer and every byte after the payload are not read: with a frame present up to its last payload byte, any bytes may
follow. (The spec marks R138 as its own derivation, D37; log entry 14.) -/
def Obligations.BytesAfterThePayloadAreNotRead : Prop :=
  ∀ (cfg : Config) (raw tail tail' : List Byte) (expected : Byte) (i : Nat) (len : Byte),
    IsFirstPair cfg.sentinel raw i → raw[i + 2]? = some len → i + 4 + (len.toNat - 2) ≤ raw.length →
    parseFrame cfg (raw ++ tail) expected = parseFrame cfg (raw ++ tail') expected

/-- R140 to R143: `decode_payload` delivers, by the payload's length, nothing for 0 bytes, six signed 16-bit big-endian values for 12,
for 2 the second byte as a signed 8-bit value under `OP_IS_SERVO_ENABLED` and one signed 16-bit value under any other opcode, and the
first byte as a signed 8-bit value for every other length. (The first byte for the other lengths is the spec's decision D18, the empty
payload its derivation, C8; log entry 13.) -/
def Obligations.DecodePayloadDispatchesByLength : Prop :=
  ∀ (s : State) (payload : List Byte) (opcode : Byte), s.phase = .idle →
    ∃ ws : List I16,
      exec (.decodePayload payload opcode) s = .next (primDone s ⟨some .ok, none, some ws, none, none⟩ 0) ∧
      (if payload.length = 0 then ws = []
       else if payload.length = 12 then
         ws.length = 6 ∧ ∀ (k : Nat) (hi lo : Byte), k < 6 → payload[2 * k]? = some hi → payload[2 * k + 1]? = some lo →
           (ws[k]?.map BitVec.toInt) = some (sext16Int (hi.toNat * 256 + lo.toNat))
       else if payload.length = 2 then
         ∀ hi lo : Byte, payload[0]? = some hi → payload[1]? = some lo →
           ws.map BitVec.toInt =
             [if opcode = s.cfg.opIsServoEnabled then sext8Int lo.toNat else sext16Int (hi.toNat * 256 + lo.toNat)]
       else ∀ b : Byte, payload[0]? = some b → ws.map BitVec.toInt = [sext8Int b.toNat])

/-- R44, R45: a buffer access needs only its bounds: a 16-bit field stored at any index inside a buffer is read back, its high byte
stands at the lower index, and no other byte changes; an access past the end is undefined. -/
def Obligations.BufferFieldReadsBackWhatWasStored : Prop :=
  ∀ (buf : List Byte) (i v : Nat), v < 65536 →
    (i + 2 ≤ buf.length →
      ∃ buf', memWrite buf i 2 v = some buf' ∧ buf'.length = buf.length ∧ memRead buf' i 2 = some v ∧
        memRead buf' i 1 = some (v / 256) ∧ memRead buf' (i + 1) 1 = some (v % 256) ∧
        ∀ j, j < i ∨ i + 2 ≤ j → buf'[j]? = buf[j]?) ∧
    (buf.length < i + 2 → memWrite buf i 2 v = none ∧ memRead buf i 2 = none)

/-! ### The write-only operations -/

/-- R160, R161, R162, R169 to R172: the seven commands without operands each write one frame with an empty payload. -/
def Obligations.CommandsWithoutOperandsSendTheirFrame : Prop :=
  ∀ s : State, s.phase = .idle →
    exec .powerOn s = .next (wrote s [s.cfg.sentinel, s.cfg.sentinel, 2, s.cfg.opPowerOn, s.cfg.sentinel] 0) ∧
    exec .powerOff s = .next (wrote s [s.cfg.sentinel, s.cfg.sentinel, 2, s.cfg.opPowerOff, s.cfg.sentinel] 0) ∧
    exec .releaseAllServos s =
      .next (wrote s [s.cfg.sentinel, s.cfg.sentinel, 2, s.cfg.opReleaseAllServos, s.cfg.sentinel] 0) ∧
    exec .jogStop s = .next (wrote s [s.cfg.sentinel, s.cfg.sentinel, 2, s.cfg.opJogStop, s.cfg.sentinel] 0) ∧
    exec .pause s = .next (wrote s [s.cfg.sentinel, s.cfg.sentinel, 2, s.cfg.opPause, s.cfg.sentinel] 0) ∧
    exec .resume s = .next (wrote s [s.cfg.sentinel, s.cfg.sentinel, 2, s.cfg.opResume, s.cfg.sentinel] 0) ∧
    exec .stop s = .next (wrote s [s.cfg.sentinel, s.cfg.sentinel, 2, s.cfg.opStop, s.cfg.sentinel] 0)

/-- R163: `send_angle` writes the joint's ordinal, the angle scaled by 100 as two big-endian bytes, and the speed as given. (The
ordinals are the spec's decision D8; log entry 10.) (The draw index is the model's, log entry 1.) -/
def Obligations.SendAngleSendsItsFrame : Prop :=
  ∀ (s : State) (joint : Joint) (deg : F64) (speed : Byte), s.phase = .idle →
    ∃ id hi lo : Byte,
      exec (.sendAngle joint deg speed) s =
        .next (wrote s [s.cfg.sentinel, s.cfg.sentinel, 6, s.cfg.opSendAngle, id, hi, lo, speed, s.cfg.sentinel] 1) ∧
      id.toNat = (match joint with | .j1 => 1 | .j2 => 2 | .j3 => 3 | .j4 => 4 | .j5 => 5 | .j6 => 6) ∧
      hi.toNat * 256 + lo.toNat = (encScaled deg 100 s.draws).toNat

/-- R164: `send_angles` writes six angles, each scaled by 100, lane `k` at payload indices `2k` and `2k + 1`, and then the speed. (The
draw indexes are the model's, log entry 1.) -/
def Obligations.SendAnglesSendsItsFrame : Prop :=
  ∀ (s : State) (degs : List F64) (speed : Byte), s.phase = .idle → degs.length = 6 →
    ∃ body : List Byte,
      exec (.sendAngles degs speed) s =
        .next (wrote s ([s.cfg.sentinel, s.cfg.sentinel, 15, s.cfg.opSendAngles] ++ body ++ [speed, s.cfg.sentinel]) 6) ∧
      body.length = 12 ∧
      ∀ (k : Nat) (d : F64) (hi lo : Byte), degs[k]? = some d → body[2 * k]? = some hi → body[2 * k + 1]? = some lo →
        hi.toNat * 256 + lo.toNat = (encScaled d 100 (s.draws + k)).toNat

/-- R165: `send_coord` writes the axis ordinal minus one, the value scaled by 10 on every axis, and the speed. (The ordinals are the
spec's decision D9, the scale D27; log entries 10 and 17.) (The draw index is the model's, log entry 1.) -/
def Obligations.SendCoordSendsItsFrame : Prop :=
  ∀ (s : State) (axis : Axis) (val : F64) (speed : Byte), s.phase = .idle →
    ∃ id hi lo : Byte,
      exec (.sendCoord axis val speed) s =
        .next (wrote s [s.cfg.sentinel, s.cfg.sentinel, 6, s.cfg.opSendCoord, id, hi, lo, speed, s.cfg.sentinel] 1) ∧
      id.toNat = (match axis with | .x => 0 | .y => 1 | .z => 2 | .rx => 3 | .ry => 4 | .rz => 5) ∧
      hi.toNat * 256 + lo.toNat = (encScaled val 10 s.draws).toNat

/-- R166: `send_coords` writes a pose, lanes 0 to 2 scaled by 10 and lanes 3 to 5 by 100, then the speed and the mode as given. (The
draw indexes are the model's, log entry 1.) -/
def Obligations.SendCoordsSendsItsFrame : Prop :=
  ∀ (s : State) (vals : List F64) (speed mode : Byte), s.phase = .idle → vals.length = 6 →
    ∃ body : List Byte,
      exec (.sendCoords vals speed mode) s =
        .next (wrote s
          ([s.cfg.sentinel, s.cfg.sentinel, 16, s.cfg.opSendCoords] ++ body ++ [speed, mode, s.cfg.sentinel]) 6) ∧
      body.length = 12 ∧
      ∀ (k : Nat) (d : F64) (hi lo : Byte), vals[k]? = some d → body[2 * k]? = some hi → body[2 * k + 1]? = some lo →
        hi.toNat * 256 + lo.toNat = (encScaled d (if k < 3 then 10 else 100) (s.draws + k)).toNat

/-- R167, R168: the jog commands write the id byte, the configured direction byte and the speed; the id is the joint's ordinal, and
for an axis the ordinal less `JOG_COORD_ID_BIAS`. (The ordinals and the bias are the spec's decisions D8, D9, D26; log entries 10 and
18.) -/
def Obligations.JogCommandsSendTheirFrame : Prop :=
  ∀ (s : State) (dir : Dir) (speed : Byte), s.phase = .idle →
    (∀ joint : Joint, ∃ id : Byte,
      exec (.jogAngle joint dir speed) s =
        .next (wrote s [s.cfg.sentinel, s.cfg.sentinel, 5, s.cfg.opJogAngle, id,
          (match dir with | .decrease => s.cfg.dirDecrease | .increase => s.cfg.dirIncrease), speed, s.cfg.sentinel] 0) ∧
      id.toNat = (match joint with | .j1 => 1 | .j2 => 2 | .j3 => 3 | .j4 => 4 | .j5 => 5 | .j6 => 6)) ∧
    (∀ axis : Axis, ∃ id : Byte,
      exec (.jogCoord axis dir speed) s =
        .next (wrote s [s.cfg.sentinel, s.cfg.sentinel, 5, s.cfg.opJogCoord, id,
          (match dir with | .decrease => s.cfg.dirDecrease | .increase => s.cfg.dirIncrease), speed, s.cfg.sentinel] 0) ∧
      id.toNat + s.cfg.jogCoordIdBias.val = (match axis with | .x => 1 | .y => 2 | .z => 3 | .rx => 4 | .ry => 5 | .rz => 6))

/-- R173: `set_encoder` writes the joint's ordinal and the encoder value, big-endian and unscaled. (The ordinals are the spec's
decision D8; log entry 10.) -/
def Obligations.SetEncoderSendsItsFrame : Prop :=
  ∀ (s : State) (joint : Joint) (enc : I16), s.phase = .idle →
    ∃ id hi lo : Byte,
      exec (.setEncoder joint enc) s =
        .next (wrote s [s.cfg.sentinel, s.cfg.sentinel, 5, s.cfg.opSetEncoder, id, hi, lo, s.cfg.sentinel] 0) ∧
      id.toNat = (match joint with | .j1 => 1 | .j2 => 2 | .j3 => 3 | .j4 => 4 | .j5 => 5 | .j6 => 6) ∧
      hi.toNat * 256 + lo.toNat = enc.toNat

/-! ### The queries -/

/-- R191 to R194, R198 to R200: the seven queries without operands each write one frame with an empty payload and then await the reply
with their own opcode expected. (That the old result stays meanwhile is the model's, log entry 22.) -/
def Obligations.QueriesWithoutOperandsSendTheirFrame : Prop :=
  ∀ s : State, s.phase = .idle →
    exec .isPowerOn s =
      .next (asked s .isPowerOn s.cfg.opIsPowerOn [s.cfg.sentinel, s.cfg.sentinel, 2, s.cfg.opIsPowerOn, s.cfg.sentinel] 0) ∧
    exec .isControllerConnected s =
      .next (asked s .isControllerConnected s.cfg.opIsControllerConnected
        [s.cfg.sentinel, s.cfg.sentinel, 2, s.cfg.opIsControllerConnected, s.cfg.sentinel] 0) ∧
    exec .isMoving s =
      .next (asked s .isMoving s.cfg.opIsMoving [s.cfg.sentinel, s.cfg.sentinel, 2, s.cfg.opIsMoving, s.cfg.sentinel] 0) ∧
    exec .isPaused s =
      .next (asked s .isPaused s.cfg.opIsPaused [s.cfg.sentinel, s.cfg.sentinel, 2, s.cfg.opIsPaused, s.cfg.sentinel] 0) ∧
    exec .getAngles s =
      .next (asked s .getAngles s.cfg.opGetAngles [s.cfg.sentinel, s.cfg.sentinel, 2, s.cfg.opGetAngles, s.cfg.sentinel] 0) ∧
    exec .getCoords s =
      .next (asked s .getCoords s.cfg.opGetCoords [s.cfg.sentinel, s.cfg.sentinel, 2, s.cfg.opGetCoords, s.cfg.sentinel] 0) ∧
    exec .version s =
      .next (asked s .version s.cfg.opVersion [s.cfg.sentinel, s.cfg.sentinel, 2, s.cfg.opVersion, s.cfg.sentinel] 0)

/-- R195, R196: the position checks write six lanes (an angle vector with scale 100 throughout, a pose with 10 and 100) and the flag
byte that tells them apart, under one opcode. (The draw indexes and the old result meanwhile are the model's, log entries 1 and 22.) -/
def Obligations.PositionChecksSendTheirFrame : Prop :=
  ∀ (s : State) (v : List F64), s.phase = .idle → v.length = 6 →
    (∃ body : List Byte,
      exec (.isInAnglePosition v) s =
        .next (asked s .isInAnglePosition s.cfg.opIsInPosition
          ([s.cfg.sentinel, s.cfg.sentinel, 15, s.cfg.opIsInPosition] ++ body ++ [0x00, s.cfg.sentinel]) 6) ∧
      body.length = 12 ∧
      ∀ (k : Nat) (d : F64) (hi lo : Byte), v[k]? = some d → body[2 * k]? = some hi → body[2 * k + 1]? = some lo →
        hi.toNat * 256 + lo.toNat = (encScaled d 100 (s.draws + k)).toNat) ∧
    (∃ body : List Byte,
      exec (.isInCoordPosition v) s =
        .next (asked s .isInCoordPosition s.cfg.opIsInPosition
          ([s.cfg.sentinel, s.cfg.sentinel, 15, s.cfg.opIsInPosition] ++ body ++ [0x01, s.cfg.sentinel]) 6) ∧
      body.length = 12 ∧
      ∀ (k : Nat) (d : F64) (hi lo : Byte), v[k]? = some d → body[2 * k]? = some hi → body[2 * k + 1]? = some lo →
        hi.toNat * 256 + lo.toNat = (encScaled d (if k < 3 then 10 else 100) (s.draws + k)).toNat)

/-- R197, R201: the queries addressed to one joint write its ordinal. (The request payload of `is_servo_enabled` is the spec's own
decision, D25; log entry 9.) (The ordinals are the spec's decision D8, log entry 10; the old result meanwhile is the model's, log
entry 22.) -/
def Obligations.JointQueriesSendTheirFrame : Prop :=
  ∀ (s : State) (joint : Joint), s.phase = .idle →
    ∃ id : Byte,
      exec (.getEncoder joint) s =
        .next (asked s .getEncoder s.cfg.opGetEncoder
          [s.cfg.sentinel, s.cfg.sentinel, 3, s.cfg.opGetEncoder, id, s.cfg.sentinel] 0) ∧
      exec (.isServoEnabled joint) s =
        .next (asked s .isServoEnabled s.cfg.opIsServoEnabled
          [s.cfg.sentinel, s.cfg.sentinel, 3, s.cfg.opIsServoEnabled, id, s.cfg.sentinel] 0) ∧
      id.toNat = (match joint with | .j1 => 1 | .j2 => 2 | .j3 => 3 | .j4 => 4 | .j5 => 5 | .j6 => 6)

/-- R202: the reply to a scalar query delivers the first element of the decode with status OK, and -1 when the decode is empty. (That
a twelve-byte payload answers element 0 is the spec's decision D38; log entry 16.) -/
def Obligations.ScalarRepliesDeliverTheirFirstElement : Prop :=
  ∀ (s : State) (op : Op) (expected : Byte) (raw : List Byte),
    s.phase = .awaitReply → s.pend = some ⟨op, expected⟩ → op ∈ scalarOps → nextReadAns s = some (.bytes raw) →
    Admitted s.cfg raw →
    step s =
      .next (answered s
        ⟨some .ok,
          some (match decodePayload s.cfg (parseFrame s.cfg raw expected) expected with
            | [] => -1
            | w :: _ => w.toInt), none, none, none⟩ (.bytes raw))

/-- R198, R199, R203: the reply to a vector query delivers as many floating values as the decode has elements, lane `k` divided by 100
for `get_angles`, and by 10 (lanes 0 to 2) or 100 (lanes 3 to 5) for `get_coords`; none for an empty decode. (The scale of
`get_angles` and the decode that is not six values are the spec's decisions D22, D23; log entries 15 and 16.) -/
def Obligations.VectorRepliesScaleEachLane : Prop :=
  ∀ (s : State) (expected : Byte) (raw : List Byte),
    s.phase = .awaitReply → nextReadAns s = some (.bytes raw) → Admitted s.cfg raw →
    (s.pend = some ⟨.getAngles, expected⟩ →
      ∃ fs : List F64, step s = .next (answered s ⟨some .ok, none, none, some fs, none⟩ (.bytes raw)) ∧
        fs.length = (decodePayload s.cfg (parseFrame s.cfg raw expected) expected).length ∧
        ∀ (k : Nat) (w : I16), (decodePayload s.cfg (parseFrame s.cfg raw expected) expected)[k]? = some w →
          fs[k]? = some (decScaled w 100)) ∧
    (s.pend = some ⟨.getCoords, expected⟩ →
      ∃ fs : List F64, step s = .next (answered s ⟨some .ok, none, none, some fs, none⟩ (.bytes raw)) ∧
        fs.length = (decodePayload s.cfg (parseFrame s.cfg raw expected) expected).length ∧
        ∀ (k : Nat) (w : I16), (decodePayload s.cfg (parseFrame s.cfg raw expected) expected)[k]? = some w →
          fs[k]? = some (decScaled w (if k < 3 then 10 else 100)))

/-- R200: the reply to `version` delivers the bytes of the parsed payload, whatever their number; the length dispatch of
`decode_payload` plays no part. (That the reply's bytes are the payload's, left uninterpreted, is the spec's reading, C6, D24; log
entry 29.) -/
def Obligations.VersionRepliesDeliverThePayload : Prop :=
  ∀ (s : State) (expected : Byte) (raw : List Byte),
    s.phase = .awaitReply → s.pend = some ⟨.version, expected⟩ → nextReadAns s = some (.bytes raw) → Admitted s.cfg raw →
    step s = .next (answered s ⟨some .ok, none, none, none, some (parseFrame s.cfg raw expected)⟩ (.bytes raw))

/-- R222, R76: every anomaly of a reply is silent: whatever `parse_frame` cannot accept gives, with status OK, -1 for a scalar query,
the empty sequence for a vector query and the empty text for `version`. (That a length byte below 2 is such an anomaly is the spec's
decision D16; log entry 12.) -/
def Obligations.ReplyAnomaliesAreSilent : Prop :=
  ∀ (s : State) (op : Op) (expected : Byte) (raw : List Byte),
    s.phase = .awaitReply → s.pend = some ⟨op, expected⟩ → nextReadAns s = some (.bytes raw) → Admitted s.cfg raw →
    Anomaly s.cfg raw expected →
    (op ∈ scalarOps → step s = .next (answered s ⟨some .ok, some (-1), none, none, none⟩ (.bytes raw))) ∧
    (op = .getAngles ∨ op = .getCoords →
      step s = .next (answered s ⟨some .ok, none, none, some [], none⟩ (.bytes raw))) ∧
    (op = .version → step s = .next (answered s ⟨some .ok, none, none, none, some []⟩ (.bytes raw)))

/-- R141, R201: a reply to `is_servo_enabled` with a two-byte payload gives the second byte as a signed 8-bit value; the first byte does
not matter. -/
def Obligations.ServoEnabledRepliesReadTheSecondByte : Prop :=
  ∀ (s : State) (b state : Byte) (raw : List Byte),
    s.phase = .awaitReply → s.pend = some ⟨.isServoEnabled, s.cfg.opIsServoEnabled⟩ → nextReadAns s = some (.bytes raw) →
    Admitted s.cfg raw → buildFrame s.cfg s.cfg.opIsServoEnabled [b, state] = some raw →
    step s = .next (answered s ⟨some .ok, some (sext8Int state.toNat), none, none, none⟩ (.bytes raw))

/-- R260: -1 is overloaded: a scalar query answers -1 to the reply that carries the payload `[0xFF]`, to `[0xFF, 0xFF]`, and for
`is_servo_enabled` to `[b, 0xFF]` with any first byte, just as it does to no reply at all. (The spec marks R260 as its own
derivation.) -/
def Obligations.MinusOneIsOverloaded : Prop :=
  ∀ (s : State) (op : Op) (expected b : Byte) (raw : List Byte),
    s.phase = .awaitReply → s.pend = some ⟨op, expected⟩ → op ∈ scalarOps → nextReadAns s = some (.bytes raw) →
    Admitted s.cfg raw →
    raw = [] ∨ buildFrame s.cfg expected [0xFF] = some raw ∨ buildFrame s.cfg expected [0xFF, 0xFF] = some raw ∨
      (expected = s.cfg.opIsServoEnabled ∧ buildFrame s.cfg expected [b, 0xFF] = some raw) →
    step s = .next (answered s ⟨some .ok, some (-1), none, none, none⟩ (.bytes raw))

/-- R190, R33, R34: a query whose write the transport takes and whose read brings bytes completes in two steps, ISSUE-QUERY and REPLY:
exactly one frame is written and exactly one read is made, the expected opcode is the request's own (`fr[3]`), and the block is idle
again with the operation's result, status OK. (The two steps are the spec's D5.) (That the old result stays meanwhile is the model's,
log entry 22.) -/
def Obligations.QueriesCompleteInTwoSteps : Prop :=
  ∀ (s : State) (i : Instr) (opcode : Byte) (raw : List Byte),
    s.phase = .idle → i.wellFormed = true → queryOpcode s.cfg i.op = some opcode →
    nextWriteAns s = .ok → nextReadAns s = some (.bytes raw) → Admitted s.cfg raw →
    ∃ (t u : State) (frame : List Byte) (r : Res),
      exec i s = .next t ∧ t.phase = .awaitReply ∧ t.pend = some ⟨i.op, opcode⟩ ∧ frame[3]? = some opcode ∧
      t.tx = s.tx ++ [⟨.writeAndRead, frame, .ok⟩] ∧ t.rx = s.rx ∧ t.res = s.res ∧ t.hpc = s.hpc ∧
      step t = .next u ∧ replyResult s.cfg opcode raw i.op = some r ∧ r.status = some .ok ∧
      u.phase = .idle ∧ u.pend = none ∧ u.res = r ∧ u.tx = t.tx ∧ u.rx = s.rx ++ [.bytes raw] ∧ u.hpc = s.hpc + 1 ∧
      u.txAns = s.txAns.tail ∧ u.rxAns = s.rxAns.tail ∧ u.cfg = s.cfg

/-! ### Errors, holds and refusals -/

/-- R221, R225: a fault at the write ends every catalog operation with `TRANSPORT_ERROR` and the transport's own error value, no other
result field, no transaction in flight and no read. -/
def Obligations.WriteFaultsAbortTheOperation : Prop :=
  ∀ (s : State) (i : Instr) (info : ErrInfo),
    s.phase = .idle → i.wellFormed = true → isPrim i.op = false → nextWriteAns s = .fault info →
    ∃ t, exec i s = .next t ∧ t.res = ⟨some (.transportError info), none, none, none, none⟩ ∧
      t.phase = .idle ∧ t.pend = none ∧ t.rx = s.rx ∧ t.rxAns = s.rxAns ∧ t.hpc = s.hpc + 1 ∧ t.cfg = s.cfg ∧ t.prog = s.prog

/-- R34, R225: a fault at the read ends the query with `TRANSPORT_ERROR`; nothing of a partial reply is delivered. -/
def Obligations.ReadFaultsAbortTheQuery : Prop :=
  ∀ (s : State) (info : ErrInfo), s.phase = .awaitReply → nextReadAns s = some (.fault info) →
    step s = .next (answered s ⟨some (.transportError info), none, none, none, none⟩ (.fault info))

/-- R226: an error is not latched and does not disable the block: after a step that ended an operation with a `TransportError` the
block is idle, and the host's next operation, if well-formed, has its next state as after any other result. (The spec marks R226 as
its own derivation.) -/
def Obligations.ErrorsDoNotDisableTheBlock : Prop :=
  ∀ (s t : State) (info : ErrInfo), step s = .next t → t.hpc = s.hpc + 1 → t.res.status = some (.transportError info) →
    t.phase = .idle ∧ t.pend = none ∧ t.res = ⟨some (.transportError info), none, none, none, none⟩ ∧
    ∀ (c : Cmd) (i : Instr), t.prog[t.hpc]? = some c → decode t.cfg c = .ok i → i.wellFormed = true →
      ∃ u, step t = .next u

/-- R35, R255, R229: while a reply is awaited the host has no step, every operation is refused `Busy`, and only an answer of the
transport lifts the hold; until it comes there is no step at all (U14). (The spec marks R35 as its own derivation; log entry 20. That
an operation with ill-formed operands is refused `Busy` too is the model's order of refusals, log entry 27.) -/
def Obligations.AwaitingAReplyHoldsTheHost : Prop :=
  ∀ s : State, s.phase = .awaitReply →
    (∀ i : Instr, exec i s = .refused .busy) ∧
    (nextReadAns s = none → step s = .fault .noReply) ∧
    (∀ t, step s = .next t →
      ∃ a, nextReadAns s = some a ∧ t.phase = .idle ∧ t.rx = s.rx ++ [a] ∧ t.rxAns = s.rxAns.tail)

/-- R27, R229: an answer longer than `RAW_MAX` is refused, where the configuration bounds it. (The spec's decision D30; log entry 19.) -/
def Obligations.RepliesBeyondTheBoundAreRefused : Prop :=
  ∀ (s : State) (raw : List Byte) (bound : Nat),
    s.phase = .awaitReply → nextReadAns s = some (.bytes raw) → s.cfg.rawMax = some bound → bound < raw.length →
    step s = .refused .rawTooLong

/-- R90, R229: a command whose selector is not that of any of the 36 operations is refused `BadSelector`: among these every function
code 1011 to 1111, the empty selector, one of four bytes or more, and every two or three bytes that are no row of the request map. A
command of one of the eight operations with a scalar operand whose record lacks that operand's lane is refused `BadVectorLength`. (The
record's form, and that a missing lane is refused under this name, are the model's, log entry 5.) -/
def Obligations.UnknownSelectorsAreRefused : Prop :=
  ∀ (s : State) (c : Cmd), s.phase = .idle → s.prog[s.hpc]? = some c →
    ((∀ op : Op, c.op ≠ selectorBits s.cfg op) ∨ (∃ fn : Byte, 11 ≤ fn.toNat ∧ c.op = [fn]) ∨ c.op = [] ∨ 4 ≤ c.op.length →
      step s = .refused .badSelector) ∧
    (s.cfg.WellFormed →
      (∀ op : Op, c.op = selectorBits s.cfg op → op ∈ [Op.sendAngle, Op.sendCoord, Op.encodeAngle, Op.encodeCoord] → c.f = [] →
        step s = .refused .badVectorLength) ∧
      (∀ op : Op, c.op = selectorBits s.cfg op → op ∈ [Op.setEncoder, Op.decodeAngle, Op.decodeCoord, Op.put16] → c.w = [] →
        step s = .refused .badVectorLength))

/-! ### Commands and requests -/

/-- A STEP RUNS THE DECODED OPERATION: when the host's next command decodes to an operation, the step at that state is the operation's
execution at that state, with nothing around it. With no command to issue the block waits (the waiting step is the model's, log
entry 4). -/
def Obligations.StepRunsTheDecodedOperation : Prop :=
  ∀ s : State, s.phase = .idle →
    (∀ (c : Cmd) (i : Instr), s.prog[s.hpc]? = some c → decode s.cfg c = .ok i → step s = exec i s) ∧
    (s.prog[s.hpc]? = none → step s = .next s)

/-- An opcode-table word placed where the next step takes its command is the operation that step runs, in every state of the default
configuration. (The placing, and the record's form, are the model's, log entries 4 and 5.) -/
def Obligations.FetchedWordRunsNext : Prop :=
  ∀ (s : State) (nbits w : Nat) (i : Instr), s.cfg = cfgDefault → decodeTableWord nbits w = some i →
    step (s.withFetchWord nbits w) = exec i (s.withFetchWord nbits w)

/-- R24, R72, R90: decoding the command record that encodes an operation gives the operation back, with every operand at every value, for
every admitted configuration. (The record's form is the model's, log entry 5.) -/
def Obligations.DecodingAnEncodedCommandReturnsIt : Prop :=
  ∀ (cfg : Config) (i : Instr), cfg.WellFormed → decode cfg (encode cfg i) = .ok i

/-- R72, R90: words of the opcode table, written out from the spec's frames and function codes, decode under the default configuration
to the operations they stand for. (The opcode bytes are CFG_DEFAULT's, log entry 3; the operands, all zero, and the two zero bytes on
`CMD.bytes` are the model's, log entry 5.) -/
def Obligations.TableWordsDecodeToTheirOperations : Prop :=
  decodeTableWord 16 0x0210 = some .powerOn ∧ decodeTableWord 16 0x0212 = some .isPowerOn ∧
  decodeTableWord 16 0x0621 = some (.sendAngle .j1 ⟨false, 0, 0⟩ 0) ∧
  decodeTableWord 24 0x0F2A00 = some (.isInAnglePosition (List.replicate 6 ⟨false, 0, 0⟩)) ∧
  decodeTableWord 24 0x0F2A01 = some (.isInCoordPosition (List.replicate 6 ⟨false, 0, 0⟩)) ∧
  decodeTableWord 8 0x06 = some (.put16 0) ∧ decodeTableWord 8 0x09 = some (.parseFrame [0, 0] 0) ∧
  decodeTableWord 8 0x0B = none ∧ decodeTableWord 16 0x0F2A = none

/-- R72, R74, R61: the frame each well-formed catalog operation hands to the transport is a well-formed frame of the operation's fixed
length, and the decoder of requests, which knows only the opcode table, reads it as that operation. -/
def Obligations.EveryRequestDecodesToItsOperation : Prop :=
  ∀ (s : State) (i : Instr), s.cfg.WellFormed → s.phase = .idle → i.wellFormed = true → isPrim i.op = false →
    ∃ (t : State) (e : TxEntry), exec i s = .next t ∧ t.tx = s.tx ++ [e] ∧ e.answer = nextWriteAns s ∧
      decodeRequest s.cfg e.frame = .ok i.op ∧ e.frame.length = payloadLen i.op + 5 ∧
      e.call = (if (queryOpcode s.cfg i.op).isSome then .writeAndRead else .write)

/-! ### The whole machine -/

/-- R36, R251, R26: after reset the block is idle with nothing pending, nothing sent and nothing read, `RES` holds no value and each
read of one of its fields faults. In every state each reader answers the value its field holds and faults exactly where the field
holds none; after a step that ended an operation with `TRANSPORT_ERROR` the status is read and every other field faults. (Reset is the
spec's decision D29, log entry 25, and the readers' fault its D28; the configuration is the default one, log entry 3; the empty
program and the empty lists of coming answers are the model's, log entries 2 and 4.) -/
def Obligations.ResetLeavesTheBlockIdle : Prop :=
  (State.reset.phase = .idle ∧ State.reset.pend = none ∧ State.reset.tx = [] ∧ State.reset.rx = [] ∧
    State.reset.res = ⟨none, none, none, none, none⟩ ∧
    readStatus State.reset = .error .noValue ∧ readScalar State.reset = .error .noValue ∧
    readW State.reset = .error .noValue ∧ readF State.reset = .error .noValue ∧ readBytes State.reset = .error .noValue) ∧
  (∀ s : State,
    (∀ v, readStatus s = .ok v ↔ s.res.status = some v) ∧ (readStatus s = .error .noValue ↔ s.res.status = none) ∧
    (∀ v, readScalar s = .ok v ↔ s.res.scalar = some v) ∧ (readScalar s = .error .noValue ↔ s.res.scalar = none) ∧
    (∀ v, readW s = .ok v ↔ s.res.w = some v) ∧ (readW s = .error .noValue ↔ s.res.w = none) ∧
    (∀ v, readF s = .ok v ↔ s.res.f = some v) ∧ (readF s = .error .noValue ↔ s.res.f = none) ∧
    (∀ v, readBytes s = .ok v ↔ s.res.bytes = some v) ∧ (readBytes s = .error .noValue ↔ s.res.bytes = none)) ∧
  (∀ (s t : State) (info : ErrInfo),
    step s = .next t → t.hpc = s.hpc + 1 → t.res.status = some (.transportError info) →
    readStatus t = .ok (.transportError info) ∧ readScalar t = .error .noValue ∧ readW t = .error .noValue ∧
      readF t = .error .noValue ∧ readBytes t = .error .noValue)

/-- R36, R251, R8: the invariant holds at reset. (That reset is a state is the spec's decision D29, log entry 25; that its
configuration is one R8 admits rests on CFG_DEFAULT, log entry 3.) -/
def Obligations.ResetMeetsTheInvariant : Prop := State.reset.Inv

/-- R29, R26, R75, R46: every step keeps the invariant: a query is pending exactly while a reply is awaited, with the opcode its request
carried; `RES` has one of the shapes of R26; every frame ever handed to `TX` is a well-formed request of the catalog, sent by the
call its kind asks for; and every query whose write was taken is read exactly once. -/
def Obligations.EveryStepKeepsTheInvariant : Prop :=
  ∀ s t : State, s.Inv → step s = .next t → t.Inv

/-- R7, R23, R30, R50: no step writes the configuration or the host's program; what was sent and read stays, in order, and one step adds
at most one frame and at most one read, never both. -/
def Obligations.StepsOnlyAppendToThePorts : Prop :=
  ∀ s t : State, step s = .next t →
    t.cfg = s.cfg ∧ t.prog = s.prog ∧
    ((t.tx = s.tx ∧ t.txAns = s.txAns ∧ t.rx = s.rx ∧ t.rxAns = s.rxAns) ∨
     (∃ e, t.tx = s.tx ++ [e] ∧ e.answer = nextWriteAns s ∧ t.txAns = s.txAns.tail ∧ t.rx = s.rx ∧ t.rxAns = s.rxAns) ∨
     (∃ a, t.rx = s.rx ++ [a] ∧ t.rxAns = s.rxAns.tail ∧ nextReadAns s = some a ∧ t.tx = s.tx ∧ t.txAns = s.txAns))

/-- R230, R176, R204: every operation is available at all times: in `IDLE` every well-formed operation, on every operand and for every
answer of the transport, has a next state, idle with a result delivered, or awaiting a reply. (The spec marks R230 as its own
derivation.) (That the old result stays meanwhile is the model's, log entry 22.) -/
def Obligations.EveryWellFormedOperationCompletes : Prop :=
  ∀ (s : State) (i : Instr), s.phase = .idle → i.wellFormed = true →
    ∃ t, exec i s = .next t ∧
      ((t.phase = .idle ∧ t.res.status.isSome = true ∧ t.hpc = s.hpc + 1) ∨
       (t.phase = .awaitReply ∧ (queryOpcode s.cfg i.op).isSome = true ∧ t.res = s.res ∧ t.hpc = s.hpc))

/-- R31, R221: the frame of the primitives: only `RES`, the host's index and the draw counter change; the transport is not used, no
`TransportError` is raised and the phase stays `IDLE`. (The steps are the spec's D5; the draw counter is the model's, log entry 1.) -/
def Obligations.PrimitivesTouchOnlyTheResult : Prop :=
  ∀ (s t : State) (i : Instr), isPrim i.op = true → exec i s = .next t →
    t.res.status = some .ok ∧ t.phase = .idle ∧ s.phase = .idle ∧ t.pend = none ∧ t.hpc = s.hpc + 1 ∧
    t.cfg = s.cfg ∧ t.tx = s.tx ∧ t.rx = s.rx ∧ t.txAns = s.txAns ∧ t.rxAns = s.rxAns ∧ t.prog = s.prog

/-- R32, R175, R74: the frame of the fourteen write-only operations: nothing is read, the phase stays `IDLE`, `RES` holds a status and
no other field, and one write is made. (Which operations are write-only is the spec's decision D20; log entry 11.) -/
def Obligations.WriteOnlyOperationsReadNothing : Prop :=
  ∀ (s t : State) (i : Instr), isPrim i.op = false → queryOpcode s.cfg i.op = none → exec i s = .next t →
    t.phase = .idle ∧ t.pend = none ∧ t.rx = s.rx ∧ t.rxAns = s.rxAns ∧ t.cfg = s.cfg ∧ t.prog = s.prog ∧
    t.hpc = s.hpc + 1 ∧ t.res = resOfWrite (nextWriteAns s) ∧
    ∃ frame, t.tx = s.tx ++ [⟨.write, frame, nextWriteAns s⟩]

/-- R20, R30: no value computed by one operation is readable by a later one: what an operation does, at its issue and at the step
REPLY that ends a query, depends on the old `RES` in nothing. A step that delivers a result, and so advances the host's index,
overwrites `RES` whole; a step that delivers none (the write half of a query, a waiting step) leaves the old `RES` in place. (That the
old `RES` stays until the next result is the model's, log entry 22.) -/
def Obligations.NoOperationReadsAnEarlierResult : Prop :=
  ∀ (s : State) (r : Res),
    (∀ i : Instr,
      exec i { s with res := r } =
        (match exec i s with
         | .next t => .next (if t.phase = .awaitReply then { t with res := r } else t)
         | o => o)) ∧
    step { s with res := r } =
      (match step s with
       | .next t => .next (if t.hpc = s.hpc then { t with res := r } else t)
       | o => o)
end

