-- ==== Sys2Proof/Laws/State.lean ====
section
/-!
SUPPORT. What each update of the state leaves in each field, one lemma per field, true by `rfl`.
-/

namespace Sys2Proof.Machine

/-! ### deliver -/

@[simp] theorem deliver_cfg (r : Res) (s : State) : (deliver r s).cfg = s.cfg := rfl
@[simp] theorem deliver_phase (r : Res) (s : State) : (deliver r s).phase = .idle := rfl
@[simp] theorem deliver_pend (r : Res) (s : State) : (deliver r s).pend = none := rfl
@[simp] theorem deliver_res (r : Res) (s : State) : (deliver r s).res = r := rfl
@[simp] theorem deliver_tx (r : Res) (s : State) : (deliver r s).tx = s.tx := rfl
@[simp] theorem deliver_rx (r : Res) (s : State) : (deliver r s).rx = s.rx := rfl
@[simp] theorem deliver_prog (r : Res) (s : State) : (deliver r s).prog = s.prog := rfl
@[simp] theorem deliver_hpc (r : Res) (s : State) : (deliver r s).hpc = s.hpc + 1 := rfl
@[simp] theorem deliver_txAns (r : Res) (s : State) : (deliver r s).txAns = s.txAns := rfl
@[simp] theorem deliver_rxAns (r : Res) (s : State) : (deliver r s).rxAns = s.rxAns := rfl
@[simp] theorem deliver_draws (r : Res) (s : State) : (deliver r s).draws = s.draws := rfl

/-! ### abort -/

@[simp] theorem abort_cfg (info : ErrInfo) (s : State) : (abort info s).cfg = s.cfg := rfl
@[simp] theorem abort_phase (info : ErrInfo) (s : State) : (abort info s).phase = .idle := rfl
@[simp] theorem abort_pend (info : ErrInfo) (s : State) : (abort info s).pend = none := rfl
@[simp] theorem abort_res (info : ErrInfo) (s : State) : (abort info s).res = Res.failed info := rfl
@[simp] theorem abort_tx (info : ErrInfo) (s : State) : (abort info s).tx = s.tx := rfl
@[simp] theorem abort_rx (info : ErrInfo) (s : State) : (abort info s).rx = s.rx := rfl
@[simp] theorem abort_prog (info : ErrInfo) (s : State) : (abort info s).prog = s.prog := rfl
@[simp] theorem abort_hpc (info : ErrInfo) (s : State) : (abort info s).hpc = s.hpc + 1 := rfl
@[simp] theorem abort_txAns (info : ErrInfo) (s : State) : (abort info s).txAns = s.txAns := rfl
@[simp] theorem abort_rxAns (info : ErrInfo) (s : State) : (abort info s).rxAns = s.rxAns := rfl
@[simp] theorem abort_draws (info : ErrInfo) (s : State) : (abort info s).draws = s.draws := rfl

/-! ### transmit -/

@[simp] theorem transmit_cfg (c : Call) (fr : List Byte) (s : State) : (transmit c fr s).cfg = s.cfg := rfl
@[simp] theorem transmit_phase (c : Call) (fr : List Byte) (s : State) : (transmit c fr s).phase = s.phase := rfl
@[simp] theorem transmit_pend (c : Call) (fr : List Byte) (s : State) : (transmit c fr s).pend = s.pend := rfl
@[simp] theorem transmit_res (c : Call) (fr : List Byte) (s : State) : (transmit c fr s).res = s.res := rfl
@[simp] theorem transmit_tx (c : Call) (fr : List Byte) (s : State) :
    (transmit c fr s).tx = s.tx ++ [⟨c, fr, nextWriteAns s⟩] := rfl
@[simp] theorem transmit_rx (c : Call) (fr : List Byte) (s : State) : (transmit c fr s).rx = s.rx := rfl
@[simp] theorem transmit_prog (c : Call) (fr : List Byte) (s : State) : (transmit c fr s).prog = s.prog := rfl
@[simp] theorem transmit_hpc (c : Call) (fr : List Byte) (s : State) : (transmit c fr s).hpc = s.hpc := rfl
@[simp] theorem transmit_txAns (c : Call) (fr : List Byte) (s : State) : (transmit c fr s).txAns = s.txAns.tail := rfl
@[simp] theorem transmit_rxAns (c : Call) (fr : List Byte) (s : State) : (transmit c fr s).rxAns = s.rxAns := rfl
@[simp] theorem transmit_draws (c : Call) (fr : List Byte) (s : State) : (transmit c fr s).draws = s.draws := rfl

/-! ### receive -/

@[simp] theorem receive_cfg (a : ReadAns) (s : State) : (receive a s).cfg = s.cfg := rfl
@[simp] theorem receive_phase (a : ReadAns) (s : State) : (receive a s).phase = s.phase := rfl
@[simp] theorem receive_pend (a : ReadAns) (s : State) : (receive a s).pend = s.pend := rfl
@[simp] theorem receive_res (a : ReadAns) (s : State) : (receive a s).res = s.res := rfl
@[simp] theorem receive_tx (a : ReadAns) (s : State) : (receive a s).tx = s.tx := rfl
@[simp] theorem receive_rx (a : ReadAns) (s : State) : (receive a s).rx = s.rx ++ [a] := rfl
@[simp] theorem receive_prog (a : ReadAns) (s : State) : (receive a s).prog = s.prog := rfl
@[simp] theorem receive_hpc (a : ReadAns) (s : State) : (receive a s).hpc = s.hpc := rfl
@[simp] theorem receive_txAns (a : ReadAns) (s : State) : (receive a s).txAns = s.txAns := rfl
@[simp] theorem receive_rxAns (a : ReadAns) (s : State) : (receive a s).rxAns = s.rxAns.tail := rfl
@[simp] theorem receive_draws (a : ReadAns) (s : State) : (receive a s).draws = s.draws := rfl

/-! ### The transport's answer and the shapes of a result -/

@[simp] theorem nextWriteAns_draws (s : State) (n : Nat) : nextWriteAns { s with draws := n } = nextWriteAns s := rfl

@[simp] theorem nextWriteAns_res (s : State) (r : Res) : nextWriteAns { s with res := r } = nextWriteAns s := rfl
@[simp] theorem nextReadAns_res (s : State) (r : Res) : nextReadAns { s with res := r } = nextReadAns s := rfl
@[simp] theorem fetchCmd_res (s : State) (r : Res) : fetchCmd { s with res := r } = fetchCmd s := rfl

theorem nextWriteAns_of_cons {s : State} {a : WriteAns} {rest : List WriteAns} (h : s.txAns = a :: rest) :
    nextWriteAns s = a := by
  simp [nextWriteAns, h]

theorem nextReadAns_of_cons {s : State} {a : Option ReadAns} {rest : List (Option ReadAns)} (h : s.rxAns = a :: rest) :
    nextReadAns s = a := by
  simp [nextReadAns, h]

theorem resOfWrite_ok : resOfWrite .ok = Res.okOnly := rfl
theorem resOfWrite_fault (info : ErrInfo) : resOfWrite (.fault info) = Res.failed info := rfl

theorem resOk_empty : resOk Res.empty = true := rfl
theorem resOk_okOnly : resOk Res.okOnly = true := rfl
theorem resOk_failed (info : ErrInfo) : resOk (Res.failed info) = true := rfl
theorem resOk_okBytes (bs : List Byte) : resOk (Res.okBytes bs) = true := rfl

/-- A wire integer lies in the range R26 gives a scalar result. -/
theorem resOk_okScalar_toInt (w : I16) : resOk (Res.okScalar w.toInt) = true := by
  have h1 := BitVec.le_toInt w
  have h2 := BitVec.toInt_lt (x := w)
  have h3 : resOk (Res.okScalar w.toInt) = (decide (-32768 ≤ w.toInt) && decide (w.toInt ≤ 32767)) := rfl
  rw [h3]
  simp only [Bool.and_eq_true, decide_eq_true_eq]
  omega

end Sys2Proof.Machine
end

