-- ==== Sys2Proof/Laws/FrameCodec.lean ====
section
/-!
SUPPORT. What the Frame Codec's functions and the payload formats do, one lemma each, for the proofs to cite instead of unfolding.
-/

namespace Sys2Proof.Machine

/-! ### Wire fields -/

@[simp] theorem put16Bytes_length (w : I16) : (put16Bytes w).length = 2 := rfl

@[simp] theorem put16All_nil : put16All [] = [] := rfl

@[simp] theorem put16All_cons (w : I16) (ws : List I16) : put16All (w :: ws) = hiByte w :: loByte w :: put16All ws := rfl

@[simp] theorem put16All_length (ws : List I16) : (put16All ws).length = 2 * ws.length := by
  induction ws with
  | nil => rfl
  | cons w ws ih => simp [ih]; omega

theorem hiByte_toNat (w : I16) : (hiByte w).toNat = w.toNat / 256 := by
  have h := w.isLt
  simp only [hiByte, BitVec.extractLsb'_toNat, Nat.shiftRight_eq_div_pow]
  omega

theorem loByte_toNat (w : I16) : (loByte w).toNat = w.toNat % 256 := by
  simp [loByte, BitVec.extractLsb'_toNat]

theorem joinBytes_toNat (hi lo : Byte) : (joinBytes hi lo).toNat = hi.toNat * 256 + lo.toNat := by
  have h := lo.isLt
  simp only [joinBytes, BitVec.toNat_append, Nat.shiftLeft_eq]
  rw [← Nat.shiftLeft_eq, ← Nat.shiftLeft_add_eq_or_of_lt h, Nat.shiftLeft_eq]

theorem joinBytes_hiByte_loByte (w : I16) : joinBytes (hiByte w) (loByte w) = w := by
  apply BitVec.eq_of_toNat_eq
  rw [joinBytes_toNat, hiByte_toNat, loByte_toNat]
  omega

theorem hiByte_joinBytes (hi lo : Byte) : hiByte (joinBytes hi lo) = hi := by
  apply BitVec.eq_of_toNat_eq
  rw [hiByte_toNat, joinBytes_toNat]
  have := lo.isLt
  omega

theorem loByte_joinBytes (hi lo : Byte) : loByte (joinBytes hi lo) = lo := by
  apply BitVec.eq_of_toNat_eq
  rw [loByte_toNat, joinBytes_toNat]
  have := lo.isLt
  omega

/-- The signed value of a wire integer is the sign extension of its unsigned one (R11). -/
theorem toInt_eq_sext16Int (w : I16) : w.toInt = sext16Int w.toNat := by
  have := w.isLt
  simp only [BitVec.toInt, sext16Int]
  split <;> split <;> omega

/-- `sext_8` keeps the signed value of a byte (R11). -/
theorem sext8_toInt (b : Byte) : (sext8 b).toInt = sext8Int b.toNat := by
  have h := b.isLt
  have h2 : (sext8 b).toInt = b.toInt := BitVec.toInt_signExtend_of_le (by decide)
  rw [h2]
  simp only [BitVec.toInt, sext8Int]
  split <;> split <;> omega

@[simp] theorem encLanes_length (scale : Nat → Nat) (n k : Nat) (v : List F64) :
    (encLanes scale n k v).length = v.length := by
  induction v generalizing k with
  | nil => rfl
  | cons d ds ih => simp [encLanes, ih]

@[simp] theorem decLanes_length (scale : Nat → Nat) (k : Nat) (v : List I16) : (decLanes scale k v).length = v.length := by
  induction v generalizing k with
  | nil => rfl
  | cons d ds ih => simp [decLanes, ih]

theorem encLanes_getElem? (scale : Nat → Nat) (n k j : Nat) (v : List F64) :
    (encLanes scale n k v)[j]? = v[j]?.map (fun d => encScaled d (scale (k + j)) (n + (k + j))) := by
  induction v generalizing k j with
  | nil => simp [encLanes]
  | cons d ds ih =>
    cases j with
    | zero => simp [encLanes]
    | succ j => simp [encLanes, ih, Nat.add_assoc, Nat.add_comm 1 j]

theorem decLanes_getElem? (scale : Nat → Nat) (k j : Nat) (v : List I16) :
    (decLanes scale k v)[j]? = v[j]?.map (fun w => decScaled w (scale (k + j))) := by
  induction v generalizing k j with
  | nil => simp [decLanes]
  | cons d ds ih =>
    cases j with
    | zero => simp [decLanes]
    | succ j => simp [decLanes, ih, Nat.add_assoc, Nat.add_comm 1 j]

/-- Element `k` of a wire vector stands at payload indices `2k` and `2k + 1`, high byte first (R62, R119). -/
theorem put16All_getElem? (ws : List I16) (k : Nat) :
    (put16All ws)[2 * k]? = ws[k]?.map hiByte ∧ (put16All ws)[2 * k + 1]? = ws[k]?.map loByte := by
  induction ws generalizing k with
  | nil => simp
  | cons w ws ih =>
    cases k with
    | zero => simp
    | succ k =>
      have h1 : 2 * (k + 1) = 2 * k + 1 + 1 := by omega
      simp [h1, ih k]

theorem pairs_getElem? (l : List Byte) (k : Nat) (hi lo : Byte) (h1 : l[2 * k]? = some hi) (h2 : l[2 * k + 1]? = some lo) :
    (pairs l)[k]? = some (joinBytes hi lo) := by
  induction l using pairs.induct generalizing k with
  | case1 a b rest ih =>
    cases k with
    | zero => simp_all [pairs]
    | succ k =>
      have h3 : 2 * (k + 1) = 2 * k + 1 + 1 := by omega
      rw [h3] at h1 h2
      simp only [pairs, List.getElem?_cons_succ] at h1 h2 ⊢
      exact ih k h1 h2
  | case2 l hl =>
    match l, hl with
    | [], _ => simp at h1
    | [a], _ => cases k <;> simp at h2
    | a :: b :: rest, hl => exact absurd rfl (hl a b rest)

theorem pairs_length (l : List Byte) : (pairs l).length = l.length / 2 := by
  induction l using pairs.induct with
  | case1 a b rest ih => simp only [pairs, List.length_cons, ih]; omega
  | case2 l hl =>
    match l, hl with
    | [], _ => rfl
    | [a], _ => simp [pairs]
    | a :: b :: rest, hl => exact absurd rfl (hl a b rest)

/-! ### build_frame -/

theorem buildFrame_of_le {cfg : Config} {opcode : Byte} {payload : List Byte} (h : payload.length ≤ 253) :
    buildFrame cfg opcode payload =
      some ([cfg.sentinel, cfg.sentinel, BitVec.ofNat 8 (payload.length + 2), opcode] ++ payload ++ [cfg.sentinel]) := by
  simp only [buildFrame, payloadMax]
  rw [if_neg (by omega)]

theorem buildFrame_of_gt {cfg : Config} {opcode : Byte} {payload : List Byte} (h : 254 ≤ payload.length) :
    buildFrame cfg opcode payload = none := by
  simp only [buildFrame, payloadMax]
  rw [if_pos (by omega)]

/-- A built frame has at most 253 payload bytes and the form of R60. -/
theorem buildFrame_some {cfg : Config} {opcode : Byte} {payload frame : List Byte}
    (h : buildFrame cfg opcode payload = some frame) :
    payload.length ≤ 253 ∧
      frame = [cfg.sentinel, cfg.sentinel, BitVec.ofNat 8 (payload.length + 2), opcode] ++ payload ++ [cfg.sentinel] := by
  by_cases hp : payload.length ≤ 253
  · rw [buildFrame_of_le hp] at h
    exact ⟨hp, (Option.some.inj h).symm⟩
  · rw [buildFrame_of_gt (by omega)] at h
    cases h

/-! ### The scan -/

/-- The scan's answer is the first sentinel pair (R134). -/
theorem firstPair_eq_some {s : Byte} {raw : List Byte} {i : Nat} : firstPair s raw = some i ↔ IsFirstPair s raw i := by
  induction raw using firstPair.induct s generalizing i with
  | case1 a b rest h =>
    simp only [firstPair, h, and_self, if_true, Option.some.injEq, IsFirstPair]
    constructor
    · rintro rfl
      simp
    · rintro ⟨-, hmin⟩
      by_contra hne
      exact hmin 0 (by omega) (by simp)
  | case2 a b rest h ih =>
    simp only [firstPair, if_neg h, Option.map_eq_some_iff]
    constructor
    · rintro ⟨j, hj, rfl⟩
      obtain ⟨hp, hmin⟩ := ih.mp hj
      refine ⟨by simpa using hp, fun k hk => ?_⟩
      cases k with
      | zero => simpa using h
      | succ k => simpa using hmin k (by omega)
    · rintro ⟨hp, hmin⟩
      cases i with
      | zero => exact absurd (by simpa using hp) h
      | succ j =>
        refine ⟨j, ih.mpr ⟨by simpa using hp, fun k hk => ?_⟩, rfl⟩
        simpa using hmin (k + 1) (by omega)
  | case3 raw h =>
    match raw, h with
    | [], _ => simp [firstPair, IsFirstPair]
    | [a], _ => simp [firstPair, IsFirstPair]
    | a :: b :: rest, h => exact absurd rfl (h a b rest)

theorem firstPair_eq_none {s : Byte} {raw : List Byte} : firstPair s raw = none ↔ ∀ i, ¬ IsFirstPair s raw i := by
  constructor
  · intro h i hi
    rw [firstPair_eq_some.mpr hi] at h
    cases h
  · intro h
    cases hf : firstPair s raw with
    | none => rfl
    | some i => exact absurd (firstPair_eq_some.mp hf) (h i)

/-! ### Buffer reads -/

/-- A one-byte read is the byte at the index, and undefined past the end (R13). -/
theorem memRead_one (buf : List Byte) (i : Nat) : memRead buf i 1 = buf[i]?.map BitVec.toNat := by
  by_cases h : i < buf.length
  · have h2 : i + 1 ≤ buf.length := h
    simp only [memRead, if_pos h2, List.getElem?_eq_getElem h, Option.map_some, List.drop_eq_getElem_cons h,
      List.take_succ_cons, List.take_zero, bigEndian, List.foldl_cons, List.foldl_nil, Nat.zero_mul, Nat.zero_add]
  · have h2 : ¬ i + 1 ≤ buf.length := h
    simp only [memRead, if_neg h2]
    rw [List.getElem?_eq_none (by omega)]
    rfl

theorem slice_length (s : List Byte) (a b : Nat) (h : b ≤ s.length) : (slice s a b).length = b - a := by
  simp [slice]; omega

theorem slice_getElem? (s : List Byte) (a b k : Nat) (h : k < b - a) : (slice s a b)[k]? = s[a + k]? := by
  simp [slice, h]

/-! ### parse_frame -/

theorem parseFrame_of_no_pair {cfg : Config} {raw : List Byte} {exp : Byte} (h : ∀ i, ¬ IsFirstPair cfg.sentinel raw i) :
    parseFrame cfg raw exp = [] := by
  simp [parseFrame, firstPair_eq_none.mpr h]

/-- What `parse_frame` gives at the first pair when the length or opcode byte is missing (R135). -/
theorem parseFrame_of_short {cfg : Config} {raw : List Byte} {exp : Byte} {i : Nat} (h : IsFirstPair cfg.sentinel raw i)
    (hs : raw.length ≤ i + 3) : parseFrame cfg raw exp = [] := by
  simp only [parseFrame, firstPair_eq_some.mpr h, memRead_one]
  rw [List.getElem?_eq_none (i := i + 3) (by omega)]
  cases raw[i + 2]? <;> rfl

/-- What `parse_frame` gives at the first pair when the length and opcode bytes are there (R133). -/
theorem parseFrame_of_pair {cfg : Config} {raw : List Byte} {exp len opc : Byte} {i : Nat}
    (h : IsFirstPair cfg.sentinel raw i) (hl : raw[i + 2]? = some len) (ho : raw[i + 3]? = some opc) :
    parseFrame cfg raw exp =
      if 2 ≤ len.toNat ∧ opc = exp ∧ i + 4 + (len.toNat - 2) ≤ raw.length then
        slice raw (i + 4) (i + 4 + (len.toNat - 2))
      else [] := by
  simp only [parseFrame, firstPair_eq_some.mpr h, memRead_one, hl, ho, Option.map_some]
  by_cases h1 : len.toNat < 2
  · rw [if_pos h1, if_neg (by omega)]
  · rw [if_neg h1]
    by_cases h2 : opc = exp
    · subst h2
      rw [if_neg (by simp)]
      by_cases h3 : raw.length < i + 4 + (len.toNat - 2)
      · rw [if_pos h3, if_neg (by omega)]
      · rw [if_neg h3, if_pos ⟨by omega, rfl, by omega⟩]
    · rw [if_pos (fun hc => h2 (BitVec.eq_of_toNat_eq hc)), if_neg (by tauto)]

/-! ### decode_payload -/

@[simp] theorem decodePayload_nil (cfg : Config) (opc : Byte) : decodePayload cfg [] opc = [] := rfl

/-- A decode has 0, 1 or 6 elements (R26, R140). -/
theorem decodePayload_length (cfg : Config) (p : List Byte) (opc : Byte) :
    (decodePayload cfg p opc).length = 0 ∨ (decodePayload cfg p opc).length = 1 ∨ (decodePayload cfg p opc).length = 6 := by
  unfold decodePayload
  split
  · simp
  · split <;> simp
  · split
    · rename_i h
      rw [pairs_length, h]
      simp
    · simp

/-! ### Fields of a payload, and frames the codec built itself -/

/-- The two bytes of a wire integer, weighed by their place (R42, R106). -/
theorem hiByte_loByte_toNat (w : I16) : (hiByte w).toNat * 256 + (loByte w).toNat = w.toNat := by
  rw [hiByte_toNat, loByte_toNat]
  omega

/-- Lane `k` of an encoded vector stands at payload indices `2k` and `2k + 1`, high byte first (R62, R119). -/
theorem encLanes_bytes (scale : Nat → Nat) (n : Nat) {v : List F64} (hv : v.length = 6) :
    (put16All (encLanes scale n 0 v)).length = 12 ∧
    ∀ (k : Nat) (d : F64) (hi lo : Byte), v[k]? = some d → (put16All (encLanes scale n 0 v))[2 * k]? = some hi →
      (put16All (encLanes scale n 0 v))[2 * k + 1]? = some lo →
      hi.toNat * 256 + lo.toNat = (encScaled d (scale k) (n + k)).toNat := by
  refine ⟨by simp [hv], fun k d hi lo h1 h2 h3 => ?_⟩
  rw [(put16All_getElem? _ _).1, encLanes_getElem?, h1] at h2
  rw [(put16All_getElem? _ _).2, encLanes_getElem?, h1] at h3
  simp at h2 h3
  rw [← h2, ← h3, hiByte_loByte_toNat]

/-- The first sentinel pair of a built frame, with or without bytes after it, is its own header. -/
theorem isFirstPair_frame {cfg : Config} {opcode : Byte} {payload frame : List Byte}
    (h : buildFrame cfg opcode payload = some frame) (tail : List Byte) : IsFirstPair cfg.sentinel (frame ++ tail) 0 := by
  obtain ⟨-, rfl⟩ := buildFrame_some h
  exact ⟨⟨rfl, rfl⟩, fun j hj => by omega⟩

/-- Every anomaly of R222 that `parse_frame` detects gives the empty sequence. -/
theorem parseFrame_of_anomaly {cfg : Config} {raw : List Byte} {exp : Byte} (h : Anomaly cfg raw exp) :
    parseFrame cfg raw exp = [] := by
  rcases h with h | ⟨i, hi, h⟩
  · exact parseFrame_of_no_pair h
  · by_cases hs : raw.length ≤ i + 3
    · exact parseFrame_of_short hi hs
    · rw [parseFrame_of_pair hi (List.getElem?_eq_getElem (by omega)) (List.getElem?_eq_getElem (by omega)), if_neg]
      rintro ⟨a, b, c⟩
      rcases h with h | ⟨len, hl, h⟩ | ⟨opc, ho, h⟩
      · exact hs h
      · rw [List.getElem?_eq_getElem (by omega)] at hl
        cases hl
        omega
      · rw [List.getElem?_eq_getElem (by omega)] at ho
        cases ho
        exact h b

/-- A frame laid out by R60 is well-formed (R61). -/
theorem frameWellFormed_frame (cfg : Config) (opcode : Byte) {payload : List Byte} (h : payload.length ≤ 253) :
    frameWellFormed cfg
      ([cfg.sentinel, cfg.sentinel, BitVec.ofNat 8 (payload.length + 2), opcode] ++ payload ++ [cfg.sentinel]) = true := by
  have hl : (BitVec.ofNat 8 (payload.length + 2)).toNat = payload.length + 2 := by
    simp
    omega
  simp only [List.cons_append, List.nil_append, frameWellFormed, hl]
  simp

end Sys2Proof.Machine
end

