-- ==== Sys2Proof/Laws/Ops.lean ====
section
/-!
SUPPORT. What the shared operations and the dispatch can do, said once: the admission guards, the issuing steps, REPLY, `exec` and `step`.
-/

namespace Sys2Proof.Machine

/-! ### Admission -/

theorem whenIdle_idle {s : State} (h : s.phase = .idle) (k : Out) : whenIdle s k = k := by
  simp [whenIdle, h]

theorem whenIdle_awaitReply {s : State} (h : s.phase = .awaitReply) (k : Out) : whenIdle s k = .refused .busy := by
  simp [whenIdle, h]

/-- An admitted operation that has a next state was issued in `IDLE`. -/
theorem whenIdle_next {s t : State} {k : Out} (h : whenIdle s k = .next t) : s.phase = .idle ∧ k = .next t := by
  cases hp : s.phase with
  | idle => exact ⟨rfl, by simpa [whenIdle, hp] using h⟩
  | awaitReply => simp [whenIdle, hp] at h

theorem withSix_six {α : Type} {v : List α} (h : v.length = 6) (k : Out) : withSix v k = k := by
  simp [withSix, h]

theorem withSix_not_six {α : Type} {v : List α} (h : v.length ≠ 6) (k : Out) : withSix v k = .refused .badVectorLength := by
  simp [withSix, h]

theorem withSix_next {α : Type} {v : List α} {k : Out} {t : State} (h : withSix v k = .next t) :
    v.length = 6 ∧ k = .next t := by
  by_cases hv : v.length = 6
  · exact ⟨hv, by rwa [withSix_six hv] at h⟩
  · rw [withSix_not_six hv] at h
    cases h

/-! ### The issuing steps -/

/-- A payload the catalog can lay out is always sent: `issueWrite` hands over one frame and delivers the status (R32, R175). -/
theorem issueWrite_of_le {opcode : Byte} {payload : List Byte} {n : Nat} {s : State} (hp : payload.length ≤ 253)
    (hs : s.phase = .idle) :
    issueWrite opcode payload n s =
      .next (wrote s ([s.cfg.sentinel, s.cfg.sentinel, BitVec.ofNat 8 (payload.length + 2), opcode] ++ payload ++
        [s.cfg.sentinel]) n) := by
  simp only [issueWrite, buildFrame_of_le hp, wrote]
  cases h : nextWriteAns s <;>
    simp [finishWrite, deliver, abort, transmit, Res.okOnly, Res.failed, Res.empty, resOfWrite, hs] <;>
    simpa [nextWriteAns] using h

/-- The write half of a query: one frame handed over, and the reply awaited or the operation aborted (R33, R190). -/
theorem issueQuery_of_le {op : Op} {opcode : Byte} {payload : List Byte} {n : Nat} {s : State} (hp : payload.length ≤ 253)
    (hs : s.phase = .idle) :
    issueQuery op opcode payload n s =
      .next (asked s op opcode ([s.cfg.sentinel, s.cfg.sentinel, BitVec.ofNat 8 (payload.length + 2), opcode] ++ payload ++
        [s.cfg.sentinel]) n) := by
  simp only [issueQuery, buildFrame_of_le hp, asked]
  cases h : nextWriteAns s <;>
    simp [finishRequest, deliver, abort, transmit, Res.failed, Res.empty, hs] <;>
    simpa [nextWriteAns] using h

theorem issuePrim_idle {r : Res} {n : Nat} {s : State} (hs : s.phase = .idle) :
    issuePrim r n s = .next (primDone s r n) := by
  simp [issuePrim, primDone, deliver, hs]

/-! ### The payload formats -/

@[simp] theorem fmtEmpty_length : fmtEmpty.length = 0 := rfl
@[simp] theorem fmtJ_length (j : Joint) : (fmtJ j).length = 1 := rfl
@[simp] theorem fmtIDS_length (a b c : Byte) : (fmtIDS a b c).length = 3 := rfl
@[simp] theorem fmtJE_length (j : Joint) (w : I16) : (fmtJE j w).length = 3 := rfl
@[simp] theorem fmtJAS_length (j : Joint) (w : I16) (b : Byte) : (fmtJAS j w b).length = 4 := rfl
@[simp] theorem fmtXCS_length (a : Axis) (w : I16) (b : Byte) : (fmtXCS a w b).length = 4 := rfl
@[simp] theorem fmtA6S_length (ws : List I16) (b : Byte) : (fmtA6S ws b).length = 2 * ws.length + 1 := by simp [fmtA6S]
@[simp] theorem fmtA6F_length (ws : List I16) : (fmtA6F ws).length = 2 * ws.length + 1 := by simp [fmtA6F]
@[simp] theorem fmtP6F_length (ws : List I16) : (fmtP6F ws).length = 2 * ws.length + 1 := by simp [fmtP6F]
@[simp] theorem fmtP6SM_length (ws : List I16) (b c : Byte) : (fmtP6SM ws b c).length = 2 * ws.length + 2 := by
  simp [fmtP6SM]

/-- The flag byte of the two position checks stands at payload index 12 (R62, R69). -/
theorem fmtA6F_flag {ws : List I16} (h : ws.length = 6) : (fmtA6F ws)[12]? = some 0x00 := by
  rw [fmtA6F, List.getElem?_append_right (by simp [h])]
  simp [h]

theorem fmtP6F_flag {ws : List I16} (h : ws.length = 6) : (fmtP6F ws)[12]? = some 0x01 := by
  rw [fmtP6F, List.getElem?_append_right (by simp [h])]
  simp [h]

/-! ### exec -/

/-- What a catalog operation asks of the frame codec: its configured opcode, a payload of its fixed length and, for the shared opcode,
its flag byte. -/
structure IsRequest (cfg : Config) (op : Op) (opcode : Byte) (payload : List Byte) : Prop where
  opcode_eq : (genreOf op).map (opcodeOf cfg) = some opcode
  length_eq : payload.length = payloadLen op
  flag_eq : ∀ b, flagOf op = some b → payload[12]? = some b

theorem IsRequest.length_le {cfg : Config} {op : Op} {opcode : Byte} {payload : List Byte}
    (h : IsRequest cfg op opcode payload) : payload.length ≤ 253 := by
  rw [h.length_eq]
  cases op <;> decide

/-- While a reply is awaited every operation is refused `Busy` (R255). -/
theorem exec_awaitReply (i : Instr) {s : State} (h : s.phase = .awaitReply) : exec i s = .refused .busy := by
  cases i <;> exact whenIdle_awaitReply h _

/-- An operation that has a next state was issued in `IDLE` and is well-formed. -/
theorem exec_next_idle {i : Instr} {s t : State} (h : exec i s = .next t) : s.phase = .idle ∧ i.wellFormed = true := by
  cases hp : s.phase with
  | awaitReply =>
    rw [exec_awaitReply i hp] at h
    cases h
  | idle =>
    refine ⟨rfl, ?_⟩
    cases i <;> try rfl
    case get16 bytes =>
      match bytes with
      | [] => simp [exec, execGet16, whenIdle, hp] at h
      | [_] => simp [exec, execGet16, whenIdle, hp] at h
      | [_, _] => rfl
      | _ :: _ :: _ :: _ => simp [exec, execGet16, whenIdle, hp] at h
    case buildFrame opcode payload =>
      by_cases hl : payload.length ≤ 253
      · simpa [Instr.wellFormed] using hl
      · simp [exec, execBuildFrame, whenIdle, hp, buildFrame_of_gt (by omega : 254 ≤ payload.length)] at h
    all_goals
      have h2 := withSix_next (whenIdle_next h).2
      simpa [Instr.wellFormed] using h2.1

/-- What a well-formed operation does in `IDLE`: exactly one of the steps ISSUE-PRIM, ISSUE-WRITE, ISSUE-QUERY, by its kind. -/
theorem exec_cases {i : Instr} {s : State} (hs : s.phase = .idle) (hw : i.wellFormed = true) :
    (isPrim i.op = true ∧ queryOpcode s.cfg i.op = none ∧
      ∃ r n, resOk r = true ∧ r.status = some .ok ∧ exec i s = issuePrim r n s) ∨
    (isPrim i.op = false ∧ queryOpcode s.cfg i.op = none ∧
      ∃ opcode payload n, IsRequest s.cfg i.op opcode payload ∧ exec i s = issueWrite opcode payload n s) ∨
    (isPrim i.op = false ∧
      ∃ opcode payload n, queryOpcode s.cfg i.op = some opcode ∧ IsRequest s.cfg i.op opcode payload ∧
        exec i s = issueQuery i.op opcode payload n s) := by
  cases i with
  | powerOn => exact .inr (.inl ⟨rfl, rfl, _, _, _, ⟨rfl, rfl, by simp [flagOf, Instr.op]⟩, whenIdle_idle hs _⟩)
  | powerOff => exact .inr (.inl ⟨rfl, rfl, _, _, _, ⟨rfl, rfl, by simp [flagOf, Instr.op]⟩, whenIdle_idle hs _⟩)
  | releaseAllServos => exact .inr (.inl ⟨rfl, rfl, _, _, _, ⟨rfl, rfl, by simp [flagOf, Instr.op]⟩, whenIdle_idle hs _⟩)
  | jogStop => exact .inr (.inl ⟨rfl, rfl, _, _, _, ⟨rfl, rfl, by simp [flagOf, Instr.op]⟩, whenIdle_idle hs _⟩)
  | pause => exact .inr (.inl ⟨rfl, rfl, _, _, _, ⟨rfl, rfl, by simp [flagOf, Instr.op]⟩, whenIdle_idle hs _⟩)
  | resume => exact .inr (.inl ⟨rfl, rfl, _, _, _, ⟨rfl, rfl, by simp [flagOf, Instr.op]⟩, whenIdle_idle hs _⟩)
  | stop => exact .inr (.inl ⟨rfl, rfl, _, _, _, ⟨rfl, rfl, by simp [flagOf, Instr.op]⟩, whenIdle_idle hs _⟩)
  | sendAngle j d sp => exact .inr (.inl ⟨rfl, rfl, _, _, _, ⟨rfl, rfl, by simp [flagOf, Instr.op]⟩, whenIdle_idle hs _⟩)
  | sendCoord a v sp => exact .inr (.inl ⟨rfl, rfl, _, _, _, ⟨rfl, rfl, by simp [flagOf, Instr.op]⟩, whenIdle_idle hs _⟩)
  | jogAngle j d sp => exact .inr (.inl ⟨rfl, rfl, _, _, _, ⟨rfl, rfl, by simp [flagOf, Instr.op]⟩, whenIdle_idle hs _⟩)
  | jogCoord a d sp => exact .inr (.inl ⟨rfl, rfl, _, _, _, ⟨rfl, rfl, by simp [flagOf, Instr.op]⟩, whenIdle_idle hs _⟩)
  | setEncoder j w => exact .inr (.inl ⟨rfl, rfl, _, _, _, ⟨rfl, rfl, by simp [flagOf, Instr.op]⟩, whenIdle_idle hs _⟩)
  | sendAngles v sp =>
    have h6 : v.length = 6 := by simpa [Instr.wellFormed] using hw
    exact .inr (.inl ⟨rfl, rfl, _, _, _, ⟨rfl, by simp [h6, payloadLen, Instr.op], by simp [flagOf, Instr.op]⟩,
      (whenIdle_idle hs _).trans (withSix_six h6 _)⟩)
  | sendCoords v sp m =>
    have h6 : v.length = 6 := by simpa [Instr.wellFormed] using hw
    exact .inr (.inl ⟨rfl, rfl, _, _, _, ⟨rfl, by simp [h6, payloadLen, Instr.op], by simp [flagOf, Instr.op]⟩,
      (whenIdle_idle hs _).trans (withSix_six h6 _)⟩)
  | isInAnglePosition v =>
    have h6 : v.length = 6 := by simpa [Instr.wellFormed] using hw
    exact .inr (.inr ⟨rfl, _, _, _, rfl, ⟨rfl, by simp [h6, payloadLen, Instr.op],
      fun b hb => by rw [← hb]; exact fmtA6F_flag (by simp [h6])⟩, (whenIdle_idle hs _).trans (withSix_six h6 _)⟩)
  | isInCoordPosition v =>
    have h6 : v.length = 6 := by simpa [Instr.wellFormed] using hw
    exact .inr (.inr ⟨rfl, _, _, _, rfl, ⟨rfl, by simp [h6, payloadLen, Instr.op],
      fun b hb => by rw [← hb]; exact fmtP6F_flag (by simp [h6])⟩, (whenIdle_idle hs _).trans (withSix_six h6 _)⟩)
  | version => exact .inr (.inr ⟨rfl, _, _, _, rfl, ⟨rfl, rfl, by simp [flagOf, Instr.op]⟩, whenIdle_idle hs _⟩)
  | isPowerOn => exact .inr (.inr ⟨rfl, _, _, _, rfl, ⟨rfl, rfl, by simp [flagOf, Instr.op]⟩, whenIdle_idle hs _⟩)
  | isControllerConnected =>
    exact .inr (.inr ⟨rfl, _, _, _, rfl, ⟨rfl, rfl, by simp [flagOf, Instr.op]⟩, whenIdle_idle hs _⟩)
  | getAngles => exact .inr (.inr ⟨rfl, _, _, _, rfl, ⟨rfl, rfl, by simp [flagOf, Instr.op]⟩, whenIdle_idle hs _⟩)
  | getCoords => exact .inr (.inr ⟨rfl, _, _, _, rfl, ⟨rfl, rfl, by simp [flagOf, Instr.op]⟩, whenIdle_idle hs _⟩)
  | isPaused => exact .inr (.inr ⟨rfl, _, _, _, rfl, ⟨rfl, rfl, by simp [flagOf, Instr.op]⟩, whenIdle_idle hs _⟩)
  | isMoving => exact .inr (.inr ⟨rfl, _, _, _, rfl, ⟨rfl, rfl, by simp [flagOf, Instr.op]⟩, whenIdle_idle hs _⟩)
  | getEncoder j => exact .inr (.inr ⟨rfl, _, _, _, rfl, ⟨rfl, rfl, by simp [flagOf, Instr.op]⟩, whenIdle_idle hs _⟩)
  | isServoEnabled j => exact .inr (.inr ⟨rfl, _, _, _, rfl, ⟨rfl, rfl, by simp [flagOf, Instr.op]⟩, whenIdle_idle hs _⟩)
  | encodeAngle d => exact .inl ⟨rfl, rfl, _, _, resOk_okScalar_toInt _, rfl, whenIdle_idle hs _⟩
  | encodeCoord d => exact .inl ⟨rfl, rfl, _, _, resOk_okScalar_toInt _, rfl, whenIdle_idle hs _⟩
  | decodeAngle w => exact .inl ⟨rfl, rfl, _, _, by rfl, rfl, whenIdle_idle hs _⟩
  | decodeCoord w => exact .inl ⟨rfl, rfl, _, _, by rfl, rfl, whenIdle_idle hs _⟩
  | coordsToInt v =>
    have h6 : v.length = 6 := by simpa [Instr.wellFormed] using hw
    exact .inl ⟨rfl, rfl, _, _, by simp [resOk, Res.okW, Res.okOnly, Res.empty, h6], rfl,
      (whenIdle_idle hs _).trans (withSix_six h6 _)⟩
  | intToCoords v =>
    have h6 : v.length = 6 := by simpa [Instr.wellFormed] using hw
    exact .inl ⟨rfl, rfl, _, _, by simp [resOk, Res.okF, Res.okOnly, Res.empty, h6], rfl,
      (whenIdle_idle hs _).trans (withSix_six h6 _)⟩
  | put16 w => exact .inl ⟨rfl, rfl, _, _, resOk_okBytes _, rfl, whenIdle_idle hs _⟩
  | get16 bytes =>
    match bytes, hw with
    | [hi, lo], _ => exact .inl ⟨rfl, rfl, _, _, resOk_okScalar_toInt _, rfl, whenIdle_idle hs _⟩
  | buildFrame opcode payload =>
    have hl : payload.length ≤ 253 := by simpa [Instr.wellFormed] using hw
    refine .inl ⟨rfl, rfl, Res.okBytes
      ([s.cfg.sentinel, s.cfg.sentinel, BitVec.ofNat 8 (payload.length + 2), opcode] ++ payload ++ [s.cfg.sentinel]), 0,
      resOk_okBytes _, rfl, (whenIdle_idle hs _).trans ?_⟩
    rw [buildFrame_of_le hl]
  | parseFrame raw e => exact .inl ⟨rfl, rfl, _, _, resOk_okBytes _, rfl, whenIdle_idle hs _⟩
  | decodePayload p o =>
    refine .inl ⟨rfl, rfl, _, _, ?_, rfl, whenIdle_idle hs _⟩
    rcases decodePayload_length s.cfg p o with h | h | h <;> simp [resOk, Res.okW, Res.okOnly, Res.empty, h]

/-! ### REPLY and step -/

/-- Every result a query can deliver has status `OK` and one of the shapes of R26. -/
theorem replyResult_ok {cfg : Config} {expected : Byte} {raw : List Byte} {op : Op} {r : Res}
    (h : replyResult cfg expected raw op = some r) : resOk r = true ∧ r.status = some .ok := by
  have hs : resOk (scalarReply cfg expected raw) = true ∧ (scalarReply cfg expected raw).status = some .ok := by
    unfold scalarReply
    split
    · exact ⟨rfl, rfl⟩
    · exact ⟨resOk_okScalar_toInt _, rfl⟩
  have hv : ∀ scale, resOk (vectorReply scale cfg expected raw) = true ∧
      (vectorReply scale cfg expected raw).status = some .ok := by
    intro scale
    refine ⟨?_, rfl⟩
    rcases decodePayload_length cfg (parseFrame cfg raw expected) expected with h | h | h <;>
      simp [vectorReply, resOk, Res.okF, Res.okOnly, Res.empty, h]
  have ht : resOk (textReply cfg expected raw) = true ∧ (textReply cfg expected raw).status = some .ok :=
    ⟨rfl, rfl⟩
  cases op <;> simp only [replyResult, Option.some.injEq, reduceCtorEq] at h <;> subst h <;>
    first | exact hs | exact hv _ | exact ht

/-- What the step REPLY can do when it has a next state (R34): a transport fault aborts the query, and an admitted answer is turned into the
pending operation's result. -/
theorem reply_cases {s t : State} (h : reply s = .next t) :
    (∃ info, nextReadAns s = some (.fault info) ∧ t = abort info (receive (.fault info) s)) ∨
    (∃ raw p r, nextReadAns s = some (.bytes raw) ∧ rawTooLong s.cfg raw = false ∧ s.pend = some p ∧
      replyResult s.cfg p.expected raw p.op = some r ∧ t = deliver r (receive (.bytes raw) s)) := by
  unfold reply at h
  split at h
  · cases h
  · rename_i info heq
    exact .inl ⟨info, heq, by cases h; rfl⟩
  · rename_i raw heq
    unfold replyBytes at h
    split at h
    · cases h
    · rename_i hraw
      split at h
      · cases h
      · rename_i p hp
        split at h
        · cases h
        · rename_i r hr
          exact .inr ⟨raw, p, r, heq, by simpa using hraw, hp, hr, by cases h; rfl⟩

/-- What a step can do when it has a next state: wait, issue the host's well-formed command, or take a reply. -/
theorem step_cases {s t : State} (h : step s = .next t) :
    (s.phase = .idle ∧ fetchCmd s = none ∧ t = s) ∨
    (s.phase = .idle ∧ ∃ c i, fetchCmd s = some c ∧ decode s.cfg c = .ok i ∧ i.wellFormed = true ∧ exec i s = .next t) ∨
    (s.phase = .awaitReply ∧ reply s = .next t) := by
  unfold step at h
  split at h
  · rename_i hp
    exact .inr (.inr ⟨hp, h⟩)
  · rename_i hp
    split at h
    · rename_i hc
      exact .inl ⟨hp, hc, by cases h; rfl⟩
    · rename_i c hc
      split at h
      · cases h
      · rename_i i hi
        exact .inr (.inl ⟨hp, c, i, hc, hi, (exec_next_idle h).2, h⟩)

/-- In `IDLE` the step is the execution of the host's decoded command. -/
theorem step_of_decode {s : State} {c : Cmd} {i : Instr} (hs : s.phase = .idle) (hc : s.prog[s.hpc]? = some c)
    (hd : decode s.cfg c = .ok i) : step s = exec i s := by
  simp [step, hs, fetchCmd, hc, hd]

/-- A record that issues no operation is refused by name. -/
theorem step_of_decode_error {s : State} {c : Cmd} {e : DecodeError} (hs : s.phase = .idle) (hc : s.prog[s.hpc]? = some c)
    (hd : decode s.cfg c = .error e) : step s = .refused (decodeRefusal e) := by
  simp [step, hs, fetchCmd, hc, hd]

theorem step_awaitReply {s : State} (hs : s.phase = .awaitReply) : step s = reply s := by
  simp [step, hs]

/-- A command placed at the host's index is the one it issues. -/
theorem placeCmd_getElem? (c : Cmd) (n : Nat) (l : List Cmd) : (placeCmd c n l)[n]? = some c := by
  induction n generalizing l with
  | zero => cases l <;> rfl
  | succ n ih => cases l <;> simp [placeCmd, ih]

/-! ### exec and REPLY as explicit next states -/

/-- What a well-formed operation does in `IDLE`, as the state it leaves: a primitive its result, a write-only operation the one frame on `TX`
and the status, a query the one frame and the reply awaited, or the status of a failed write. -/
theorem exec_shape {i : Instr} {s : State} (hs : s.phase = .idle) (hw : i.wellFormed = true) :
    (isPrim i.op = true ∧ queryOpcode s.cfg i.op = none ∧
      ∃ r n, resOk r = true ∧ r.status = some .ok ∧ exec i s = .next (primDone s r n)) ∨
    (isPrim i.op = false ∧ queryOpcode s.cfg i.op = none ∧
      ∃ opcode payload n, IsRequest s.cfg i.op opcode payload ∧
        exec i s = .next (wrote s ([s.cfg.sentinel, s.cfg.sentinel, BitVec.ofNat 8 (payload.length + 2), opcode] ++ payload ++
          [s.cfg.sentinel]) n)) ∨
    (isPrim i.op = false ∧
      ∃ opcode payload n, queryOpcode s.cfg i.op = some opcode ∧ IsRequest s.cfg i.op opcode payload ∧
        exec i s = .next (asked s i.op opcode ([s.cfg.sentinel, s.cfg.sentinel, BitVec.ofNat 8 (payload.length + 2), opcode] ++
          payload ++ [s.cfg.sentinel]) n)) := by
  rcases exec_cases hs hw with ⟨a, b, r, n, c, d, e⟩ | ⟨a, b, o, p, n, c, d⟩ | ⟨a, o, p, n, b, c, d⟩
  · exact .inl ⟨a, b, r, n, c, d, e.trans (issuePrim_idle hs)⟩
  · exact .inr (.inl ⟨a, b, o, p, n, c, d.trans (issueWrite_of_le c.length_le hs)⟩)
  · exact .inr (.inr ⟨a, o, p, n, b, c, d.trans (issueQuery_of_le c.length_le hs)⟩)

/-- A query whose write the transport takes. -/
theorem asked_of_ok {s : State} {op : Op} {opcode : Byte} {frame : List Byte} {n : Nat} (h : nextWriteAns s = .ok) :
    asked s op opcode frame n =
      { s with
        phase := .awaitReply, pend := some ⟨op, opcode⟩, draws := s.draws + n
        tx := s.tx ++ [⟨.writeAndRead, frame, .ok⟩], txAns := s.txAns.tail } := by
  simp [asked, h]

theorem rawTooLong_of_admitted {cfg : Config} {raw : List Byte} (h : Admitted cfg raw) : rawTooLong cfg raw = false := by
  unfold rawTooLong
  split
  · rfl
  · rename_i m hm
    simpa using h m hm

/-- The step REPLY on an admitted answer, as the state it leaves (R34). -/
theorem step_of_answer {s : State} {raw : List Byte} {p : Pend} {r : Res} (h1 : s.phase = .awaitReply)
    (h2 : s.pend = some p) (h3 : nextReadAns s = some (.bytes raw)) (h4 : Admitted s.cfg raw)
    (h5 : replyResult s.cfg p.expected raw p.op = some r) : step s = .next (answered s r (.bytes raw)) := by
  rw [step_awaitReply h1]
  simp [reply, h3, replyBytes, rawTooLong_of_admitted h4, h2, h5, deliver, receive, answered]

/-- All eight scalar queries make the same of a reply (R202). -/
theorem replyResult_of_scalar {cfg : Config} {expected : Byte} {raw : List Byte} {op : Op} (h : op ∈ scalarOps) :
    replyResult cfg expected raw op = some (scalarReply cfg expected raw) := by
  simp only [scalarOps, List.mem_cons, List.not_mem_nil, or_false] at h
  rcases h with h | h | h | h | h | h | h | h <;> subst h <;> rfl

theorem scalarReply_eq (cfg : Config) (expected : Byte) (raw : List Byte) :
    scalarReply cfg expected raw =
      ⟨some .ok, some (match decodePayload cfg (parseFrame cfg raw expected) expected with
        | [] => -1
        | w :: _ => w.toInt), none, none, none⟩ := by
  unfold scalarReply
  split <;> simp_all [Res.okScalar, Res.okOnly, Res.empty]

/-- Which operations are queries does not depend on the configuration. -/
theorem isQuery_eq (cfg : Config) (op : Op) : isQuery op = (queryOpcode cfg op).isSome := by cases op <;> rfl

end Sys2Proof.Machine
end

