-- ==== Sys2Proof/Laws/Decode.lean ====
section
/-!
SUPPORT. Under an admitted configuration (R8) the selector bits and the request map tell the operations apart: the lookups of
`decodeSelector` and `decodeRequest` find the row they should.
-/

namespace Sys2Proof

/-- The catalog entries in the order of R70. -/
def allGenres : List Genre :=
  [.version, .powerOn, .powerOff, .isPowerOn, .releaseAllServos, .isControllerConnected, .getAngles, .sendAngle, .sendAngles,
   .getCoords, .sendCoord, .sendCoords, .isInPosition, .isMoving, .jogAngle, .jogCoord, .jogStop, .pause, .isPaused, .resume, .stop,
   .setEncoder, .getEncoder, .isServoEnabled]

theorem mem_allGenres (g : Genre) : g ∈ allGenres := by cases g <;> decide

/-- Distinct catalog entries have distinct opcodes (R8). -/
theorem opcodeOf_injective {cfg : Config} (h : cfg.WellFormed) {g g' : Genre} (he : opcodeOf cfg g = opcodeOf cfg g') :
    g = g' := by
  have hn : (allGenres.map (opcodeOf cfg)).Nodup := h.1
  exact List.inj_on_of_nodup_map hn (mem_allGenres g) (mem_allGenres g') he

/-- A request row as R72 builds it: the fixed length byte, the configured opcode and the flag byte. -/
def rowFor (cfg : Config) (g : Genre) (op : Op) : RequestRow :=
  ⟨BitVec.ofNat 8 (payloadLen op + 2), opcodeOf cfg g, flagOf op, op⟩

/-- Every row of the request map is the row R72 builds for its operation. -/
theorem requestRows_spec {cfg : Config} {r : RequestRow} (h : r ∈ requestRows cfg) :
    ∃ g, genreOf r.op = some g ∧ r = rowFor cfg g r.op := by
  simp only [requestRows, List.cons_append, List.nil_append, List.mem_cons, List.not_mem_nil, or_false] at h
  rcases h with h | h | h | h | h | h | h | h | h | h | h | h | h | h | h | h | h | h | h | h | h | h | h | h | h <;>
    subst h <;> exact ⟨_, rfl, rfl⟩

/-- Every catalog operation has its row in the request map. -/
theorem rowFor_mem (cfg : Config) {op : Op} {g : Genre} (h : genreOf op = some g) : rowFor cfg g op ∈ requestRows cfg := by
  cases op <;> cases h <;> simp [requestRows, rowFor, payloadLen, flagOf, opcodeOf]

/-- Two operations with one opcode and one flag byte are one operation. -/
theorem op_eq_of_genre_flag {op op' : Op} {g : Genre} (h : genreOf op = some g) (h' : genreOf op' = some g)
    (hf : flagOf op = flagOf op') : op = op' := by
  cases op <;> cases h <;> cases op' <;> simp_all [genreOf, flagOf]

theorem flagOf_none_iff {op op' : Op} {g : Genre} (h : genreOf op = some g) (h' : genreOf op' = some g) :
    flagOf op = none ↔ flagOf op' = none := by
  cases op <;> cases h <;> cases op' <;> simp_all [genreOf, flagOf]

theorem find?_of_unique {α : Type} {p : α → Bool} {l : List α} {a : α} (ha : a ∈ l) (hp : p a = true)
    (hu : ∀ b ∈ l, p b = true → b = a) : l.find? p = some a := by
  cases hf : l.find? p with
  | none => exact absurd hp (by simpa using List.find?_eq_none.mp hf a ha)
  | some b => rw [hu b (List.mem_of_find?_eq_some hf) (List.find?_some hf)]

/-- The selector bits of a catalog operation name it (R72). -/
theorem find_selector {cfg : Config} (hw : cfg.WellFormed) {op : Op} {g : Genre} (h : genreOf op = some g) :
    (requestRows cfg).find? (fun r => r.bits == (rowFor cfg g op).bits) = some (rowFor cfg g op) := by
  refine find?_of_unique (rowFor_mem cfg h) (beq_self_eq_true _) fun r hr hb => ?_
  obtain ⟨g', hg', hr'⟩ := requestRows_spec hr
  rw [hr'] at hb ⊢
  simp only [RequestRow.bits, rowFor, beq_iff_eq, List.cons_append, List.nil_append, List.cons.injEq] at hb
  obtain ⟨-, ho, hf⟩ := hb
  have hgg := opcodeOf_injective hw ho
  subst hgg
  have hff : flagOf r.op = flagOf op := by
    cases h1 : flagOf r.op <;> cases h2 : flagOf op <;> rw [h1, h2] at hf <;> first | rfl | (simp at hf; done) | simpa using hf
  rw [op_eq_of_genre_flag hg' h hff]

/-- Decoding the selector bits of an operation names it, for every operation and every admitted configuration (R72, R90). -/
theorem decodeSelector_selectorBits {cfg : Config} (hw : cfg.WellFormed) (op : Op) :
    decodeSelector cfg (selectorBits cfg op) = .ok op := by
  cases hg : genreOf op with
  | none => cases op <;> first | (cases hg; done) | rfl
  | some g =>
    have hb : selectorBits cfg op = (rowFor cfg g op).bits := by simp [selectorBits, hg, RequestRow.bits, rowFor]
    have hf := find_selector hw hg
    rw [hb]
    unfold decodeSelector
    split
    · rename_i fn heq
      simp [RequestRow.bits] at heq
    · rw [hf]
      rfl

/-- The request map reads the frame of a catalog operation as that operation (R72). -/
theorem find_request {cfg : Config} (hw : cfg.WellFormed) {op : Op} {g : Genre} (h : genreOf op = some g) {frame : List Byte}
    (h2 : frame[2]? = some (BitVec.ofNat 8 (payloadLen op + 2))) (h3 : frame[3]? = some (opcodeOf cfg g))
    (h16 : ∀ b, flagOf op = some b → frame[16]? = some b) :
    (requestRows cfg).find? (fun r => r.matches frame) = some (rowFor cfg g op) := by
  refine find?_of_unique (rowFor_mem cfg h) ?_ fun r hr hb => ?_
  · cases hf : flagOf op with
    | none => simp only [RequestRow.matches, rowFor, h2, h3, hf, beq_self_eq_true, Bool.and_self]
    | some b => simp only [RequestRow.matches, rowFor, h2, h3, hf, h16 b hf, beq_self_eq_true, Bool.and_self]
  · obtain ⟨g', hg', hr'⟩ := requestRows_spec hr
    rw [hr'] at hb ⊢
    simp only [RequestRow.matches, rowFor, h2, h3, Bool.and_eq_true, beq_iff_eq, Option.some.injEq] at hb
    obtain ⟨⟨-, ho⟩, hf⟩ := hb
    have hgg := opcodeOf_injective hw ho
    subst hgg
    have hff : flagOf r.op = flagOf op := by
      cases h1 : flagOf r.op with
      | none => exact ((flagOf_none_iff hg' h).mp h1).symm
      | some b =>
        cases h4 : flagOf op with
        | none => exact absurd ((flagOf_none_iff hg' h).mpr h4) (by simp [h1])
        | some b' =>
          rw [h1, h16 b' h4] at hf
          simp only [beq_iff_eq, Option.some.injEq] at hf
          rw [hf]
    rw [op_eq_of_genre_flag hg' h hff]

/-- Laying out the operand fields leaves the selector bits alone. -/
theorem encodeOperands_op (b : Cmd) (i : Instr) : (encodeOperands b i).op = b.op := by cases i <;> rfl

/-- The frame of a catalog operation decodes to that operation (R61, R72). -/
theorem decodeRequest_of_isRequest {cfg : Config} (hw : cfg.WellFormed) {op : Op} {opcode : Byte} {payload : List Byte}
    (h : Machine.IsRequest cfg op opcode payload) :
    decodeRequest cfg
      ([cfg.sentinel, cfg.sentinel, BitVec.ofNat 8 (payload.length + 2), opcode] ++ payload ++ [cfg.sentinel]) = .ok op := by
  obtain ⟨g, hg, ho⟩ := Option.map_eq_some_iff.mp h.opcode_eq
  subst ho
  unfold decodeRequest
  rw [Machine.frameWellFormed_frame _ _ h.length_le, if_pos rfl, find_request hw hg]
  · rfl
  · rw [← h.length_eq]
    rfl
  · rfl
  · intro b hb
    have hp := h.flag_eq b hb
    have hl : 12 < payload.length := by
      by_contra hn
      rw [List.getElem?_eq_none (by omega)] at hp
      cases hp
    rw [List.getElem?_append_left (by simp; omega), List.getElem?_append_right (by simp)]
    simpa using hp

/-- The selector bits of a request row are those of its operation, in every configuration (R72). -/
theorem bits_of_mem_requestRows {cfg : Config} {r : RequestRow} (h : r ∈ requestRows cfg) : r.bits = selectorBits cfg r.op := by
  obtain ⟨g, hg, hr⟩ := requestRows_spec h
  rw [hr]
  simp [RequestRow.bits, rowFor, selectorBits, hg]

/-- What `decodeSelector` can name: only an operation whose selector bits it was given (R72, R90, R229). -/
theorem selectorBits_of_decodeSelector {cfg : Config} {bits : List Byte} {op : Op} (h : decodeSelector cfg bits = .ok op) :
    bits = selectorBits cfg op := by
  unfold decodeSelector at h
  split at h
  · rename_i fn
    split at h
    · rename_i op' hp
      injection h with h
      subst h
      have hfn : fn = BitVec.ofNat 8 fn.toNat := by simp
      generalize fn.toNat = n at hp hfn
      subst hfn
      unfold primOfFn at hp
      split at hp <;> cases hp <;> rfl
    · cases h
  · split at h
    · rename_i r hf
      injection h with h
      subst h
      rw [← bits_of_mem_requestRows (List.mem_of_find?_eq_some hf)]
      exact (by simpa using List.find?_some hf : r.bits = bits).symm
    · cases h

/-- Selector bits of no operation are refused by name (R229). -/
theorem decodeSelector_error {cfg : Config} {bits : List Byte} (h : ∀ op, bits ≠ selectorBits cfg op) :
    decodeSelector cfg bits = .error .badSelector := by
  cases hd : decodeSelector cfg bits with
  | ok op => exact absurd (selectorBits_of_decodeSelector hd) (h op)
  | error e =>
    unfold decodeSelector at hd
    split at hd <;> split at hd <;> cases hd <;> rfl

end Sys2Proof
end

