-- ==== Sys2Proof/Laws/Float.lean ====
section
/-!
SUPPORT. What the binary64 arithmetic does, said once: the exponent and the significand `rne` chooses, what a packed value denotes, the sign,
the two scale factors, truncation and the wrap.
-/

namespace Sys2Proof.Machine

/-! ### What a value denotes -/

/-- The canonical range of a finite value (R12): a 53-bit significand, an exponent from -1074 to 971, and a significand of full length but at
the least exponent. -/
theorem f64Value_range {d : F64} {neg : Bool} {m : Nat} {e : Int} (h : f64Value d = .fin neg m e) :
    neg = d.neg ∧ m < 2 ^ 53 ∧ -1074 ≤ e ∧ e ≤ 971 ∧ (2 ^ 52 ≤ m ∨ e = -1074) := by
  have hf := d.frac.isLt
  have he := d.exp.isLt
  unfold f64Value at h
  split at h
  · split at h <;> cases h
  · split at h <;> injection h with h1 h2 h3 <;> subst h1 h2 h3 <;> refine ⟨rfl, ?_, ?_, ?_, ?_⟩ <;> omega

/-- Changing the sign bit changes the sign and nothing else. -/
theorem f64Value_neg (d : F64) :
    f64Value ⟨!d.neg, d.exp, d.frac⟩ =
      match f64Value d with
      | .nan => .nan
      | .inf neg => .inf !neg
      | .fin neg m e => .fin (!neg) m e := by
  unfold f64Value
  by_cases h1 : d.exp.toNat = 2047
  · by_cases h2 : d.frac.toNat = 0 <;> simp [h1, h2]
  · by_cases h2 : d.exp.toNat = 0 <;> simp [h1, h2]

theorem f64Value_f64Inf (neg : Bool) : f64Value (f64Inf neg) = .inf neg := by cases neg <;> decide

theorem f64Value_zero (neg : Bool) : f64Value ⟨neg, 0, 0⟩ = .fin neg 0 (-1074) := by cases neg <;> decide

/-- A packed significand denotes itself: below `2^52` at the least exponent, the carry at `2^53` moved to the next exponent, and the infinity
above exponent 971. -/
theorem f64Value_f64Pack (neg : Bool) {m : Nat} {e : Int} (hm : m ≤ 2 ^ 53) (he : -1074 ≤ e) :
    f64Value (f64Pack neg m e) =
      if m < 2 ^ 52 then .fin neg m (-1074)
      else if m = 2 ^ 53 then (if 970 < e then .inf neg else .fin neg (2 ^ 52) (e + 1))
      else if 971 < e then .inf neg else .fin neg m e := by
  unfold f64Pack
  by_cases h1 : m < 2 ^ 52
  · rw [if_pos h1, if_pos h1]
    simp only [f64Value, BitVec.toNat_ofNat]
    rw [if_neg (by decide), if_pos (by decide), Nat.mod_eq_of_lt h1]
  · rw [if_neg h1, if_neg h1]
    by_cases h2 : m = 2 ^ 53
    · simp only [if_pos h2]
      by_cases h3 : 970 < e
      · rw [if_pos (by omega), if_pos h3, f64Value_f64Inf]
      · rw [if_neg (by omega), if_neg h3]
        have hx : (e + 1 + 1075).toNat % 2 ^ 11 = (e + 1 + 1075).toNat := Nat.mod_eq_of_lt (by omega)
        simp only [f64Value, BitVec.toNat_ofNat, hx]
        rw [if_neg (by omega), if_neg (by omega)]
        simp only [FVal.fin.injEq, true_and]
        exact ⟨rfl, by omega⟩
    · simp only [if_neg h2]
      by_cases h3 : 971 < e
      · rw [if_pos h3, if_pos h3, f64Value_f64Inf]
      · rw [if_neg h3, if_neg h3]
        have hx : (e + 1075).toNat % 2 ^ 11 = (e + 1075).toNat := Nat.mod_eq_of_lt (by omega)
        have hy : (m - 2 ^ 52) % 2 ^ 52 = m - 2 ^ 52 := Nat.mod_eq_of_lt (by omega)
        simp only [f64Value, BitVec.toNat_ofNat, hx, hy]
        rw [if_neg (by omega), if_neg (by omega)]
        simp only [FVal.fin.injEq, true_and]
        exact ⟨by omega, by omega⟩

/-! ### The rounding -/

/-- `rneQuot n d` is the integer nearest `n / d`, and the even one of two at the same distance. -/
theorem rneQuot_spec {n d : Nat} (hd : 0 < d) :
    2 * (rneQuot n d * d) ≤ 2 * n + d ∧ 2 * n ≤ 2 * (rneQuot n d * d) + d ∧
    (2 * (rneQuot n d * d) = 2 * n + d ∨ 2 * n = 2 * (rneQuot n d * d) + d → rneQuot n d % 2 = 0) ∧
    n / d ≤ rneQuot n d ∧ rneQuot n d ≤ n / d + 1 := by
  have h := Nat.div_add_mod n d
  have hr := Nat.mod_lt n hd
  have hq : n / d * d = d * (n / d) := Nat.mul_comm ..
  have hq1 : (n / d + 1) * d = d * (n / d) + d := by rw [Nat.add_mul, one_mul, hq]
  simp only [rneQuot]
  split
  · rename_i hc
    rw [hq1]
    refine ⟨by omega, by omega, fun _ => by omega, by omega, by omega⟩
  · rename_i hc
    rw [hq]
    refine ⟨by omega, by omega, fun _ => by omega, by omega, by omega⟩

theorem rneDen_pos {den : Nat} (h : 0 < den) (e : Int) : 0 < rneDen den e := by
  unfold rneDen
  positivity

/-- `rneNum` over `rneDen` is the quotient scaled by `2^-e`. -/
theorem rneNum_div_rneDen (num den : Nat) (e : Int) :
    (rneNum num e : ℚ) / (rneDen den e : ℚ) = (num : ℚ) / den / (2 : ℚ) ^ e := by
  unfold rneNum rneDen
  rcases le_total 0 e with h | h
  · obtain ⟨k, rfl⟩ := Int.eq_ofNat_of_zero_le h
    simp [div_div]
  · obtain ⟨k, hk⟩ := Int.eq_ofNat_of_zero_le (Int.neg_nonneg_of_nonpos h)
    obtain rfl : e = -k := by omega
    simp [mul_div_right_comm]

/-- The integer quotient against a bound, read as rationals. -/
theorem div_lt_iff_rat {n d : Nat} (hd : 0 < d) (k : Nat) : n / d < k ↔ (n : ℚ) / d < k := by
  rw [Nat.div_lt_iff_lt_mul hd, div_lt_iff₀ (by exact_mod_cast hd)]
  exact_mod_cast Iff.rfl

/-- The exponent `rne` rounds at: the scaled quotient has at most 53 bits, and exactly 53 of them above the least exponent. -/
theorem rneExp_spec {num den : Nat} (hn : 0 < num) (hd : 0 < den) :
    -1074 ≤ rneExp num den ∧ rneNum num (rneExp num den) / rneDen den (rneExp num den) < 2 ^ 53 ∧
    (2 ^ 52 ≤ rneNum num (rneExp num den) / rneDen den (rneExp num den) ∨ rneExp num den = -1074) := by
  have hd' : (0 : ℚ) < den := by exact_mod_cast hd
  have hn' : (0 : ℚ) < num := by exact_mod_cast hn
  have a1 : (2 : ℚ) ^ (num.log2 : Int) ≤ num := by
    rw [zpow_natCast]; exact_mod_cast Nat.log2_self_le (by omega)
  have a2 : (num : ℚ) < 2 ^ ((num.log2 : Int) + 1) := by
    have := @Nat.lt_log2_self num
    rw [show ((num.log2 : Int) + 1) = ((num.log2 + 1 : Nat) : Int) by push_cast; rfl, zpow_natCast]
    exact_mod_cast this
  have b1 : (2 : ℚ) ^ (den.log2 : Int) ≤ den := by
    rw [zpow_natCast]; exact_mod_cast Nat.log2_self_le (by omega)
  have b2 : (den : ℚ) < 2 ^ ((den.log2 : Int) + 1) := by
    have := @Nat.lt_log2_self den
    rw [show ((den.log2 : Int) + 1) = ((den.log2 + 1 : Nat) : Int) by push_cast; rfl, zpow_natCast]
    exact_mod_cast this
  have two : (2 : ℚ) ≠ 0 := by norm_num
  -- the quotient against powers of two
  have lo : ∀ k : Int, k = (num.log2 : Int) - den.log2 - 1 → (2 : ℚ) ^ k < (num : ℚ) / den := by
    intro k hk
    rw [lt_div_iff₀ hd']
    calc (2 : ℚ) ^ k * den < 2 ^ k * 2 ^ ((den.log2 : Int) + 1) := by
          exact mul_lt_mul_of_pos_left b2 (by positivity)
      _ = 2 ^ (num.log2 : Int) := by rw [← zpow_add₀ two]; congr 1; omega
      _ ≤ num := a1
  have hi : ∀ k : Int, k = (num.log2 : Int) - den.log2 + 1 → (num : ℚ) / den < (2 : ℚ) ^ k := by
    intro k hk
    rw [div_lt_iff₀ hd']
    calc (num : ℚ) < 2 ^ ((num.log2 : Int) + 1) := a2
      _ = 2 ^ k * 2 ^ (den.log2 : Int) := by rw [← zpow_add₀ two]; congr 1; omega
      _ ≤ 2 ^ k * den := mul_le_mul_of_nonneg_left b1 (by positivity)
  -- the bounds at an exponent
  have below : ∀ e j : Int, (num : ℚ) / den < (2 : ℚ) ^ j → j ≤ e + 53 → rneNum num e / rneDen den e < 2 ^ 53 := by
    intro e j hj hje
    rw [div_lt_iff_rat (rneDen_pos hd e), rneNum_div_rneDen, div_lt_iff₀ (by positivity)]
    calc (num : ℚ) / den < 2 ^ j := hj
      _ ≤ 2 ^ (53 + e) := zpow_le_zpow_right₀ (by norm_num) (by omega)
      _ = _ := by rw [zpow_add₀ two]; norm_num
  have above : ∀ e j : Int, (2 : ℚ) ^ j < (num : ℚ) / den → e + 52 ≤ j → 2 ^ 52 ≤ rneNum num e / rneDen den e := by
    intro e j hj hje
    rw [← not_lt, div_lt_iff_rat (rneDen_pos hd e), rneNum_div_rneDen, div_lt_iff₀ (by positivity), not_lt]
    calc (((2 ^ 52 : Nat) : ℚ)) * 2 ^ e = 2 ^ (52 + e) := by rw [zpow_add₀ two]; norm_num
      _ ≤ 2 ^ j := zpow_le_zpow_right₀ (by norm_num) (by omega)
      _ ≤ _ := hj.le
  set a : Int := (num.log2 : Int) - den.log2 with ha
  have key : ∃ e', rneExp num den = max e' (-1074) ∧ rneNum num e' / rneDen den e' < 2 ^ 53 ∧
      2 ^ 52 ≤ rneNum num e' / rneDen den e' ∧ ∃ j, (num : ℚ) / den < (2 : ℚ) ^ j ∧ j ≤ e' + 53 := by
    by_cases hc : rneNum num (a - 52) / rneDen den (a - 52) < 2 ^ 52
    · refine ⟨a - 52 - 1, by simp only [rneExp, ← ha, if_pos hc], ?_, above _ (a - 1) (lo _ rfl) (by omega), a, ?_, by omega⟩
      all_goals
        have hq : (num : ℚ) / den < (2 : ℚ) ^ a := by
          rw [div_lt_iff_rat (rneDen_pos hd _), rneNum_div_rneDen, div_lt_iff₀ (by positivity)] at hc
          refine lt_of_lt_of_eq hc ?_
          rw [show (((2 ^ 52 : Nat) : ℚ)) = 2 ^ (52 : Int) by norm_num, ← zpow_add₀ two]
          congr 1; omega
      · exact below _ a hq (by omega)
      · exact hq
    · exact ⟨a - 52, by simp only [rneExp, ← ha, if_neg hc], below _ (a + 1) (hi _ rfl) (by omega), not_lt.mp hc, a + 1,
        hi _ rfl, by omega⟩
  obtain ⟨e', hE, h1, h2, j, hj, hje⟩ := key
  rw [hE]
  rcases le_total (-1074) e' with h | h
  · rw [max_eq_left h]; exact ⟨h, h1, .inl h2⟩
  · rw [max_eq_right h]; exact ⟨le_rfl, below _ j hj (by omega), .inr rfl⟩

/-- `rne` of a positive quotient packs the nearest integer to the scaled quotient at that exponent. -/
theorem rne_eq_pack (neg : Bool) {num : Nat} (den : Nat) (hn : 0 < num) :
    rne neg num den =
      f64Pack neg (rneQuot (rneNum num (rneExp num den)) (rneDen den (rneExp num den))) (rneExp num den) := by
  simp [rne, Nat.ne_of_gt hn]

theorem rne_zero (neg : Bool) (den : Nat) : rne neg 0 den = ⟨neg, 0, 0⟩ := by simp [rne]

/-- The significand before packing has at most `2^53`. -/
theorem rneQuot_le {num den : Nat} (hn : 0 < num) (hd : 0 < den) :
    rneQuot (rneNum num (rneExp num den)) (rneDen den (rneExp num den)) ≤ 2 ^ 53 := by
  have h := (rneExp_spec hn hd).2.1
  have h2 := (rneQuot_spec (n := rneNum num (rneExp num den)) (rneDen_pos hd (rneExp num den))).2.2.2.2
  omega

/-- What `rne` of a positive quotient denotes. -/
theorem f64Value_rne (neg : Bool) {num den : Nat} (hn : 0 < num) (hd : 0 < den) :
    f64Value (rne neg num den) =
      let e := rneExp num den
      let m := rneQuot (rneNum num e) (rneDen den e)
      if m < 2 ^ 52 then .fin neg m (-1074)
      else if m = 2 ^ 53 then (if 970 < e then .inf neg else .fin neg (2 ^ 52) (e + 1))
      else if 971 < e then .inf neg else .fin neg m e := by
  rw [rne_eq_pack neg den hn]
  exact f64Value_f64Pack neg (rneQuot_le hn hd) (rneExp_spec hn hd).1

/-- The sign of a rounded value is the sign it was given. -/
theorem rne_neg (neg : Bool) (num den : Nat) :
    (rne neg num den).neg = neg ∧ rne (!neg) num den = ⟨!neg, (rne neg num den).exp, (rne neg num den).frac⟩ := by
  simp only [rne, f64Pack, f64Inf]
  split
  · exact ⟨rfl, rfl⟩
  · split
    · exact ⟨rfl, rfl⟩
    · split <;> split <;> exact ⟨rfl, rfl⟩

/-! ### The scale factors -/

/-- The two scale factors are exact binary64 values (R109). -/
theorem f64Value_i2f_ten : f64Value (i2f 10) = .fin false (10 * 2 ^ 49) (-49) := by decide +kernel

theorem f64Value_i2f_hundred : f64Value (i2f 100) = .fin false (100 * 2 ^ 46) (-46) := by decide +kernel

/-- The product of a finite value and 10, as the rounding of an exact quotient. -/
theorem fmul_ten {d : F64} {neg : Bool} {m : Nat} {e : Int} (h : f64Value d = .fin neg m e) :
    fmul d (i2f 10) = some (rne neg (m * (10 * 2 ^ 49) * 2 ^ (e + -49).toNat) (2 ^ (-(e + -49)).toNat)) := by
  simp only [fmul, h, f64Value_i2f_ten, Bool.bne_false]

/-- The product of a finite value and 100, as the rounding of an exact quotient. -/
theorem fmul_hundred {d : F64} {neg : Bool} {m : Nat} {e : Int} (h : f64Value d = .fin neg m e) :
    fmul d (i2f 100) = some (rne neg (m * (100 * 2 ^ 46) * 2 ^ (e + -46).toNat) (2 ^ (-(e + -46)).toNat)) := by
  simp only [fmul, h, f64Value_i2f_hundred, Bool.bne_false]

/-! ### Truncation and the wrap -/

/-- `truncMag` is the floor of the magnitude. -/
theorem truncMag_eq_floor (m : Nat) (e : Int) : truncMag m e = ⌊(m : ℚ) * (2 : ℚ) ^ e⌋₊ := by
  unfold truncMag
  rw [← Nat.floor_div_eq_div (K := ℚ)]
  congr 1
  rcases le_total 0 e with h | h
  · obtain ⟨k, rfl⟩ := Int.eq_ofNat_of_zero_le h
    simp
  · obtain ⟨k, hk⟩ := Int.eq_ofNat_of_zero_le (Int.neg_nonneg_of_nonpos h)
    obtain rfl : e = -k := by omega
    simp [div_eq_mul_inv]

theorem wrap16_toNat (t : Int) : (wrap16 t).toNat = (t % 65536).toNat := by
  simp [wrap16, BitVec.toNat_ofInt]

/-- `wrap16` keeps the residue modulo 65536 (R11, R113). -/
theorem wrap16_toInt_emod (t : Int) : (wrap16 t).toInt % 65536 = t % 65536 := by
  simp only [wrap16, BitVec.toInt_ofInt, Int.bmod_def]
  split <;> omega

/-- A value in the `i16` range wraps to itself. -/
theorem wrap16_toInt_of_range {t : Int} (h1 : -32768 ≤ t) (h2 : t ≤ 32767) : (wrap16 t).toInt = t := by
  simp only [wrap16, BitVec.toInt_ofInt]
  exact Int.bmod_eq_of_le (by omega) (by omega)

end Sys2Proof.Machine
end

