-- ==== Sys2Proof/Laws/PerInstr.lean ====
section
/-!
SUPPORT. Per-instruction laws: the operand fields of every operation's command record read back as the operation (10_state.md R24),
one lemma per constructor.
-/

namespace Sys2Proof.Laws.OperandRoundTrip

/-- Decoding the operand fields of the record that encodes an operation gives the operation back, with every operand at every value. -/
def Statement (i : Instr) : Prop :=
  ∀ bits : List Byte, decodeOperands (encodeOperands (blankCmd bits) i) i.op = .ok i

theorem version : Statement (.version) := fun _ => rfl

theorem powerOn : Statement (.powerOn) := fun _ => rfl

theorem powerOff : Statement (.powerOff) := fun _ => rfl

theorem isPowerOn : Statement (.isPowerOn) := fun _ => rfl

theorem releaseAllServos : Statement (.releaseAllServos) := fun _ => rfl

theorem isControllerConnected : Statement (.isControllerConnected) := fun _ => rfl

theorem getAngles : Statement (.getAngles) := fun _ => rfl

theorem sendAngle (joint : Joint) (deg : F64) (speed : Byte) : Statement (.sendAngle joint deg speed) := fun _ => rfl

theorem sendAngles (degs : List F64) (speed : Byte) : Statement (.sendAngles degs speed) := fun _ => rfl

theorem getCoords : Statement (.getCoords) := fun _ => rfl

theorem sendCoord (axis : Axis) (val : F64) (speed : Byte) : Statement (.sendCoord axis val speed) := fun _ => rfl

theorem sendCoords (vals : List F64) (speed : Byte) (mode : Byte) : Statement (.sendCoords vals speed mode) := fun _ => rfl

theorem pause : Statement (.pause) := fun _ => rfl

theorem isPaused : Statement (.isPaused) := fun _ => rfl

theorem resume : Statement (.resume) := fun _ => rfl

theorem stop : Statement (.stop) := fun _ => rfl

theorem isInAnglePosition (degs : List F64) : Statement (.isInAnglePosition degs) := fun _ => rfl

theorem isInCoordPosition (coords : List F64) : Statement (.isInCoordPosition coords) := fun _ => rfl

theorem isMoving : Statement (.isMoving) := fun _ => rfl

theorem jogAngle (joint : Joint) (dir : Dir) (speed : Byte) : Statement (.jogAngle joint dir speed) := fun _ => rfl

theorem jogCoord (axis : Axis) (dir : Dir) (speed : Byte) : Statement (.jogCoord axis dir speed) := fun _ => rfl

theorem jogStop : Statement (.jogStop) := fun _ => rfl

theorem setEncoder (joint : Joint) (enc : I16) : Statement (.setEncoder joint enc) := fun _ => rfl

theorem getEncoder (joint : Joint) : Statement (.getEncoder joint) := fun _ => rfl

theorem isServoEnabled (joint : Joint) : Statement (.isServoEnabled joint) := fun _ => rfl

theorem encodeAngle (deg : F64) : Statement (.encodeAngle deg) := fun _ => rfl

theorem encodeCoord (mm : F64) : Statement (.encodeCoord mm) := fun _ => rfl

theorem decodeAngle (w : I16) : Statement (.decodeAngle w) := fun _ => rfl

theorem decodeCoord (w : I16) : Statement (.decodeCoord w) := fun _ => rfl

theorem coordsToInt (pose : List F64) : Statement (.coordsToInt pose) := fun _ => rfl

theorem intToCoords (vals : List I16) : Statement (.intToCoords vals) := fun _ => rfl

theorem put16 (w : I16) : Statement (.put16 w) := fun _ => rfl

theorem get16 (bytes : List Byte) : Statement (.get16 bytes) := fun _ => rfl

theorem buildFrame (opcode : Byte) (payload : List Byte) : Statement (.buildFrame opcode payload) := fun _ => rfl

theorem parseFrame (raw : List Byte) (expected : Byte) : Statement (.parseFrame raw expected) := fun _ => rfl

theorem decodePayload (payload : List Byte) (opcode : Byte) : Statement (.decodePayload payload opcode) := fun _ => rfl

end Sys2Proof.Laws.OperandRoundTrip
end

