-- ==== Sys2Proof/Tests/Slice0.lean ====
section
/-!
SUPPORT. The model's own tests: what the operand checks refuse, the decoding of words and records written out from the spec's tables, the
vectors of 95_test_vectors.md (each test names its vector), and for every statement with hypotheses a witness that meets them.
-/

namespace Sys2Proof.Tests

open Sys2Proof Sys2Proof.Machine

/-! ### Helpers -/

/-- The reset state with a transport that takes two writes. -/
def host : State := { State.reset with txAns := [.ok, .ok] }

/-- The reset state with a transport that fails the next write. -/
def failing : State := { State.reset with txAns := [.fault 7] }

/-- A state that awaits the reply to a query, with the transport's answer at hand. -/
def waiting (op : Op) (expected : Byte) (a : ReadAns) : State :=
  { State.reset with phase := .awaitReply, pend := some ⟨op, expected⟩, rxAns := [some a] }

/-- The frames an outcome has on `TX` and its status. -/
def sent : Out → Option (List (List Byte) × Option Status)
  | .next t => some (t.tx.map TxEntry.frame, t.res.status)
  | _ => none

/-- The frames an outcome has on `TX` and the pending query. -/
def awaits : Out → Option (List (List Byte) × Option Pend)
  | .next t => some (t.tx.map TxEntry.frame, t.pend)
  | _ => none

/-- The result an outcome leaves in `RES`. -/
def result : Out → Option Res
  | .next t => some t.res
  | _ => none

/-- The phase, the host's index and the numbers of frames sent and replies read after a step. -/
def marks : Out → Option (Phase × Nat × Nat × Nat)
  | .next t => some (t.phase, t.hpc, t.tx.length, t.rx.length)
  | _ => none

/-- The reason of a refusal. -/
def refusal : Out → Option Refusal
  | .refused r => some r
  | _ => none

/-- The reason of a fault. -/
def faultOf : Out → Option Fault
  | .fault r => some r
  | _ => none

def scalarRes (v : Int) : Option Res := some ⟨some .ok, some v, none, none, none⟩
def wRes (ws : List I16) : Option Res := some ⟨some .ok, none, some ws, none, none⟩
def fRes (fs : List F64) : Option Res := some ⟨some .ok, none, none, some fs, none⟩
def bytesRes (bs : List Byte) : Option Res := some ⟨some .ok, none, none, none, some bs⟩

/-- Decimal literals (R78), `p / 10^k`. -/
def dec (neg : Bool) (num den : Nat) : F64 := f64Lit neg num den

/-- The pose of vector U30: `[150.3, -60.0, 230.55, -178.5, 0.29, 90.0]`. -/
def poseU30 : List F64 :=
  [dec false 1503 10, dec true 60 1, dec false 23055 100, dec true 1785 10, dec false 29 100, dec false 90 1]

/-- The angles of vector W12: `[0.0, -45.5, 90.0, 12.345, -0.29, 180.0]`. -/
def anglesW12 : List F64 :=
  [dec false 0 1, dec true 455 10, dec false 90 1, dec false 12345 1000, dec true 29 100, dec false 180 1]

def zeros : List F64 := List.replicate 6 ⟨false, 0, 0⟩

def one64 : F64 := ⟨false, 1023, 0⟩
def inf64 : F64 := ⟨false, 2047, 0⟩
def nan64 : F64 := ⟨false, 2047, 1⟩

/-! ### Ill-formed operands (R229), one for each check of WellFormed -/

theorem test_wf_sendAngles : Instr.wellFormed (.sendAngles (zeros.take 5) 0) = false := by decide
theorem test_wf_sendCoords : Instr.wellFormed (.sendCoords (one64 :: zeros) 0 0) = false := by decide
theorem test_wf_isInAnglePosition : Instr.wellFormed (.isInAnglePosition []) = false := by decide
theorem test_wf_isInCoordPosition : Instr.wellFormed (.isInCoordPosition (zeros.take 5)) = false := by decide
theorem test_wf_coordsToInt : Instr.wellFormed (.coordsToInt (one64 :: zeros)) = false := by decide
theorem test_wf_intToCoords : Instr.wellFormed (.intToCoords [1, 2, 3, 4, 5]) = false := by decide
theorem test_wf_get16 :
    Instr.wellFormed (.get16 [1]) = false ∧ Instr.wellFormed (.get16 [1, 2, 3]) = false ∧
    Instr.wellFormed (.get16 [1, 2]) = true := by decide
theorem test_wf_buildFrame :
    Instr.wellFormed (.buildFrame 0x21 (List.replicate 254 0)) = false ∧
    Instr.wellFormed (.buildFrame 0x21 (List.replicate 253 0)) = true := by decide +kernel
/-- R8: an opcode used twice is no configuration; one equal to the sentinel is. -/
theorem test_wf_config :
    cfgDefault.WellFormed ∧ ¬ ({ cfgDefault with opStop := 0x10 } : Config).WellFormed ∧
    ({ cfgDefault with opStop := 0xFE } : Config).WellFormed ∧
    ¬ ({ cfgDefault with dirIncrease := 0x00 } : Config).WellFormed := by decide +kernel

/-! ### Decoding: words of the opcode table (R72, R90), one for each constructor -/

theorem test_word_writes :
    decodeTableWord 16 0x0210 = some .powerOn ∧ decodeTableWord 16 0x0211 = some .powerOff ∧
    decodeTableWord 16 0x0213 = some .releaseAllServos ∧ decodeTableWord 16 0x0226 = some .pause ∧
    decodeTableWord 16 0x0228 = some .resume ∧ decodeTableWord 16 0x0229 = some .stop ∧
    decodeTableWord 16 0x0234 = some .jogStop ∧
    decodeTableWord 16 0x0621 = some (.sendAngle .j1 ⟨false, 0, 0⟩ 0) ∧
    decodeTableWord 16 0x0F22 = some (.sendAngles zeros 0) ∧
    decodeTableWord 16 0x0624 = some (.sendCoord .x ⟨false, 0, 0⟩ 0) ∧
    decodeTableWord 16 0x1025 = some (.sendCoords zeros 0 0) ∧
    decodeTableWord 16 0x0530 = some (.jogAngle .j1 .decrease 0) ∧
    decodeTableWord 16 0x0532 = some (.jogCoord .x .decrease 0) ∧
    decodeTableWord 16 0x053A = some (.setEncoder .j1 0) := by decide

theorem test_word_queries :
    decodeTableWord 16 0x0200 = some .version ∧ decodeTableWord 16 0x0212 = some .isPowerOn ∧
    decodeTableWord 16 0x0214 = some .isControllerConnected ∧ decodeTableWord 16 0x0220 = some .getAngles ∧
    decodeTableWord 16 0x0223 = some .getCoords ∧ decodeTableWord 16 0x0227 = some .isPaused ∧
    decodeTableWord 16 0x022B = some .isMoving ∧ decodeTableWord 16 0x033B = some (.getEncoder .j1) ∧
    decodeTableWord 16 0x0350 = some (.isServoEnabled .j1) ∧
    decodeTableWord 24 0x0F2A00 = some (.isInAnglePosition zeros) ∧
    decodeTableWord 24 0x0F2A01 = some (.isInCoordPosition zeros) := by decide

theorem test_word_prims :
    decodeTableWord 4 0b0000 = some (.encodeAngle ⟨false, 0, 0⟩) ∧ decodeTableWord 4 0b0001 = some (.encodeCoord ⟨false, 0, 0⟩) ∧
    decodeTableWord 8 0b0010 = some (.decodeAngle 0) ∧ decodeTableWord 8 0b0011 = some (.decodeCoord 0) ∧
    decodeTableWord 8 0b0100 = some (.coordsToInt zeros) ∧
    decodeTableWord 8 0b0101 = some (.intToCoords (List.replicate 6 0)) ∧
    decodeTableWord 8 0b0110 = some (.put16 0) ∧ decodeTableWord 8 0b0111 = some (.get16 [0, 0]) ∧
    decodeTableWord 8 0b1000 = some (.buildFrame 0 [0, 0]) ∧ decodeTableWord 8 0b1001 = some (.parseFrame [0, 0] 0) ∧
    decodeTableWord 8 0b1010 = some (.decodePayload [0, 0] 0) := by decide

/-- Words of no row: the function codes 1011 and up, a length byte of another format, the shared opcode without a flag or with another. -/
theorem test_word_none :
    decodeTableWord 8 0b1011 = none ∧ decodeTableWord 8 0b1111 = none ∧ decodeTableWord 16 0x0310 = none ∧
    decodeTableWord 16 0x02FF = none ∧ decodeTableWord 16 0x0F2A = none ∧ decodeTableWord 24 0x0F2A02 = none ∧
    decodeTableWord 0 0 = none := by decide

/-! ### Decoding: which fields of the record an operation reads (R24) -/

/-- A record with a different value in every field. -/
def full (op : List Byte) : Cmd :=
  { op := op, f := [one64, inf64, nan64, one64, one64, one64], w := [11, 12, 13, 14, 15, 16], joint := .j3, axis := .ry
    dir := .increase, speed := 50, mode := 1, opcode := 0x77, bytes := [0xA1, 0xA2] }

theorem test_record_writes :
    decode cfgDefault (full [0x06, 0x21]) = .ok (.sendAngle .j3 one64 50) ∧
    decode cfgDefault (full [0x0F, 0x22]) = .ok (.sendAngles [one64, inf64, nan64, one64, one64, one64] 50) ∧
    decode cfgDefault (full [0x06, 0x24]) = .ok (.sendCoord .ry one64 50) ∧
    decode cfgDefault (full [0x10, 0x25]) = .ok (.sendCoords [one64, inf64, nan64, one64, one64, one64] 50 1) ∧
    decode cfgDefault (full [0x05, 0x30]) = .ok (.jogAngle .j3 .increase 50) ∧
    decode cfgDefault (full [0x05, 0x32]) = .ok (.jogCoord .ry .increase 50) ∧
    decode cfgDefault (full [0x05, 0x3A]) = .ok (.setEncoder .j3 11) := by decide

theorem test_record_queries :
    decode cfgDefault (full [0x03, 0x3B]) = .ok (.getEncoder .j3) ∧
    decode cfgDefault (full [0x03, 0x50]) = .ok (.isServoEnabled .j3) ∧
    decode cfgDefault (full [0x0F, 0x2A, 0x00]) = .ok (.isInAnglePosition [one64, inf64, nan64, one64, one64, one64]) ∧
    decode cfgDefault (full [0x0F, 0x2A, 0x01]) = .ok (.isInCoordPosition [one64, inf64, nan64, one64, one64, one64]) := by
  decide

theorem test_record_prims :
    decode cfgDefault (full [0x00]) = .ok (.encodeAngle one64) ∧ decode cfgDefault (full [0x01]) = .ok (.encodeCoord one64) ∧
    decode cfgDefault (full [0x02]) = .ok (.decodeAngle 11) ∧ decode cfgDefault (full [0x03]) = .ok (.decodeCoord 11) ∧
    decode cfgDefault (full [0x04]) = .ok (.coordsToInt [one64, inf64, nan64, one64, one64, one64]) ∧
    decode cfgDefault (full [0x05]) = .ok (.intToCoords [11, 12, 13, 14, 15, 16]) ∧
    decode cfgDefault (full [0x06]) = .ok (.put16 11) ∧ decode cfgDefault (full [0x07]) = .ok (.get16 [0xA1, 0xA2]) ∧
    decode cfgDefault (full [0x08]) = .ok (.buildFrame 0x77 [0xA1, 0xA2]) ∧
    decode cfgDefault (full [0x09]) = .ok (.parseFrame [0xA1, 0xA2] 0x77) ∧
    decode cfgDefault (full [0x0A]) = .ok (.decodePayload [0xA1, 0xA2] 0x77) := by decide

theorem test_record_refused :
    decode cfgDefault (full [0x0B]) = .error .badSelector ∧ decode cfgDefault (full []) = .error .badSelector ∧
    decode cfgDefault { full [0x00] with f := [] } = .error .missingLane ∧
    decode cfgDefault { full [0x06] with w := [] } = .error .missingLane := by decide

/-- The request decoder on the frames of W8, Q19 and Q20, on a frame without its trailer, and on an opcode of no row (R61, R72). -/
theorem test_request :
    decodeRequest cfgDefault [0xFE, 0xFE, 0x06, 0x21, 0x01, 0x11, 0x94, 0x32, 0xFE] = .ok .sendAngle ∧
    decodeRequest cfgDefault [0xFE, 0xFE, 0x0F, 0x2A, 0x00, 0x00, 0xEE, 0x3A, 0x23, 0x28, 0x04, 0xD2, 0xFF, 0xE4, 0x46, 0x50,
      0x00, 0xFE] = .ok .isInAnglePosition ∧
    decodeRequest cfgDefault [0xFE, 0xFE, 0x0F, 0x2A, 0x05, 0xDF, 0xFD, 0xA8, 0x09, 0x01, 0xBA, 0x46, 0x00, 0x1C, 0x23, 0x28,
      0x01, 0xFE] = .ok .isInCoordPosition ∧
    decodeRequest cfgDefault [0xFE, 0xFE, 0x02, 0x10] = .error .notAFrame ∧
    decodeRequest cfgDefault [0xFE, 0xFE, 0x02, 0x77, 0xFE] = .error .unknownRequest := by decide

/-! ### The Unit Codec (vectors U1 to U55) -/

/-- U1, U2, U3, U8, U10: the source's value, truncation toward zero, a half not rounded up. -/
theorem test_encode_angle :
    result (exec (.encodeAngle (dec false 45 1)) host) = scalarRes 4500 ∧
    result (exec (.encodeAngle (dec false 29 100)) host) = scalarRes 28 ∧
    result (exec (.encodeAngle (dec true 29 100)) host) = scalarRes (-28) ∧
    result (exec (.encodeAngle (dec false 12345 1000)) host) = scalarRes 1234 ∧
    result (exec (.encodeAngle (dec false 2675 1000)) host) = scalarRes 267 := by decide +kernel

/-- U11, U13, U14, U16, U17, U47, U48: the wrap, a subnormal, and a product of more than 2^68. -/
theorem test_encode_angle_wraps :
    result (exec (.encodeAngle (dec false 32767 100)) host) = scalarRes 32767 ∧
    result (exec (.encodeAngle (dec false 32768 100)) host) = scalarRes (-32768) ∧
    result (exec (.encodeAngle (dec true 32769 100)) host) = scalarRes 32767 ∧
    result (exec (.encodeAngle (dec false 65536 100)) host) = scalarRes 0 ∧
    result (exec (.encodeAngle (dec false 1000 1)) host) = scalarRes (-31072) ∧
    result (exec (.encodeAngle ⟨false, 0, 1⟩) host) = scalarRes 0 ∧
    result (exec (.encodeAngle (dec false (10 ^ 300) 1)) host) = scalarRes 0 := by decide +kernel

/-- U21, U23, U27, U33, U38. -/
theorem test_encode_coord :
    result (exec (.encodeCoord (dec false 1503 10)) host) = scalarRes 1503 ∧
    result (exec (.encodeCoord (dec true 29 100)) host) = scalarRes (-2) ∧
    result (exec (.encodeCoord (dec false 32767 100)) host) = scalarRes 3276 ∧
    result (exec (.encodeCoord (dec false 32768 10)) host) = scalarRes (-32768) ∧
    result (exec (.encodeCoord (dec false 9007199254740992 100)) host) = scalarRes 13107 := by decide +kernel

/-- 5000/100 = 0x1.9p+5, 29/100 = 0x1.28f5c28f5c28fp-2, -1/100 = -0x1.47ae147ae147bp-7, 0 gives +0. -/
theorem test_decode_angle :
    result (exec (.decodeAngle 5000) host) = fRes [⟨false, 1028, 0x9000000000000⟩] ∧
    result (exec (.decodeAngle 29) host) = fRes [⟨false, 1021, 0x28f5c28f5c28f⟩] ∧
    result (exec (.decodeAngle (-1)) host) = fRes [⟨true, 1016, 0x47ae147ae147b⟩] ∧
    result (exec (.decodeAngle 0) host) = fRes [⟨false, 0, 0⟩] := by decide +kernel

/-- 1503/10 = 0x1.2c9999999999ap+7; U29. -/
theorem test_decode_coord :
    result (exec (.decodeCoord 1503) host) = fRes [⟨false, 1030, 0x2c9999999999a⟩] ∧
    result (exec (.decodeCoord (-32768)) host) = fRes [dec true 32768 10] := by decide +kernel

/-- U30, U32. -/
theorem test_coords_to_int :
    result (exec (.coordsToInt poseU30) host) = wRes [1503, -600, 2305, -17850, 28, 9000] ∧
    result (exec (.coordsToInt (List.replicate 6 (dec false 29 100))) host) = wRes [2, 2, 2, 28, 28, 28] := by decide +kernel

/-- U31. -/
theorem test_int_to_coords :
    result (exec (.intToCoords [1503, -600, 2305, -17850, 29, 9000]) host) =
      fRes [dec false 1503 10, dec true 60 1, dec false 2305 10, dec true 1785 10, dec false 29 100, dec false 90 1] := by
  decide +kernel

/-- U53. -/
theorem test_put16 :
    result (exec (.put16 4500) host) = bytesRes [0x11, 0x94] ∧ result (exec (.put16 (-32768)) host) = bytesRes [0x80, 0x00] ∧
    result (exec (.put16 255) host) = bytesRes [0x00, 0xFF] ∧ result (exec (.put16 (-28)) host) = bytesRes [0xFF, 0xE4] := by
  decide

/-- U54, and the refusal of another length (R107). -/
theorem test_get16 :
    result (exec (.get16 [0x13, 0x88]) host) = scalarRes 5000 ∧ result (exec (.get16 [0x80, 0x00]) host) = scalarRes (-32768) ∧
    result (exec (.get16 [0x7F, 0xFF]) host) = scalarRes 32767 ∧ result (exec (.get16 [0xFE, 0xFE]) host) = scalarRes (-258) ∧
    refusal (exec (.get16 [0x13]) host) = some .badFieldLength := by decide

/-! ### The Frame Codec (vectors B, P, K) -/

/-- B1 to B4: the envelope, a sentinel pair in the payload, an opcode equal to the sentinel. -/
theorem test_build_frame :
    result (exec (.buildFrame 0x10 []) host) = bytesRes [0xFE, 0xFE, 0x02, 0x10, 0xFE] ∧
    result (exec (.buildFrame 0x21 [0x01, 0x11, 0x94, 0x32]) host) =
      bytesRes [0xFE, 0xFE, 0x06, 0x21, 0x01, 0x11, 0x94, 0x32, 0xFE] ∧
    result (exec (.buildFrame 0x21 [0xFE, 0xFE, 0x05, 0x09]) host) =
      bytesRes [0xFE, 0xFE, 0x06, 0x21, 0xFE, 0xFE, 0x05, 0x09, 0xFE] ∧
    result (exec (.buildFrame 0xFE [0x07]) host) = bytesRes [0xFE, 0xFE, 0x03, 0xFE, 0x07, 0xFE] := by decide

/-- B6, B7: 253 bytes are the most a frame carries. -/
theorem test_build_frame_bound :
    ((buildFrame cfgDefault 0x21 (List.replicate 253 0x05)).map fun fr => (fr.length, fr[2]?)) = some (258, some 0xFF) ∧
    refusal (exec (.buildFrame 0x21 (List.replicate 254 0x05)) host) = some .payloadTooLong := by decide +kernel

/-- P1 to P3, P5 to P8. -/
theorem test_parse_frame :
    result (exec (.parseFrame [0x00, 0x37, 0xFE, 0xFE, 0x03, 0x12, 0x01, 0xFE] 0x12) host) = bytesRes [0x01] ∧
    parseFrame cfgDefault [0xFE, 0xFE, 0x03, 0x2B, 0x01, 0xFE] 0x12 = [] ∧
    parseFrame cfgDefault [0xFE, 0xFE, 0x03] 0x12 = [] ∧ parseFrame cfgDefault [0xFE, 0xFE, 0x03, 0x12] 0x12 = [] ∧
    parseFrame cfgDefault [0xFE, 0xFE, 0x03, 0x12, 0x01] 0x12 = [0x01] ∧
    parseFrame cfgDefault [0xFE, 0xFE, 0x03, 0x12, 0x01, 0x00, 0x99] 0x12 = [0x01] ∧
    parseFrame cfgDefault [0xFE, 0xFE, 0x01, 0x12, 0x01, 0xFE] 0x12 = [] := by decide

/-- P9, P14 to P18: the scan takes the first pair, wherever it stands, and does not resume. -/
theorem test_parse_frame_scan :
    parseFrame cfgDefault [0xFE, 0xFE, 0xFE, 0x03, 0x12, 0x01, 0xFE] 0x12 = [] ∧
    parseFrame cfgDefault [0xFE, 0xFE, 0x03, 0x2B, 0x01, 0xFE, 0xFE, 0xFE, 0x03, 0x12, 0x01, 0xFE] 0x12 = [] ∧
    parseFrame cfgDefault [0xFE, 0xFE, 0x03, 0x2B, 0x01, 0xFE, 0xFE, 0xFE, 0x03, 0x12, 0x01, 0xFE] 0x2B = [0x01] ∧
    parseFrame cfgDefault [0xFE, 0xFE, 0x03, 0x12, 0x07, 0xFE, 0xFE, 0x03, 0x12, 0x01, 0xFE] 0x12 = [0x07] ∧
    parseFrame cfgDefault [0x12, 0xFE, 0xFE, 0x04, 0x2B, 0xFE, 0xFE, 0x03, 0x12, 0x01, 0xFE] 0x12 = [] ∧
    parseFrame cfgDefault [0x12, 0xFE, 0xFE, 0x04, 0x2B, 0xFE, 0xFE, 0x03, 0x12, 0x01, 0xFE] 0x2B = [0xFE, 0xFE] := by decide

/-- K2 to K6. -/
theorem test_decode_payload :
    result (exec (.decodePayload [0x05, 0xDF, 0xFD, 0xA8, 0x09, 0x01, 0xBA, 0x46, 0x00, 0x1D, 0x23, 0x28] 0x23) host) =
      wRes [1503, -600, 2305, -17850, 29, 9000] ∧
    decodePayload cfgDefault [0x08, 0x00] 0x3B = [2048] ∧ decodePayload cfgDefault [0x03, 0x01] 0x50 = [1] ∧
    decodePayload cfgDefault [0x03, 0x01] 0x12 = [769] ∧ decodePayload cfgDefault [0x03, 0xFF] 0x50 = [-1] ∧
    decodePayload cfgDefault [0x03, 0xFF] 0x12 = [1023] := by decide

/-- K8 to K11. -/
theorem test_decode_payload_lengths :
    decodePayload cfgDefault [0x80] 0x12 = [-128] ∧ decodePayload cfgDefault [] 0x12 = [] ∧
    decodePayload cfgDefault [0x01, 0x02, 0x03] 0x12 = [1] ∧ decodePayload cfgDefault [0xFF, 0, 0, 0] 0x12 = [-1] ∧
    decodePayload cfgDefault (List.replicate 13 0) 0x12 = [0] ∧ decodePayload cfgDefault [0xFE, 0xFE] 0x3B = [-258] := by decide

/-! ### The write-only operations (vectors W1 to W18) -/

theorem test_power_on : sent (exec .powerOn host) = some ([[0xFE, 0xFE, 0x02, 0x10, 0xFE]], some .ok) := by decide
theorem test_power_off : sent (exec .powerOff host) = some ([[0xFE, 0xFE, 0x02, 0x11, 0xFE]], some .ok) := by decide
theorem test_release_all_servos :
    sent (exec .releaseAllServos host) = some ([[0xFE, 0xFE, 0x02, 0x13, 0xFE]], some .ok) := by decide
theorem test_pause : sent (exec .pause host) = some ([[0xFE, 0xFE, 0x02, 0x26, 0xFE]], some .ok) := by decide
theorem test_resume : sent (exec .resume host) = some ([[0xFE, 0xFE, 0x02, 0x28, 0xFE]], some .ok) := by decide
theorem test_stop : sent (exec .stop host) = some ([[0xFE, 0xFE, 0x02, 0x29, 0xFE]], some .ok) := by decide
theorem test_jog_stop : sent (exec .jogStop host) = some ([[0xFE, 0xFE, 0x02, 0x34, 0xFE]], some .ok) := by decide

/-- W8 (S7), W9. -/
theorem test_send_angle :
    sent (exec (.sendAngle .j1 (dec false 45 1) 50) host) =
      some ([[0xFE, 0xFE, 0x06, 0x21, 0x01, 0x11, 0x94, 0x32, 0xFE]], some .ok) ∧
    sent (exec (.sendAngle .j1 (dec false 400 1) 50) host) =
      some ([[0xFE, 0xFE, 0x06, 0x21, 0x01, 0x9C, 0x40, 0x32, 0xFE]], some .ok) := by decide +kernel

/-- W10, W11. -/
theorem test_send_coord :
    sent (exec (.sendCoord .x (dec false 1503 10) 30) host) =
      some ([[0xFE, 0xFE, 0x06, 0x24, 0x00, 0x05, 0xDF, 0x1E, 0xFE]], some .ok) ∧
    sent (exec (.sendCoord .rz (dec true 90 1) 30) host) =
      some ([[0xFE, 0xFE, 0x06, 0x24, 0x05, 0xFC, 0x7C, 0x1E, 0xFE]], some .ok) := by decide +kernel

/-- W12. -/
theorem test_send_angles :
    sent (exec (.sendAngles anglesW12 80) host) =
      some ([[0xFE, 0xFE, 0x0F, 0x22, 0x00, 0x00, 0xEE, 0x3A, 0x23, 0x28, 0x04, 0xD2, 0xFF, 0xE4, 0x46, 0x50, 0x50, 0xFE]],
        some .ok) := by decide +kernel

/-- W13. -/
theorem test_send_coords :
    sent (exec (.sendCoords poseU30 50 1) host) =
      some ([[0xFE, 0xFE, 0x10, 0x25, 0x05, 0xDF, 0xFD, 0xA8, 0x09, 0x01, 0xBA, 0x46, 0x00, 0x1C, 0x23, 0x28, 0x32, 0x01, 0xFE]],
        some .ok) := by decide +kernel

/-- W14. -/
theorem test_jog_angle :
    sent (exec (.jogAngle .j3 .increase 40) host) = some ([[0xFE, 0xFE, 0x05, 0x30, 0x03, 0x01, 0x28, 0xFE]], some .ok) := by
  decide

/-- W15, under both values of the bias (C3). -/
theorem test_jog_coord :
    sent (exec (.jogCoord .y .decrease 40) host) = some ([[0xFE, 0xFE, 0x05, 0x32, 0x02, 0x00, 0x28, 0xFE]], some .ok) ∧
    sent (exec (.jogCoord .y .decrease 40) { host with cfg := { cfgDefault with jogCoordIdBias := 1 } }) =
      some ([[0xFE, 0xFE, 0x05, 0x32, 0x01, 0x00, 0x28, 0xFE]], some .ok) := by decide

/-- W16, W17. -/
theorem test_set_encoder :
    sent (exec (.setEncoder .j4 2048) host) = some ([[0xFE, 0xFE, 0x05, 0x3A, 0x04, 0x08, 0x00, 0xFE]], some .ok) ∧
    sent (exec (.setEncoder .j4 (-1)) host) = some ([[0xFE, 0xFE, 0x05, 0x3A, 0x04, 0xFF, 0xFF, 0xFE]], some .ok) := by decide

/-- W18: a fault at the write. -/
theorem test_write_fault :
    result (exec .powerOn failing) = some ⟨some (.transportError 7), none, none, none, none⟩ ∧
    marks (exec .powerOn failing) = some (.idle, 1, 1, 0) := by decide

/-! ### The queries (vectors Q1 to Q26) -/

/-- Q1: the request and what is pending. -/
theorem test_is_power_on :
    awaits (exec .isPowerOn host) = some ([[0xFE, 0xFE, 0x02, 0x12, 0xFE]], some ⟨.isPowerOn, 0x12⟩) ∧
    result (step (waiting .isPowerOn 0x12 (.bytes [0xFE, 0xFE, 0x03, 0x12, 0x01, 0xFE]))) = scalarRes 1 := by decide

/-- Q3 to Q7: the silent anomalies, and the one fault that is reported. -/
theorem test_is_power_on_anomalies :
    result (step (waiting .isPowerOn 0x12 (.bytes [0x00, 0x37, 0x12]))) = scalarRes (-1) ∧
    result (step (waiting .isPowerOn 0x12 (.bytes []))) = scalarRes (-1) ∧
    result (step (waiting .isPowerOn 0x12 (.bytes [0xFE, 0xFE, 0x03, 0x2B, 0x01, 0xFE]))) = scalarRes (-1) ∧
    result (step (waiting .isPowerOn 0x12 (.bytes [0xFE, 0xFE, 0x03, 0x12, 0xFF, 0xFE]))) = scalarRes (-1) ∧
    result (step (waiting .isPowerOn 0x12 (.fault 9))) = some ⟨some (.transportError 9), none, none, none, none⟩ := by decide

/-- Q8. -/
theorem test_is_controller_connected :
    awaits (exec .isControllerConnected host) = some ([[0xFE, 0xFE, 0x02, 0x14, 0xFE]], some ⟨.isControllerConnected, 0x14⟩) ∧
    result (step (waiting .isControllerConnected 0x14 (.bytes [0xFE, 0xFE, 0x03, 0x14, 0x01, 0xFE]))) = scalarRes 1 := by decide

/-- Q9, Q26. -/
theorem test_is_moving :
    awaits (exec .isMoving host) = some ([[0xFE, 0xFE, 0x02, 0x2B, 0xFE]], some ⟨.isMoving, 0x2B⟩) ∧
    result (step (waiting .isMoving 0x2B (.bytes [0xFE, 0xFE, 0x03, 0x2B, 0x00, 0xFE]))) = scalarRes 0 ∧
    result (step (waiting .isMoving 0x2B (.bytes ([0xFE, 0xFE, 0x0E, 0x2B, 0x00, 0x07] ++ List.replicate 10 0 ++ [0xFE])))) =
      scalarRes 7 := by decide

/-- Q10. -/
theorem test_is_paused :
    awaits (exec .isPaused host) = some ([[0xFE, 0xFE, 0x02, 0x27, 0xFE]], some ⟨.isPaused, 0x27⟩) ∧
    result (step (waiting .isPaused 0x27 (.bytes [0xFE, 0xFE, 0x03, 0x27, 0x01, 0xFE]))) = scalarRes 1 := by decide

/-- Q11, Q13. -/
theorem test_get_angles :
    awaits (exec .getAngles host) = some ([[0xFE, 0xFE, 0x02, 0x20, 0xFE]], some ⟨.getAngles, 0x20⟩) ∧
    result (step (waiting .getAngles 0x20 (.bytes []))) = fRes [] ∧
    result (step (waiting .getAngles 0x20 (.bytes [0xFE, 0xFE, 0x0E, 0x20, 0x05, 0xDF, 0xFD, 0xA8, 0x09, 0x01, 0xBA, 0x46, 0x00,
      0x1D, 0x23, 0x28, 0xFE]))) =
      fRes [dec false 1503 100, dec true 6 1, dec false 2305 100, dec true 1785 10, dec false 29 100, dec false 90 1] := by
  decide +kernel

/-- Q14, Q15. -/
theorem test_get_coords :
    awaits (exec .getCoords host) = some ([[0xFE, 0xFE, 0x02, 0x23, 0xFE]], some ⟨.getCoords, 0x23⟩) ∧
    result (step (waiting .getCoords 0x23 (.bytes [0x00, 0x37, 0xFE, 0xFE, 0x0E, 0x23, 0x05, 0xDF, 0xFD, 0xA8, 0x09, 0x01, 0xBA,
      0x46, 0x00, 0x1D, 0x23, 0x28, 0xFE]))) =
      fRes [dec false 1503 10, dec true 60 1, dec false 2305 10, dec true 1785 10, dec false 29 100, dec false 90 1] ∧
    result (step (waiting .getCoords 0x23 (.bytes [0xFE, 0xFE, 0x04, 0x23, 0x05, 0xDF, 0xFE]))) = fRes [dec false 1503 10] := by
  decide +kernel

/-- Q16 (S10), Q17, Q18. -/
theorem test_version :
    awaits (exec .version host) = some ([[0xFE, 0xFE, 0x02, 0x00, 0xFE]], some ⟨.version, 0x00⟩) ∧
    result (step (waiting .version 0x00 (.bytes [0xFE, 0xFE, 0x06, 0x00, 0x56, 0x31, 0x2E, 0x30, 0xFE]))) =
      bytesRes [0x56, 0x31, 0x2E, 0x30] ∧
    result (step (waiting .version 0x00 (.bytes [0xFE, 0xFE, 0x04, 0x00, 0x56, 0x32, 0xFE]))) = bytesRes [0x56, 0x32] ∧
    result (step (waiting .version 0x00 (.bytes [0x01, 0x02]))) = bytesRes [] := by decide

/-- Q19. -/
theorem test_is_in_angle_position :
    awaits (exec (.isInAnglePosition anglesW12) host) =
      some ([[0xFE, 0xFE, 0x0F, 0x2A, 0x00, 0x00, 0xEE, 0x3A, 0x23, 0x28, 0x04, 0xD2, 0xFF, 0xE4, 0x46, 0x50, 0x00, 0xFE]],
        some ⟨.isInAnglePosition, 0x2A⟩) ∧
    result (step (waiting .isInAnglePosition 0x2A (.bytes [0xFE, 0xFE, 0x03, 0x2A, 0x01, 0xFE]))) = scalarRes 1 := by
  decide +kernel

/-- Q20. -/
theorem test_is_in_coord_position :
    awaits (exec (.isInCoordPosition poseU30) host) =
      some ([[0xFE, 0xFE, 0x0F, 0x2A, 0x05, 0xDF, 0xFD, 0xA8, 0x09, 0x01, 0xBA, 0x46, 0x00, 0x1C, 0x23, 0x28, 0x01, 0xFE]],
        some ⟨.isInCoordPosition, 0x2A⟩) ∧
    result (step (waiting .isInCoordPosition 0x2A (.bytes []))) = scalarRes (-1) := by decide +kernel

/-- Q21, Q22. -/
theorem test_get_encoder :
    awaits (exec (.getEncoder .j4) host) = some ([[0xFE, 0xFE, 0x03, 0x3B, 0x04, 0xFE]], some ⟨.getEncoder, 0x3B⟩) ∧
    result (step (waiting .getEncoder 0x3B (.bytes [0xFE, 0xFE, 0x04, 0x3B, 0x08, 0x00, 0xFE]))) = scalarRes 2048 ∧
    result (step (waiting .getEncoder 0x3B (.bytes [0xFE, 0xFE, 0x04, 0x3B, 0xFF, 0xFF, 0xFE]))) = scalarRes (-1) := by decide

/-- Q23 to Q25. -/
theorem test_is_servo_enabled :
    awaits (exec (.isServoEnabled .j3) host) = some ([[0xFE, 0xFE, 0x03, 0x50, 0x03, 0xFE]], some ⟨.isServoEnabled, 0x50⟩) ∧
    result (step (waiting .isServoEnabled 0x50 (.bytes [0xFE, 0xFE, 0x04, 0x50, 0x03, 0x01, 0xFE]))) = scalarRes 1 ∧
    result (step (waiting .isServoEnabled 0x50 (.bytes [0xFE, 0xFE, 0x04, 0x50, 0x03, 0xFF, 0xFE]))) = scalarRes (-1) ∧
    result (step (waiting .isServoEnabled 0x50 (.bytes [0xFE, 0xFE, 0x03, 0x50, 0x01, 0xFE]))) = scalarRes 1 := by decide

/-! ### Steps, stops and reset -/

/-- PR1, the third row: ISSUE-QUERY leaves the host where it is, REPLY moves it on (R33, R34). -/
theorem test_two_steps :
    marks (step { host with prog := [tableCmd 16 0x022B] }) = some (.awaitReply, 0, 1, 0) ∧
    marks (step (waiting .isMoving 0x2B (.bytes [0xFE, 0xFE, 0x03, 0x2B, 0x00, 0xFE]))) = some (.idle, 1, 0, 1) := by decide

/-- R229: `Busy` while a reply is awaited, `BadSelector`, `BadVectorLength`, `RawTooLong`; U14: a read never answered, no step. -/
theorem test_stops :
    refusal (exec .powerOn (waiting .isMoving 0x2B (.bytes []))) = some .busy ∧
    refusal (step { host with prog := [tableCmd 8 0x0B] }) = some .badSelector ∧
    refusal (exec (.sendAngles [one64] 0) host) = some .badVectorLength ∧
    refusal (step { waiting .isMoving 0x2B (.bytes [1, 2, 3]) with cfg := { cfgDefault with rawMax := some 2 } }) =
      some .rawTooLong ∧
    faultOf (step { waiting .isMoving 0x2B (.bytes []) with rxAns := [none] }) = some .noReply := by decide

/-- R250: after reset the block waits. -/
theorem test_reset_waits : marks (step State.reset) = some (.idle, 0, 0, 0) := by decide

/-- An outcome is a next state. -/
def isNext : Out → Bool
  | .next _ => true
  | _ => false

/-- The host's readers: a placed word is the first operation after reset, for a write, a query and a primitive. -/
theorem test_first_step :
    isNext (step (State.reset.withFetchWord 16 0x0210)) = true ∧ isNext (step (State.reset.withFetchWord 24 0x0F2A01)) = true ∧
    marks (step (State.reset.withFetchWord 8 0x09)) = some (.idle, 1, 0, 0) ∧
    marks (step (host.withFetchWord 24 0x0F2A01)) = some (.awaitReply, 0, 1, 0) := by decide +kernel

/-- R21: the host sets its own index. -/
theorem test_host_goto : (hostGoto 1 { host with hpc := 2 }).hpc = 1 := by decide

/-- R220, D28: the status codes. -/
theorem test_status_codes : statusCode .ok = 0 ∧ statusCode (.transportError 7) = 1 := by decide

/-! ### Witnesses: for every statement with hypotheses, a state and operands that meet all of them -/

/-- The idle state the statements about one operation in `IDLE` ask for. -/
theorem witness_idle : host.phase = .idle := rfl

/-- The threshold of the infinity is far above 1. -/
theorem threshold_large : (1 : ℚ) < 2 ^ 1024 - 2 ^ 970 := by
  have h : (2 : ℚ) ^ 1024 = 2 ^ 970 * 2 ^ 54 := by rw [← pow_add]
  have h1 : (1 : ℚ) ≤ 2 ^ 970 := one_le_pow₀ (by norm_num)
  rw [h]
  generalize (2 : ℚ) ^ 970 = x at h1
  norm_num
  linarith

/-- `RoundingIsNearestTiesToEven`: both clauses, the first at the threshold of the infinity. -/
theorem witness_RoundingIsNearestTiesToEven :
    (0 < 1 ∧ (2 ^ 1024 - 2 ^ 970 : ℚ) ≤ |ratQuot false (2 ^ 1024 - 2 ^ 970) 1|) ∧
    (0 < 3 ∧ |ratQuot true 1 3| < (2 ^ 1024 - 2 ^ 970 : ℚ)) := by
  refine ⟨⟨by decide, ?_⟩, ⟨by decide, ?_⟩⟩
  · have h : 2 ^ 970 ≤ 2 ^ 1024 := pow_le_pow_right₀ (by decide) (by decide)
    refine le_trans (le_of_eq ?_) (le_abs_self _)
    simp only [ratQuot, Nat.cast_sub h, Nat.cast_pow, Nat.cast_ofNat, Nat.cast_one, div_one, one_mul, if_neg Bool.false_ne_true]
  · refine lt_trans ?_ threshold_large
    norm_num [ratQuot, abs_of_neg]

/-- R12 at the threshold of the infinity, and just below it. -/
theorem test_rounding_overflow :
    rne false (2 ^ 1024 - 2 ^ 970) 1 = f64Inf false ∧ rne true (2 ^ 1024 - 2 ^ 970 - 1) 1 = ⟨true, 2046, 0xfffffffffffff⟩ := by
  decide +kernel

/-- `RoundingIsNearestTiesToEven`, the last clause: a tie, 2^53 + 1, and another value as near as the result, 2^53. -/
theorem witness_tie :
    f64Value (rne false (2 ^ 53 + 1) 1) = .fin false (2 ^ 52) 1 ∧
    f64Value ⟨false, 1076, 1⟩ = .fin false (2 ^ 52 + 1) 1 ∧
    |ratQuot false (2 ^ 53 + 1) 1 - ratOf false (2 ^ 52) 1| = |ratQuot false (2 ^ 53 + 1) 1 - ratOf false (2 ^ 52 + 1) 1| ∧
    ratOf false (2 ^ 52 + 1) 1 ≠ ratOf false (2 ^ 52) 1 := by
  refine ⟨by decide +kernel, by decide +kernel, ?_, ?_⟩ <;> norm_num [ratQuot, ratOf, abs_of_neg]

/-- `ProductAndQuotientRoundOnce`, and a divisor that is not zero. -/
theorem witness_ProductAndQuotientRoundOnce :
    f64Value one64 = .fin false (2 ^ 52) (-52) ∧ f64Value ⟨true, 0, 1⟩ = .fin true 1 (-1074) ∧ ratOf true 1 (-1074) ≠ 0 := by
  refine ⟨by decide +kernel, by decide +kernel, ?_⟩
  norm_num [ratOf]

/-- `EncodingFollowsItsRule`: a NaN, an infinity, an overflowing product, a product of each sign. -/
theorem witness_EncodingFollowsItsRule :
    f64Value nan64 = .nan ∧ f64Value inf64 = .inf false ∧
    (f64Value ⟨false, 2046, 0⟩ = .fin false (2 ^ 52) 971 ∧ fmul ⟨false, 2046, 0⟩ (i2f 10) = some (f64Inf false)) ∧
    (f64Value (dec true 29 100) = .fin true 5224175567749775 (-54) ∧
      (fmul (dec true 29 100) (i2f 100)).map f64Value = some (.fin true 8162774324609023 (-48))) := by decide +kernel

/-- `EncodingAgreesWithTheIntegerAlgorithm`, `DecodingIsTheBinary64Quotient`: a finite operand, a scale, a wire integer that is not 0. -/
theorem witness_EncodingAgreesWithTheIntegerAlgorithm :
    (100 = 10 ∨ 100 = 100) ∧ f64Value ⟨true, 0, 1⟩ = .fin true 1 (-1074) ∧ (29 : I16).toInt ≠ 0 := by decide +kernel

/-- `EncodingIsOddBeforeWrapping`, `EncodingWrapsModulo65536`: a truncated product of 28, one of 32768, and one of 2^68. -/
theorem witness_EncodingWrapsModulo65536 :
    encProduct (dec false 29 100) 100 = some 28 ∧ encProduct (dec false 32768 100) 100 = some 32768 ∧
    (encProduct ⟨false, 1023 + 65, 0⟩ 10).map (fun t => decide ((2 : Int) ^ 68 ≤ |t|)) = some true := by decide +kernel

/-- `EncodeThenDecodeIsWithinOneUnit`: the largest and the smallest products that do not wrap, of each sign. -/
theorem witness_EncodeThenDecodeIsWithinOneUnit :
    (encProduct (dec false 32767 100) 100 = some 32767 ∧ f64Value (dec false 32767 100) = .fin false 5764431601173791 (-44)) ∧
    (encProduct (dec true 32768 10) 10 = some (-32768) ∧ f64Value (dec true 32768 10) = .fin true 7205759403792794 (-41)) ∧
    (0 : ℚ) ≤ ratOf false 5764431601173791 (-44) ∧ ratOf true 7205759403792794 (-41) < 0 := by
  refine ⟨by decide +kernel, by decide +kernel, ?_, ?_⟩ <;> norm_num [ratOf]

/-- `DecodeThenEncodeRestoresCoordinates`: the largest angle below 29. -/
theorem witness_DecodeThenEncodeRestoresCoordinates : 0 ≤ (28 : I16).toInt ∧ (28 : I16).toInt < 29 := by decide

/-- `NonFiniteOperandsEncodeToADraw`: an infinity, and a product that overflows, for each scale. -/
theorem witness_NonFiniteOperandsEncodeToADraw :
    host.phase = .idle ∧ f64Value inf64 = .inf false ∧ f64Value nan64 = .nan ∧
    fmul ⟨true, 2046, 0⟩ (i2f 100) = some (f64Inf true) ∧ fmul ⟨true, 2046, 0⟩ (i2f 10) = some (f64Inf true) := by decide +kernel

/-- `BuildFrameWrapsThePayload`, `ParsingABuiltFrameReturnsThePayload`: the longest payload; and one byte more for
`OperandsOutsideTheAdmittedSetAreRefused`. -/
theorem witness_BuildFrameWrapsThePayload :
    host.phase = .idle ∧ (List.replicate 253 (0 : Byte)).length ≤ 253 ∧ 254 ≤ (List.replicate 254 (0 : Byte)).length ∧
    ([1] : List Byte).length ≠ 2 ∧ (zeros.take 5).length ≠ 6 ∧ ([1] : List I16).length ≠ 6 := by decide +kernel

/-- The index of P2's frame. -/
theorem witness_firstPair : IsFirstPair 0xFE [0x00, 0x37, 0xFE, 0xFE, 0x03, 0x12, 0x01, 0xFE] 2 := by
  refine ⟨by decide, fun j hj => ?_⟩
  interval_cases j <;> decide

/-- No index of P4's input. -/
theorem witness_noPair : ∀ i, ¬ IsFirstPair 0xFE [0x00, 0x37, 0x12] i :=
  firstPair_eq_none.mp (by decide)

/-- `ParseFrameReadsTheFirstSentinelPair`: no pair; a pair with its bytes present and accepted; a pair with a byte missing. -/
theorem witness_ParseFrameReadsTheFirstSentinelPair :
    (∀ i, ¬ IsFirstPair cfgDefault.sentinel [0x00, 0x37, 0x12] i) ∧
    (IsFirstPair cfgDefault.sentinel [0x00, 0x37, 0xFE, 0xFE, 0x03, 0x12, 0x01, 0xFE] 2 ∧
      2 ≤ (0x03 : Byte).toNat ∧ 2 + 4 + ((0x03 : Byte).toNat - 2) ≤ 8) ∧
    (firstPair 0xFE [0xFE, 0xFE, 0x03] = some 0 ∧ [0xFE, 0xFE, (0x03 : Byte)].length ≤ 0 + 3) :=
  ⟨witness_noPair, ⟨witness_firstPair, by decide⟩, by decide⟩

/-- `ParsingWithAnotherOpcodeReturnsNothing`. -/
theorem witness_ParsingWithAnotherOpcodeReturnsNothing :
    buildFrame cfgDefault 0x2B [0x01] = some [0xFE, 0xFE, 0x03, 0x2B, 0x01, 0xFE] ∧ (0x2B : Byte) ≠ 0x12 := by decide

/-- `LeadingNoiseIsSkipped`: P2's noise. -/
theorem witness_LeadingNoiseIsSkipped :
    buildFrame cfgDefault 0x12 [0x01] = some [0xFE, 0xFE, 0x03, 0x12, 0x01, 0xFE] ∧
    (∀ i, ¬ IsFirstPair cfgDefault.sentinel [0x00, 0x37] i) ∧ [(0x00 : Byte), 0x37].getLast? ≠ some cfgDefault.sentinel :=
  ⟨by decide, firstPair_eq_none.mp (by decide), by decide⟩

/-- `APairInNoiseHidesTheFrame`: P14's first frame. -/
theorem witness_APairInNoiseHidesTheFrame :
    IsFirstPair cfgDefault.sentinel [0xFE, 0xFE, 0x03, 0x2B, 0x01, 0xFE] 0 ∧
    [(0xFE : Byte), 0xFE, 0x03, 0x2B, 0x01, 0xFE][0 + 3]? = some 0x2B ∧ (0x2B : Byte) ≠ 0x12 :=
  ⟨firstPair_eq_some.mp (by decide), by decide, by decide⟩

/-- `BytesAfterThePayloadAreNotRead`: P6, a frame that ends with its payload. -/
theorem witness_BytesAfterThePayloadAreNotRead :
    IsFirstPair cfgDefault.sentinel [0xFE, 0xFE, 0x03, 0x12, 0x01] 0 ∧
    [(0xFE : Byte), 0xFE, 0x03, 0x12, 0x01][0 + 2]? = some 0x03 ∧
    0 + 4 + ((0x03 : Byte).toNat - 2) ≤ [(0xFE : Byte), 0xFE, 0x03, 0x12, 0x01].length :=
  ⟨firstPair_eq_some.mp (by decide), by decide, by decide⟩

/-- `DecodePayloadDispatchesByLength`: a payload for each of its lengths. -/
theorem witness_DecodePayloadDispatchesByLength :
    host.phase = .idle ∧ (List.replicate 12 (0 : Byte))[2 * 5 + 1]? = some 0 ∧ [(0x03 : Byte), 0x01].length = 2 ∧
    [(0x05 : Byte)].length ≠ 0 ∧ [(0x05 : Byte)].length ≠ 12 ∧ [(0x05 : Byte)].length ≠ 2 := by decide

/-- `BufferFieldReadsBackWhatWasStored`: a field at the very end of a buffer, and one past it. -/
theorem witness_BufferFieldReadsBackWhatWasStored :
    65535 < 65536 ∧ 2 + 2 ≤ [(0 : Byte), 0, 0, 0].length ∧ [(0 : Byte), 0, 0, 0].length < 3 + 2 := by decide

/-- The statements about a six-lane operand. -/
theorem witness_sixLanes : host.phase = .idle ∧ poseU30.length = 6 ∧ anglesW12.length = 6 := ⟨rfl, rfl, rfl⟩

/-- An answer within an unbounded `RAW_MAX`. -/
theorem witness_admitted (raw : List Byte) : Admitted cfgDefault raw := by
  intro m h
  cases h

/-- The statements about a reply: `ScalarRepliesDeliverTheirFirstElement`, `VectorRepliesScaleEachLane` and
`VersionRepliesDeliverThePayload`. -/
theorem witness_replies :
    (waiting .isMoving 0x2B (.bytes [])).phase = .awaitReply ∧
    (waiting .isMoving 0x2B (.bytes [])).pend = some ⟨.isMoving, 0x2B⟩ ∧ Op.isMoving ∈ scalarOps ∧
    nextReadAns (waiting .isMoving 0x2B (.bytes [])) = some (.bytes []) ∧ Admitted (waiting .isMoving 0x2B (.bytes [])).cfg [] ∧
    (waiting .getAngles 0x20 (.bytes [])).pend = some ⟨.getAngles, 0x20⟩ ∧
    (waiting .getCoords 0x23 (.bytes [])).pend = some ⟨.getCoords, 0x23⟩ ∧
    (waiting .version 0x00 (.bytes [])).pend = some ⟨.version, 0x00⟩ :=
  ⟨rfl, rfl, by decide, rfl, witness_admitted [], rfl, rfl, rfl⟩

/-- `ReplyAnomaliesAreSilent`: no sentinel pair at all (Q3), and another opcode (Q5). -/
theorem witness_ReplyAnomaliesAreSilent :
    Anomaly cfgDefault [0x00, 0x37, 0x12] 0x12 ∧ Anomaly cfgDefault [0xFE, 0xFE, 0x03, 0x2B, 0x01, 0xFE] 0x12 :=
  ⟨.inl witness_noPair, .inr ⟨0, firstPair_eq_some.mp (by decide), .inr (.inr ⟨0x2B, by decide, by decide⟩)⟩⟩

/-- `ServoEnabledRepliesReadTheSecondByte`: Q23. -/
theorem witness_ServoEnabledRepliesReadTheSecondByte :
    buildFrame cfgDefault cfgDefault.opIsServoEnabled [0x03, 0x01] = some [0xFE, 0xFE, 0x04, 0x50, 0x03, 0x01, 0xFE] ∧
    (waiting .isServoEnabled 0x50 (.bytes [0xFE, 0xFE, 0x04, 0x50, 0x03, 0x01, 0xFE])).pend =
      some ⟨.isServoEnabled, cfgDefault.opIsServoEnabled⟩ := by decide

/-- `MinusOneIsOverloaded`: Q6, Q22 and Q24. -/
theorem witness_MinusOneIsOverloaded :
    buildFrame cfgDefault 0x12 [0xFF] = some [0xFE, 0xFE, 0x03, 0x12, 0xFF, 0xFE] ∧
    buildFrame cfgDefault 0x3B [0xFF, 0xFF] = some [0xFE, 0xFE, 0x04, 0x3B, 0xFF, 0xFF, 0xFE] ∧
    (0x50 : Byte) = cfgDefault.opIsServoEnabled ∧
    buildFrame cfgDefault 0x50 [0x03, 0xFF] = some [0xFE, 0xFE, 0x04, 0x50, 0x03, 0xFF, 0xFE] ∧
    Op.isPowerOn ∈ scalarOps ∧ Op.getEncoder ∈ scalarOps ∧ Op.isServoEnabled ∈ scalarOps := by decide

/-- `QueriesCompleteInTwoSteps`. -/
theorem witness_QueriesCompleteInTwoSteps :
    ({ host with rxAns := [some (.bytes [])] } : State).phase = .idle ∧ Instr.wellFormed (.getEncoder .j6) = true ∧
    queryOpcode cfgDefault (Instr.op (.getEncoder .j6)) = some 0x3B ∧ nextWriteAns host = .ok ∧
    nextReadAns { host with rxAns := [some (.bytes [])] } = some (.bytes []) := by decide

/-- `WriteFaultsAbortTheOperation`: a write-only operation and a query. -/
theorem witness_WriteFaultsAbortTheOperation :
    failing.phase = .idle ∧ Instr.wellFormed .stop = true ∧ isPrim (Instr.op .stop) = false ∧
    isPrim (Instr.op .version) = false ∧ nextWriteAns failing = .fault 7 := by decide

/-- `ReadFaultsAbortTheQuery`. -/
theorem witness_ReadFaultsAbortTheQuery :
    (waiting .isMoving 0x2B (.fault 9)).phase = .awaitReply ∧ nextReadAns (waiting .isMoving 0x2B (.fault 9)) = some (.fault 9) := by
  decide

/-- `ErrorsDoNotDisableTheBlock`: a query ended by a fault at the read, with a command to follow. -/
theorem witness_ErrorsDoNotDisableTheBlock :
    ∃ t, step { waiting .isMoving 0x2B (.fault 9) with prog := [tableCmd 16 0x022B, tableCmd 16 0x0210] } = .next t ∧
      t.hpc = 1 ∧ t.res.status = some (.transportError 9) ∧ t.prog[t.hpc]? = some (tableCmd 16 0x0210) ∧
      decode t.cfg (tableCmd 16 0x0210) = .ok .powerOn ∧ Instr.wellFormed .powerOn = true :=
  ⟨_, rfl, rfl, rfl, rfl, by decide, rfl⟩

/-- `AwaitingAReplyHoldsTheHost`: a read never answered, and one answered. -/
theorem witness_AwaitingAReplyHoldsTheHost :
    nextReadAns { waiting .isMoving 0x2B (.bytes []) with rxAns := [none] } = none ∧
    ∃ t, step (waiting .isMoving 0x2B (.bytes [])) = .next t :=
  ⟨rfl, _, rfl⟩

/-- `RepliesBeyondTheBoundAreRefused`: one byte more than the bound. -/
theorem witness_RepliesBeyondTheBoundAreRefused :
    ∃ s : State, s.phase = .awaitReply ∧ nextReadAns s = some (.bytes [1, 2, 3]) ∧ s.cfg.rawMax = some 2 ∧
      2 < [(1 : Byte), 2, 3].length :=
  ⟨{ waiting .isMoving 0x2B (.bytes [1, 2, 3]) with cfg := { cfgDefault with rawMax := some 2 } }, rfl, rfl, rfl, by decide⟩

/-- `UnknownSelectorsAreRefused`, what names no operation: the first code of no primitive, two bytes with a length byte of another format or an
opcode of no entry, the shared opcode without a flag or with another, the empty selector, four bytes. -/
theorem witness_UnknownSelectorsAreRefused :
    ({ host with prog := [tableCmd 8 0x0B] } : State).prog[0]? = some (tableCmd 8 0x0B) ∧
    (11 ≤ (0x0B : Byte).toNat ∧ (tableCmd 8 0x0B).op = [0x0B]) ∧ (tableCmd 0 0).op = [] ∧ 4 ≤ (tableCmd 32 0).op.length ∧
    ∀ op : Op, (tableCmd 16 0x0310).op ≠ selectorBits cfgDefault op ∧ (tableCmd 16 0x02FF).op ≠ selectorBits cfgDefault op ∧
      (tableCmd 16 0x0F2A).op ≠ selectorBits cfgDefault op ∧ (tableCmd 24 0x0F2A02).op ≠ selectorBits cfgDefault op := by
  refine ⟨by decide, by decide, by decide, by decide, fun op => ?_⟩
  cases op <;> decide

/-- `UnknownSelectorsAreRefused`, the records that lack the lane of their scalar operand. -/
theorem witness_missingLane :
    host.cfg.WellFormed ∧ ({ full [0x06, 0x21] with f := [] } : Cmd).op = selectorBits cfgDefault .sendAngle ∧
    ({ full [0x05, 0x3A] with w := [] } : Cmd).op = selectorBits cfgDefault .setEncoder ∧
    refusal (step { host with prog := [{ full [0x06, 0x21] with f := [] }] }) = some .badVectorLength := by decide

/-- `ResetLeavesTheBlockIdle`: each reader on a field that holds a value, and a step that ends in an error. -/
theorem witness_readers :
    readScalar { host with res := Res.okScalar 5 } = .ok 5 ∧ readW { host with res := Res.okW [5] } = .ok [5] ∧
    readF { host with res := Res.okF [one64] } = .ok [one64] ∧ readBytes { host with res := Res.okBytes [5] } = .ok [5] ∧
    readStatus { host with res := Res.okOnly } = .ok .ok ∧
    ∃ t, step (waiting .isMoving 0x2B (.fault 9)) = .next t ∧ t.hpc = 0 + 1 ∧ t.res.status = some (.transportError 9) :=
  ⟨by decide, by decide, by decide, by decide, by decide, _, rfl, rfl, rfl⟩

/-- `StepRunsTheDecodedOperation`: a command, and none. -/
theorem witness_StepRunsTheDecodedOperation :
    ({ host with prog := [tableCmd 16 0x0210] } : State).prog[0]? = some (tableCmd 16 0x0210) ∧
    decode cfgDefault (tableCmd 16 0x0210) = .ok .powerOn ∧ host.prog[host.hpc]? = none := by decide

/-- `FetchedWordRunsNext`. -/
theorem witness_FetchedWordRunsNext :
    host.cfg = cfgDefault ∧ decodeTableWord 16 0x0350 = some (.isServoEnabled .j1) := by decide

/-- `DecodingAnEncodedCommandReturnsIt`. -/
theorem witness_DecodingAnEncodedCommandReturnsIt : cfgDefault.WellFormed := by decide

/-- `EveryRequestDecodesToItsOperation`. -/
theorem witness_EveryRequestDecodesToItsOperation :
    host.cfg.WellFormed ∧ host.phase = .idle ∧ Instr.wellFormed (.sendCoords poseU30 50 1) = true ∧
    isPrim (Instr.op (.sendCoords poseU30 50 1)) = false := by
  refine ⟨by decide, rfl, rfl, rfl⟩

/-- `EveryStepKeepsTheInvariant`, `StepsOnlyAppendToThePorts`: a state that meets the invariant while a reply is awaited, and its step. -/
theorem witness_EveryStepKeepsTheInvariant :
    ∃ t, State.Inv { waiting .isMoving 0x2B (.bytes [])
        with tx := [⟨.writeAndRead, [0xFE, 0xFE, 0x02, 0x2B, 0xFE], .ok⟩] } ∧
      step { waiting .isMoving 0x2B (.bytes []) with tx := [⟨.writeAndRead, [0xFE, 0xFE, 0x02, 0x2B, 0xFE], .ok⟩] } = .next t :=
  ⟨_, by decide, rfl⟩

/-- `EveryWellFormedOperationCompletes`: an operation of each kind. -/
theorem witness_EveryWellFormedOperationCompletes :
    host.phase = .idle ∧ Instr.wellFormed (.get16 [1, 2]) = true ∧ Instr.wellFormed .resume = true ∧
    Instr.wellFormed .version = true := by decide

/-- `PrimitivesTouchOnlyTheResult`. -/
theorem witness_PrimitivesTouchOnlyTheResult : isPrim (Instr.op (.put16 5)) = true ∧ ∃ t, exec (.put16 5) host = .next t :=
  ⟨by decide, _, rfl⟩

/-- `WriteOnlyOperationsReadNothing`. -/
theorem witness_WriteOnlyOperationsReadNothing :
    isPrim (Instr.op (.setEncoder .j1 5)) = false ∧ queryOpcode host.cfg (Instr.op (.setEncoder .j1 5)) = none ∧
    ∃ t, exec (.setEncoder .j1 5) host = .next t :=
  ⟨by decide, by decide, _, rfl⟩

end Sys2Proof.Tests
end

section
/-!
The scope statements (00_scope.md, 10_state.md): the rounding of R12, the two operations that rest on it, and the ports under one step.
-/

namespace Sys2Proof.Scope
open Sys2Proof.Machine

/-! ### The rationals of R12 without their sign -/

theorem ratOf_false (m : Nat) (e : Int) : ratOf false m e = m * (2 : ℚ) ^ e := by simp [ratOf]

theorem abs_ratOf (neg : Bool) (m : Nat) (e : Int) : |ratOf neg m e| = m * (2 : ℚ) ^ e := by
  have h : (0 : ℚ) ≤ m * 2 ^ e := by positivity
  cases neg <;> simp [ratOf, abs_of_nonneg h]

theorem abs_ratQuot (neg : Bool) (num den : Nat) : |ratQuot neg num den| = (num : ℚ) / den := by
  have h : (0 : ℚ) ≤ num / den := by positivity
  cases neg <;> simp [ratQuot, abs_of_nonneg h]

/-- A distance does not change when both ends change sign. -/
theorem abs_ratQuot_sub_ratOf (neg neg' : Bool) (num den m : Nat) (e : Int) :
    |ratQuot neg num den - ratOf neg' m e| = |(num : ℚ) / den - ratOf (neg' != neg) m e| := by
  cases neg
  · simp [ratQuot]
  · rw [← abs_neg]
    congr 1
    cases neg' <;> simp [ratQuot, ratOf] <;> ring

theorem ratOf_bne_eq_iff (neg neg' : Bool) (m m' : Nat) (e e' : Int) :
    ratOf (neg' != neg) m' e' = m * (2 : ℚ) ^ e ↔ ratOf neg' m' e' = ratOf neg m e := by
  cases neg
  · rw [Bool.bne_false, ratOf_false]
  · cases neg' <;> simp [ratOf, neg_eq_iff_eq_neg]

/-- A value of 53 bits is a multiple of the unit `2^e`, or it has a smaller exponent and a magnitude below `2^52` units. -/
theorem ratOf_multiple_or_small (neg : Bool) {m : Nat} (hm : m < 2 ^ 53) (e' e : Int) :
    (∃ k : Int, ratOf neg m e' = k * 2 ^ e) ∨ (e' < e ∧ |ratOf neg m e'| < 2 ^ 52 * 2 ^ e) := by
  have two : (2 : ℚ) ≠ 0 := by norm_num
  rcases le_or_gt e e' with h | h
  · obtain ⟨j, hj⟩ := Int.eq_ofNat_of_zero_le (sub_nonneg.mpr h)
    refine .inl ⟨(if neg then -1 else 1) * m * 2 ^ j, ?_⟩
    rw [show e' = j + e by omega, ratOf, zpow_add₀ two, zpow_natCast]
    split <;> push_cast <;> ring
  · refine .inr ⟨h, ?_⟩
    rw [abs_ratOf]
    have hm' : (m : ℚ) < 2 ^ 53 := by exact_mod_cast hm
    calc (m : ℚ) * 2 ^ e' < 2 ^ 53 * 2 ^ e' := mul_lt_mul_of_pos_right hm' (by positivity)
      _ ≤ 2 ^ 53 * 2 ^ (e - 1) :=
          mul_le_mul_of_nonneg_left (zpow_le_zpow_right₀ one_le_two (by omega)) (by positivity)
      _ = 2 ^ 52 * 2 ^ e := by rw [zpow_sub_one₀ two]; ring

/-! ### The nearest integer -/

/-- `rneQuot` is within one half of the quotient, and is even at a distance of exactly one half. -/
theorem rneQuot_half {n d : Nat} (hd : 0 < d) :
    |(n : ℚ) / d - rneQuot n d| ≤ 1 / 2 ∧ (|(n : ℚ) / d - rneQuot n d| = 1 / 2 → rneQuot n d % 2 = 0) := by
  obtain ⟨hle, hge, htie, -, -⟩ := rneQuot_spec (n := n) hd
  generalize rneQuot n d = M at *
  have hd' : (0 : ℚ) < d := by exact_mod_cast hd
  have hle' : 2 * ((M : ℚ) * d) ≤ 2 * n + d := by exact_mod_cast hle
  have hge' : 2 * (n : ℚ) ≤ 2 * (M * d) + d := by exact_mod_cast hge
  have hsub : (n : ℚ) / d - M = (n - M * d) / d := by field_simp
  rw [hsub, abs_div, abs_of_pos hd', div_le_iff₀ hd', div_eq_iff hd'.ne']
  refine ⟨abs_le.mpr ⟨by linarith, by linarith⟩, fun h => htie ?_⟩
  rcases (abs_eq (by positivity)).mp h with h | h
  · have hup : 2 * (n : ℚ) = 2 * (M * d) + d := by linarith
    exact .inr (by exact_mod_cast hup)
  · have hdown : 2 * ((M : ℚ) * d) = 2 * n + d := by linarith
    exact .inl (by exact_mod_cast hdown)

/-- No integer is nearer to the quotient than `rneQuot`, and `rneQuot` is even where another integer is as near. -/
theorem rneQuot_nearest {n d : Nat} (hd : 0 < d) (k : Int) :
    |(n : ℚ) / d - rneQuot n d| ≤ |(n : ℚ) / d - k| ∧
    (|(n : ℚ) / d - rneQuot n d| = |(n : ℚ) / d - k| → (k : ℚ) ≠ rneQuot n d → rneQuot n d % 2 = 0) := by
  obtain ⟨hhalf, htie⟩ := rneQuot_half (n := n) hd
  by_cases hk : k = rneQuot n d
  · subst hk
    exact ⟨le_of_eq (by simp), fun _ h => absurd (by simp) h⟩
  · have hone : (1 : ℚ) ≤ |(rneQuot n d : ℚ) - k| := by
      have : (1 : Int) ≤ |(rneQuot n d : Int) - k| := Int.one_le_abs (sub_ne_zero.mpr (Ne.symm hk))
      exact_mod_cast this
    have htri := abs_sub_le (rneQuot n d : ℚ) ((n : ℚ) / d) k
    rw [abs_sub_comm _ ((n : ℚ) / d)] at htri
    exact ⟨by linarith, fun h _ => htie (by linarith)⟩

/-- An even integer is reached from the tie below it on. -/
theorem two_mul_le_rneQuot_iff {n d : Nat} (hd : 0 < d) (k : Nat) :
    2 * k ≤ rneQuot n d ↔ (2 * k : ℚ) - 1 / 2 ≤ n / d := by
  obtain ⟨hhalf, htie⟩ := rneQuot_half (n := n) hd
  have ⟨hlo, hhi⟩ := abs_le.mp hhalf
  constructor
  · intro h
    have h' : (2 * k : ℚ) ≤ rneQuot n d := by exact_mod_cast h
    linarith
  · intro h
    by_contra hlt
    have hlt' : (rneQuot n d : ℚ) + 1 ≤ 2 * k := by exact_mod_cast not_le.mp hlt
    have hodd : rneQuot n d + 1 = 2 * k := by
      have : (rneQuot n d : ℚ) + 1 = 2 * k := by linarith
      exact_mod_cast this
    have heven := htie (le_antisymm hhalf (le_trans (by linarith) (le_abs_self _)))
    omega

/-! ### The threshold of the infinity -/

theorem threshold_eq_units : (2 : ℚ) ^ 1024 - 2 ^ 970 = (2 ^ 54 - 1) * 2 ^ (970 : Int) := by
  rw [sub_mul, one_mul, show (1024 : Nat) = 54 + 970 from rfl, pow_add]
  rfl

theorem threshold_pos : (0 : ℚ) < 2 ^ 1024 - 2 ^ 970 := by
  rw [threshold_eq_units]
  exact mul_pos (by norm_num) (by positivity)

theorem eq_f64Inf_of_f64Value {d : F64} {neg : Bool} (h : f64Value d = .inf neg) : d = f64Inf neg := by
  obtain ⟨sign, exp, frac⟩ := d
  unfold f64Value at h
  split at h
  · split at h
    · rename_i hexp hfrac
      obtain rfl : exp = 2047 := BitVec.eq_of_toNat_eq hexp
      obtain rfl : frac = 0 := BitVec.eq_of_toNat_eq hfrac
      cases h
      rfl
    · cases h
  · split at h <;> cases h

/-! ### The significand `rne` rounds to -/

/-- The significand `rne` rounds `num / den` to, before it is packed. -/
def rneSig (num den : Nat) : Nat :=
  rneQuot (rneNum num (rneExp num den)) (rneDen den (rneExp num den))

/-- A distance from the quotient, measured in units of the last place. -/
theorem abs_quot_sub (num den : Nat) (z : ℚ) :
    |(num : ℚ) / den - z * 2 ^ rneExp num den| =
      |(rneNum num (rneExp num den) : ℚ) / rneDen den (rneExp num den) - z| * 2 ^ rneExp num den := by
  have h2 : (0 : ℚ) < 2 ^ rneExp num den := by positivity
  rw [rneNum_div_rneDen, ← abs_of_pos h2, ← abs_mul, abs_of_pos h2, sub_mul, div_mul_cancel₀ _ h2.ne']

/-- Among the multiples of the unit in the last place `rneSig` is the nearest, and `rneSig` is even where another is as near. -/
theorem rneSig_nearest_multiple (num : Nat) {den : Nat} (hd : 0 < den) (k : Int) :
    |(num : ℚ) / den - rneSig num den * 2 ^ rneExp num den| ≤ |(num : ℚ) / den - k * 2 ^ rneExp num den| ∧
    (|(num : ℚ) / den - rneSig num den * 2 ^ rneExp num den| = |(num : ℚ) / den - k * 2 ^ rneExp num den| →
      (k : ℚ) ≠ rneSig num den → rneSig num den % 2 = 0) := by
  have h2 : (0 : ℚ) < 2 ^ rneExp num den := by positivity
  obtain ⟨hle, htie⟩ := rneQuot_nearest (n := rneNum num (rneExp num den)) (rneDen_pos hd (rneExp num den)) k
  rw [abs_quot_sub, abs_quot_sub]
  exact ⟨mul_le_mul_of_nonneg_right hle h2.le, fun h => htie (mul_right_cancel₀ h2.ne' h)⟩

section
variable {num den : Nat} (hn : 0 < num) (hd : 0 < den)
include hn hd

/-- The scaled quotient has at most 53 bits. -/
theorem quot_lt_units : (num : ℚ) / den < 2 ^ 53 * 2 ^ rneExp num den := by
  have h := (rneExp_spec hn hd).2.1
  rwa [div_lt_iff_rat (rneDen_pos hd _), rneNum_div_rneDen, div_lt_iff₀ (by positivity), Nat.cast_pow] at h

/-- Above the least exponent the scaled quotient has 53 bits. -/
theorem units_le_quot (h : -1074 < rneExp num den) : (2 : ℚ) ^ 52 * 2 ^ rneExp num den ≤ num / den := by
  have h' := (rneExp_spec hn hd).2.2.resolve_right (by omega)
  rwa [← not_lt, div_lt_iff_rat (rneDen_pos hd _), rneNum_div_rneDen, div_lt_iff₀ (by positivity), not_lt,
    Nat.cast_pow] at h'

/-- A significand below `2^52` is rounded at the least exponent. -/
theorem rneExp_of_sig_lt (h : rneSig num den < 2 ^ 52) : rneExp num den = -1074 := by
  refine (rneExp_spec hn hd).2.2.resolve_left fun h' => ?_
  obtain ⟨-, -, -, hfloor, -⟩ := rneQuot_spec (n := rneNum num (rneExp num den)) (rneDen_pos hd (rneExp num den))
  exact absurd (h'.trans hfloor) (not_le.mpr h)

/-- No binary64 value, normal or subnormal, is nearer than `rneSig` units, and `rneSig` is even where another is as near. -/
theorem rneSig_nearest (neg : Bool) {m : Nat} {e : Int} (hm : m < 2 ^ 53) (he : -1074 ≤ e) :
    |(num : ℚ) / den - rneSig num den * 2 ^ rneExp num den| ≤ |(num : ℚ) / den - ratOf neg m e| ∧
    (|(num : ℚ) / den - rneSig num den * 2 ^ rneExp num den| = |(num : ℚ) / den - ratOf neg m e| →
      ratOf neg m e ≠ rneSig num den * 2 ^ rneExp num den → rneSig num den % 2 = 0) := by
  rcases ratOf_multiple_or_small neg hm e (rneExp num den) with ⟨k, hk⟩ | ⟨hlt, hsmall⟩
  · rw [hk]
    obtain ⟨hle, htie⟩ := rneSig_nearest_multiple num hd k
    exact ⟨hle, fun h hne => htie h fun hkM => hne (by rw [hkM])⟩
  · -- the least normal significand lies between the small value and the quotient
    have hbetween := units_le_quot hn hd (by omega)
    have hstrict : |(num : ℚ) / den - rneSig num den * 2 ^ rneExp num den| < |(num : ℚ) / den - ratOf neg m e| := by
      calc |(num : ℚ) / den - rneSig num den * 2 ^ rneExp num den|
          ≤ |(num : ℚ) / den - ((2 ^ 52 : Int) : ℚ) * 2 ^ rneExp num den| := (rneSig_nearest_multiple num hd _).1
        _ = (num : ℚ) / den - 2 ^ 52 * 2 ^ rneExp num den := by
            rw [Int.cast_pow, Int.cast_ofNat, abs_of_nonneg (sub_nonneg.mpr hbetween)]
        _ < (num : ℚ) / den - ratOf neg m e := by linarith [le_abs_self (ratOf neg m e)]
        _ ≤ _ := le_abs_self _
    exact ⟨hstrict.le, fun h => absurd h hstrict.ne⟩

/-- The packed exponent, with the carry to `2^53`, is above 971 exactly from `2^1024 - 2^970` on. -/
theorem overflow_iff :
    (971 < rneExp num den ∨ rneExp num den = 971 ∧ rneSig num den = 2 ^ 53) ↔
      (2 : ℚ) ^ 1024 - 2 ^ 970 ≤ (num : ℚ) / den := by
  have two : (2 : ℚ) ≠ 0 := by norm_num
  rw [threshold_eq_units]
  rcases lt_trichotomy (rneExp num den) 971 with h | h | h
  · -- below: fewer than `2^53` units of at most `2^970`
    refine iff_of_false (by omega) (not_le.mpr ?_)
    calc (num : ℚ) / den < 2 ^ 53 * 2 ^ rneExp num den := quot_lt_units hn hd
      _ ≤ (2 ^ 54 - 1) * 2 ^ (970 : Int) :=
          mul_le_mul (by norm_num) (zpow_le_zpow_right₀ one_le_two (by omega)) (by positivity) (by norm_num)
  · -- at the last exponent: from the tie between `2^53 - 1` and `2^53` units on
    have hsig : rneSig num den = 2 ^ 53 ↔ 2 * 2 ^ 52 ≤ rneSig num den := by
      have : rneSig num den ≤ 2 ^ 53 := rneQuot_le hn hd
      omega
    have hunits : (2 * (2 ^ 52 : Nat) - 1 / 2 : ℚ) * 2 ^ (971 : Int) = (2 ^ 54 - 1) * 2 ^ (970 : Int) := by
      rw [show (971 : Int) = 970 + 1 from rfl, zpow_add_one₀ two]
      generalize (2 : ℚ) ^ (970 : Int) = unit
      push_cast
      ring
    rw [hsig, rneSig, two_mul_le_rneQuot_iff (rneDen_pos hd _), rneNum_div_rneDen, le_div_iff₀ (by positivity), h, hunits]
    simp only [lt_irrefl, false_or, true_and]
  · -- above: at least `2^52` units of at least `2^972`
    refine iff_of_true (.inl h) ?_
    calc ((2 : ℚ) ^ 54 - 1) * 2 ^ (970 : Int) ≤ 2 ^ 52 * 2 ^ ((970 : Int) + 2) := by
          rw [zpow_add₀ two, mul_left_comm, mul_comm (_ - _ : ℚ)]
          exact mul_le_mul_of_nonneg_left (by norm_num) (by positivity)
      _ ≤ 2 ^ 52 * 2 ^ rneExp num den :=
          mul_le_mul_of_nonneg_left (zpow_le_zpow_right₀ one_le_two (by omega)) (by positivity)
      _ ≤ (num : ℚ) / den := units_le_quot hn hd (by omega)

/-! ### What a rounded quotient denotes -/

/-- `f64Value_rne` in terms of `rneSig`. -/
theorem f64Value_rne_of_sig (neg : Bool) :
    f64Value (rne neg num den) =
      if rneSig num den < 2 ^ 52 then .fin neg (rneSig num den) (-1074)
      else if rneSig num den = 2 ^ 53 then
        (if 970 < rneExp num den then .inf neg else .fin neg (2 ^ 52) (rneExp num den + 1))
      else if 971 < rneExp num den then .inf neg else .fin neg (rneSig num den) (rneExp num den) :=
  f64Value_rne neg hn hd

/-- From the threshold on, a quotient rounds to the infinity of its sign. -/
theorem rne_eq_f64Inf (neg : Bool) (h : (2 : ℚ) ^ 1024 - 2 ^ 970 ≤ (num : ℚ) / den) : rne neg num den = f64Inf neg := by
  have hover := (overflow_iff hn hd).mpr h
  have hlow : ¬ rneSig num den < 2 ^ 52 := fun hlt => by
    have := rneExp_of_sig_lt hn hd hlt
    omega
  apply eq_f64Inf_of_f64Value
  rw [f64Value_rne_of_sig hn hd, if_neg hlow]
  split
  · exact if_pos (by omega)
  · exact if_pos (by omega)

/-- Below the threshold, a quotient rounds to a finite value of `rneSig` units, whose own significand is even where `rneSig` is. -/
theorem f64Value_rne_finite (neg : Bool) (h : (num : ℚ) / den < (2 : ℚ) ^ 1024 - 2 ^ 970) :
    ∃ m e, f64Value (rne neg num den) = .fin neg m e ∧ ratOf false m e = rneSig num den * 2 ^ rneExp num den ∧
      (rneSig num den % 2 = 0 → m % 2 = 0) := by
  have two : (2 : ℚ) ≠ 0 := by norm_num
  have hover := mt (overflow_iff hn hd).mp (not_le.mpr h)
  have hval := f64Value_rne_of_sig hn hd neg
  by_cases hlow : rneSig num den < 2 ^ 52
  · rw [if_pos hlow] at hval
    exact ⟨_, _, hval, by rw [ratOf_false, rneExp_of_sig_lt hn hd hlow], id⟩
  · by_cases hcarry : rneSig num den = 2 ^ 53
    · rw [if_neg hlow, if_pos hcarry, if_neg (by omega)] at hval
      refine ⟨_, _, hval, ?_, fun _ => by decide⟩
      rw [ratOf_false, hcarry, zpow_add_one₀ two]
      push_cast
      ring
    · rw [if_neg hlow, if_neg hcarry, if_neg (by omega)] at hval
      exact ⟨_, _, hval, ratOf_false _ _, id⟩

end

/-- Settles O1: `rneSig` is nearest among the multiples of the unit in the last place, every other binary64 value is such a multiple or
lies below the least significand of full length, and the packed exponent passes 971 exactly at the threshold. -/
theorem roundingIsNearestTiesToEven : Obligations.RoundingIsNearestTiesToEven := by
  intro neg num den hd
  rw [abs_ratQuot]
  rcases Nat.eq_zero_or_pos num with rfl | hn
  · rw [Nat.cast_zero, zero_div, rne_zero]
    exact ⟨fun h => absurd threshold_pos h.not_gt, fun _ => ⟨0, -1074, f64Value_zero neg, fun d neg' m' e' _ =>
      ⟨by simp [ratQuot, ratOf], fun _ _ => rfl⟩⟩⟩
  · refine ⟨rne_eq_f64Inf hn hd neg, fun h => ?_⟩
    obtain ⟨m, e, hval, hrat, heven⟩ := f64Value_rne_finite hn hd neg h
    refine ⟨m, e, hval, fun d neg' m' e' hd' => ?_⟩
    obtain ⟨-, hm', he', -, -⟩ := f64Value_range hd'
    obtain ⟨hle, htie⟩ := rneSig_nearest hn hd (neg' != neg) hm' he'
    rw [abs_ratQuot_sub_ratOf, abs_ratQuot_sub_ratOf, bne_self_eq_false, hrat]
    refine ⟨hle, fun heq hne => heven (htie heq ?_)⟩
    rwa [← hrat, ratOf_false, ne_eq, ratOf_bne_eq_iff]

/-! ### The product and the quotient -/

theorem ratQuot_pow (neg : Bool) (n d : Nat) (e : Int) :
    ratQuot neg (n * 2 ^ e.toNat) (d * 2 ^ (-e).toNat) = ratQuot neg n d * 2 ^ e := by
  have h := rneNum_div_rneDen n d (-e)
  rw [rneNum, rneDen, neg_neg, zpow_neg, div_inv_eq_mul] at h
  rw [ratQuot, h, ratQuot, mul_assoc]

theorem ratOf_mul (sa sb : Bool) (ma mb : Nat) (ea eb : Int) :
    ratOf sa ma ea * ratOf sb mb eb = ratQuot (sa != sb) (ma * mb) 1 * 2 ^ (ea + eb) := by
  rw [zpow_add₀ two_ne_zero]
  cases sa <;> cases sb <;> simp [ratOf, ratQuot] <;> ring

theorem ratOf_div (sa sb : Bool) (ma mb : Nat) (ea eb : Int) :
    ratOf sa ma ea / ratOf sb mb eb = ratQuot (sa != sb) ma mb * 2 ^ (ea - eb) := by
  rw [zpow_sub₀ two_ne_zero]
  cases sa <;> cases sb <;> simp [ratOf, ratQuot, div_neg, neg_div] <;> ring

/-- Settles O2: the numerator and the denominator the model hands to `rne` are the exact result's. -/
theorem productAndQuotientRoundOnce : Obligations.ProductAndQuotientRoundOnce := by
  intro a b sa sb ma mb ea eb ha hb
  constructor
  · refine ⟨ma * mb * 2 ^ (ea + eb).toNat, 1 * 2 ^ (-(ea + eb)).toNat, by positivity, ?_, ?_⟩
    · rw [ratQuot_pow, ratOf_mul]
    · simp only [fmul, ha, hb, one_mul]
  · intro hne
    have hmb : mb ≠ 0 := by
      rintro rfl
      simp [ratOf] at hne
    refine ⟨ma * 2 ^ (ea - eb).toNat, mb * 2 ^ (-(ea - eb)).toNat, by positivity, ?_, ?_⟩
    · rw [ratQuot_pow, ratOf_div]
    · simp only [fdiv, ha, hb, if_neg hmb]

/-! ### The ports under one step -/

/-- From `s` to `t` the configuration and the program stay, and the ports stay, or one frame is added, or one read is. -/
def AppendsToPorts (s t : State) : Prop :=
  t.cfg = s.cfg ∧ t.prog = s.prog ∧
  ((t.tx = s.tx ∧ t.txAns = s.txAns ∧ t.rx = s.rx ∧ t.rxAns = s.rxAns) ∨
   (∃ e, t.tx = s.tx ++ [e] ∧ e.answer = nextWriteAns s ∧ t.txAns = s.txAns.tail ∧ t.rx = s.rx ∧ t.rxAns = s.rxAns) ∨
   (∃ a, t.rx = s.rx ++ [a] ∧ t.rxAns = s.rxAns.tail ∧ nextReadAns s = some a ∧ t.tx = s.tx ∧ t.txAns = s.txAns))

theorem appendsToPorts_refl (s : State) : AppendsToPorts s s :=
  ⟨rfl, rfl, .inl ⟨rfl, rfl, rfl, rfl⟩⟩

theorem appendsToPorts_primDone (s : State) (r : Res) (n : Nat) : AppendsToPorts s (primDone s r n) :=
  ⟨rfl, rfl, .inl ⟨rfl, rfl, rfl, rfl⟩⟩

theorem appendsToPorts_wrote (s : State) (frame : List Byte) (n : Nat) : AppendsToPorts s (wrote s frame n) :=
  ⟨rfl, rfl, .inr (.inl ⟨_, rfl, rfl, rfl, rfl, rfl⟩)⟩

theorem appendsToPorts_asked (s : State) (op : Op) (opcode : Byte) (frame : List Byte) (n : Nat) :
    AppendsToPorts s (asked s op opcode frame n) := by
  unfold asked
  split
  all_goals
    rename_i h
    exact ⟨rfl, rfl, .inr (.inl ⟨_, rfl, h.symm, rfl, rfl, rfl⟩)⟩

theorem appendsToPorts_exec {i : Instr} {s t : State} (h : exec i s = .next t) : AppendsToPorts s t := by
  obtain ⟨hs, hw⟩ := exec_next_idle h
  rcases exec_shape hs hw with ⟨-, -, r, n, -, -, hx⟩ | ⟨-, -, opcode, payload, n, -, hx⟩ | ⟨-, opcode, payload, n, -, -, hx⟩
  all_goals
    obtain rfl := Host.Outcome.next.inj (h.symm.trans hx)
  · exact appendsToPorts_primDone ..
  · exact appendsToPorts_wrote ..
  · exact appendsToPorts_asked ..

theorem appendsToPorts_deliver_receive {s : State} {a : ReadAns} (h : nextReadAns s = some a) (r : Res) :
    AppendsToPorts s (deliver r (receive a s)) :=
  ⟨rfl, rfl, .inr (.inr ⟨a, rfl, rfl, h, rfl, rfl⟩)⟩

/-- Settles O56, by what a step can do: wait, issue one operation, or take one reply. -/
theorem stepsOnlyAppendToThePorts : Obligations.StepsOnlyAppendToThePorts := by
  intro s t h
  change AppendsToPorts s t
  rcases step_cases h with ⟨-, -, rfl⟩ | ⟨-, c, i, -, -, -, hexec⟩ | ⟨-, hreply⟩
  · exact appendsToPorts_refl _
  · exact appendsToPorts_exec hexec
  · rcases reply_cases hreply with ⟨info, hread, rfl⟩ | ⟨raw, p, r, hread, -, -, -, rfl⟩
    · exact appendsToPorts_deliver_receive hread _
    · exact appendsToPorts_deliver_receive hread _

end Sys2Proof.Scope
end

section
/-!
The state's statements (10_state.md): reading a command record, what the host's result fields answer, what one operation leaves and leaves
alone, and the invariant of the machine.
-/

/-! ### The command record -/

namespace Sys2Proof.BlockState

open Laws.OperandRoundTrip in
/-- The laws of the 36 operations, as one. -/
theorem operandRoundTrip (i : Instr) : Statement i := by
  cases i
  exacts [version, powerOn, powerOff, isPowerOn, releaseAllServos, isControllerConnected, getAngles, sendAngle _ _ _, sendAngles _ _,
    getCoords, sendCoord _ _ _, sendCoords _ _ _, pause, isPaused, resume, stop, isInAnglePosition _, isInCoordPosition _, isMoving,
    jogAngle _ _ _, jogCoord _ _ _, jogStop, setEncoder _ _, getEncoder _, isServoEnabled _, encodeAngle _, encodeCoord _,
    decodeAngle _, decodeCoord _, coordsToInt _, intToCoords _, put16 _, get16 _, buildFrame _ _, parseFrame _ _,
    decodePayload _ _]

/-- Settles O50: the selector bits name the operation, and its operand fields read back. -/
theorem decodingAnEncodedCommandReturnsIt : Obligations.DecodingAnEncodedCommandReturnsIt := by
  intro cfg i hcfg
  have hsel : decodeSelector cfg (encode cfg i).op = .ok i.op := by
    rw [encode, encodeOperands_op]
    exact decodeSelector_selectorBits hcfg i.op
  rw [decode, hsel]
  exact operandRoundTrip i (selectorBits cfg i.op)

theorem decode_of_decodeTableWord {nbits w : Nat} {i : Instr} (h : decodeTableWord nbits w = some i) :
    decode cfgDefault (tableCmd nbits w) = .ok i := by
  rw [decodeTableWord] at h
  cases hd : decode cfgDefault (tableCmd nbits w) with
  | error e => rw [hd] at h; cases h
  | ok j => rw [hd] at h; cases h; rfl

open Sys2Proof.Machine

/-- Settles O49: the placed word stands at the host's index, and no reply is awaited. -/
theorem fetchedWordRunsNext : Obligations.FetchedWordRunsNext := by
  intro s nbits w i hcfg hword
  refine step_of_decode (c := tableCmd nbits w) rfl (placeCmd_getElem? _ s.hpc s.prog) ?_
  change decode s.cfg _ = _
  rw [hcfg]
  exact decode_of_decodeTableWord hword

theorem step_of_no_command {s : State} (hidle : s.phase = .idle) (hc : s.prog[s.hpc]? = none) : step s = .next s := by
  simp [step, hidle, fetchCmd, hc]

/-- Settles O48, by the two equations of `step` in `IDLE`. -/
theorem stepRunsTheDecodedOperation : Obligations.StepRunsTheDecodedOperation :=
  fun _ hidle => ⟨fun _ _ hc hd => step_of_decode hidle hc hd, step_of_no_command hidle⟩

/-! ### The step REPLY -/

theorem reply_of_fault {s : State} {info : ErrInfo} (h : nextReadAns s = some (.fault info)) :
    reply s = .next (answered s (Res.failed info) (.fault info)) := by
  rw [reply, h]
  rfl

theorem reply_of_no_answer {s : State} (h : nextReadAns s = none) : reply s = .fault .noReply := by
  rw [reply, h]

/-- What the step REPLY leaves (R34): one admitted answer taken from `RX`, and a result of R26 with status `OK`, or the error alone. -/
theorem reply_next {s t : State} (h : reply s = .next t) :
    ∃ r a, nextReadAns s = some a ∧ rxOk s.cfg a = true ∧ resOk r = true ∧
      (r.status = some .ok ∨ ∃ info, r = Res.failed info) ∧ t = answered s r a := by
  rcases reply_cases h with ⟨info, hread, rfl⟩ | ⟨raw, p, r, hread, hraw, -, hr, rfl⟩
  · exact ⟨_, _, hread, rfl, resOk_failed info, .inr ⟨info, rfl⟩, rfl⟩
  · obtain ⟨hok, hstatus⟩ := replyResult_ok hr
    exact ⟨r, _, hread, by simp [rxOk, hraw], hok, .inl hstatus, rfl⟩

/-- Settles O43: in `AWAIT_REPLY` the step is REPLY, and a fault at its read aborts. -/
theorem readFaultsAbortTheQuery : Obligations.ReadFaultsAbortTheQuery :=
  fun _ _ hawait hread => (step_awaitReply hawait).trans (reply_of_fault hread)

/-- Settles O45: the admission guard refuses every operation, and REPLY has a next state only from an answer. -/
theorem awaitingAReplyHoldsTheHost : Obligations.AwaitingAReplyHoldsTheHost := by
  intro s hawait
  rw [step_awaitReply hawait]
  refine ⟨fun i => exec_awaitReply i hawait, reply_of_no_answer, fun t h => ?_⟩
  obtain ⟨r, a, hread, -, -, -, rfl⟩ := reply_next h
  exact ⟨a, hread, rfl, rfl, rfl⟩

/-! ### What an operation leaves, by its kind -/

/-- What an operation that has a next state did: a primitive delivered its result, a write-only operation wrote one frame, a query wrote one
frame and awaits the reply or was aborted. Under an admitted configuration the frame is the operation's request. -/
theorem exec_next_cases {i : Instr} {s t : State} (h : exec i s = .next t) :
    (isPrim i.op = true ∧ ∃ r n, resOk r = true ∧ r.status = some .ok ∧ t = primDone s r n) ∨
    (isPrim i.op = false ∧ queryOpcode s.cfg i.op = none ∧
      ∃ frame n, (s.cfg.WellFormed → decodeRequest s.cfg frame = .ok i.op) ∧ t = wrote s frame n) ∨
    (isPrim i.op = false ∧
      ∃ opcode frame n, queryOpcode s.cfg i.op = some opcode ∧
        (s.cfg.WellFormed → decodeRequest s.cfg frame = .ok i.op) ∧ t = asked s i.op opcode frame n) := by
  obtain ⟨hidle, hwf⟩ := exec_next_idle h
  rcases exec_shape hidle hwf with ⟨hprim, -, r, n, hr, hok, hx⟩ | ⟨hprim, hq, opcode, payload, n, hreq, hx⟩ |
    ⟨hprim, opcode, payload, n, hq, hreq, hx⟩
  all_goals
    obtain rfl := Host.Outcome.next.inj (h.symm.trans hx)
  · exact .inl ⟨hprim, r, n, hr, hok, rfl⟩
  · exact .inr (.inl ⟨hprim, hq, _, n, fun hcfg => decodeRequest_of_isRequest hcfg hreq, rfl⟩)
  · exact .inr (.inr ⟨hprim, opcode, _, n, hq, fun hcfg => decodeRequest_of_isRequest hcfg hreq, rfl⟩)

/-- Settles O58: a primitive leaves `primDone`. -/
theorem primitivesTouchOnlyTheResult : Obligations.PrimitivesTouchOnlyTheResult := by
  intro s t i hprim h
  obtain ⟨hidle, -⟩ := exec_next_idle h
  rcases exec_next_cases h with ⟨-, r, n, -, hok, rfl⟩ | ⟨hnot, -⟩ | ⟨hnot, -⟩
  · exact ⟨hok, hidle, hidle, rfl, rfl, rfl, rfl, rfl, rfl, rfl, rfl⟩
  · exact nomatch hprim.symm.trans hnot
  · exact nomatch hprim.symm.trans hnot

/-- Settles O59: an operation that is neither a primitive nor a query leaves `wrote`. -/
theorem writeOnlyOperationsReadNothing : Obligations.WriteOnlyOperationsReadNothing := by
  intro s t i hnot hnone h
  obtain ⟨hidle, -⟩ := exec_next_idle h
  rcases exec_next_cases h with ⟨hprim, -⟩ | ⟨-, -, frame, n, -, rfl⟩ | ⟨-, opcode, frame, n, hsome, -⟩
  · exact nomatch hprim.symm.trans hnot
  · exact ⟨hidle, rfl, rfl, rfl, rfl, rfl, rfl, rfl, frame, rfl⟩
  · rw [hnone] at hsome
    cases hsome

/-- What a query's write leaves: the reply awaited, with `RES` and the host's index as they were, or the error delivered. -/
theorem asked_cases (s : State) (op : Op) (opcode : Byte) (frame : List Byte) (n : Nat) :
    ((asked s op opcode frame n).phase = .awaitReply ∧ (asked s op opcode frame n).hpc = s.hpc) ∨
    ((asked s op opcode frame n).phase = s.phase ∧ (asked s op opcode frame n).hpc = s.hpc + 1 ∧
      ∃ info, (asked s op opcode frame n).res = Res.failed info) := by
  unfold asked
  split
  · exact .inl ⟨rfl, rfl⟩
  · exact .inr ⟨rfl, rfl, _, rfl⟩

/-! ### Reset and the readers of `RES` -/

theorem resOfWrite_cases (a : WriteAns) : (resOfWrite a).status = some .ok ∨ ∃ info, resOfWrite a = Res.failed info := by
  cases a with
  | ok => exact .inl rfl
  | fault info => exact .inr ⟨info, rfl⟩

/-- A step that advances the host's index delivers `OK`, or an error and no other field (R26, R225). -/
theorem step_delivers {s t : State} (h : step s = .next t) (hhpc : t.hpc = s.hpc + 1) :
    t.res.status = some .ok ∨ ∃ info, t.res = Res.failed info := by
  rcases step_cases h with ⟨-, -, rfl⟩ | ⟨-, c, i, -, -, -, hexec⟩ | ⟨-, hreply⟩
  · omega
  · rcases exec_next_cases hexec with ⟨-, r, n, -, hok, rfl⟩ | ⟨-, -, frame, n, -, rfl⟩ | ⟨-, opcode, frame, n, -, -, rfl⟩
    · exact .inl hok
    · exact resOfWrite_cases (nextWriteAns s)
    · rcases asked_cases s i.op opcode frame n with ⟨-, hsame⟩ | ⟨-, -, hfailed⟩
      · omega
      · exact .inr hfailed
  · obtain ⟨r, a, -, -, -, hstatus, rfl⟩ := reply_next hreply
    exact hstatus

/-- A step that delivers a `TransportError` delivers no other field. -/
theorem res_of_step_transportError {s t : State} {info : ErrInfo} (h : step s = .next t) (hhpc : t.hpc = s.hpc + 1)
    (herr : t.res.status = some (.transportError info)) : t.res = Res.failed info := by
  rcases step_delivers h hhpc with hok | ⟨info', hfailed⟩
  · rw [hok] at herr
    cases herr
  · rw [hfailed] at herr ⊢
    cases herr
    rfl

theorem elim_noValue_eq_ok {α : Type} (o : Option α) (v : α) :
    o.elim (.error Fault.noValue) .ok = (.ok v : Except Fault α) ↔ o = some v := by
  cases o <;> simp

theorem elim_noValue_eq_error {α : Type} (o : Option α) :
    o.elim (.error Fault.noValue) .ok = (.error .noValue : Except Fault α) ↔ o = none := by
  cases o <;> simp

/-- Settles O53: every reader is the one elimination of its field, and a delivered error is the status alone. -/
theorem resetLeavesTheBlockIdle : Obligations.ResetLeavesTheBlockIdle := by
  refine ⟨⟨rfl, rfl, rfl, rfl, rfl, rfl, rfl, rfl, rfl, rfl⟩, fun s => ?_, fun s t info h hhpc herr => ?_⟩
  · exact ⟨elim_noValue_eq_ok _, elim_noValue_eq_error _, elim_noValue_eq_ok _, elim_noValue_eq_error _, elim_noValue_eq_ok _,
      elim_noValue_eq_error _, elim_noValue_eq_ok _, elim_noValue_eq_error _, elim_noValue_eq_ok _, elim_noValue_eq_error _⟩
  · have hres := res_of_step_transportError h hhpc herr
    simp only [readStatus, readScalar, readW, readF, readBytes, hres]
    exact ⟨rfl, rfl, rfl, rfl, rfl⟩

/-! ### The invariant -/

/-- Settles O54: the opcodes of CFG_DEFAULT are distinct, and nothing has been pending, sent or read. -/
theorem resetMeetsTheInvariant : Obligations.ResetMeetsTheInvariant :=
  ⟨by decide, rfl, rfl, rfl, rfl, rfl⟩

theorem txOk_of_decodeRequest {cfg : Config} {call : Call} {frame : List Byte} {op : Op}
    (hdecode : decodeRequest cfg frame = .ok op)
    (hcall : call = if (queryOpcode cfg op).isSome then .writeAndRead else .write) (a : WriteAns) :
    txOk cfg ⟨call, frame, a⟩ = true := by
  simp [txOk, hdecode, isQuery_eq cfg, hcall]

theorem readsBegun_append (tx : List TxEntry) (e : TxEntry) :
    readsBegun (tx ++ [e]) = readsBegun tx + if e.call = .writeAndRead ∧ e.answer = .ok then 1 else 0 := by
  simp [readsBegun, List.countP_singleton]

theorem resOk_resOfWrite (a : WriteAns) : resOk (resOfWrite a) = true := by cases a <;> rfl

theorem inv_primDone {s : State} {r : Res} (n : Nat) (hinv : s.Inv) (hidle : s.phase = .idle) (hr : resOk r = true) :
    (primDone s r n).Inv := by
  obtain ⟨hcfg, -, -, htx, hrx, hreads⟩ := hinv
  exact ⟨hcfg, by simp [pendOk, primDone, hidle], hr, htx, hrx, hreads⟩

theorem inv_wrote {s : State} {op : Op} {frame : List Byte} (n : Nat) (hinv : s.Inv) (hidle : s.phase = .idle)
    (hnone : queryOpcode s.cfg op = none) (hdecode : decodeRequest s.cfg frame = .ok op) : (wrote s frame n).Inv := by
  obtain ⟨hcfg, -, -, htx, hrx, hreads⟩ := hinv
  have hentry := txOk_of_decodeRequest (call := .write) hdecode (by simp [hnone]) (nextWriteAns s)
  refine ⟨hcfg, by simp [pendOk, wrote, hidle], resOk_resOfWrite _, ?_, hrx, ?_⟩
  · simpa [wrote, hentry] using htx
  · simpa [wrote, readsBegun_append] using hreads

theorem inv_asked {s : State} {op : Op} {opcode : Byte} {frame : List Byte} (n : Nat) (hinv : s.Inv) (hidle : s.phase = .idle)
    (hsome : queryOpcode s.cfg op = some opcode) (hdecode : decodeRequest s.cfg frame = .ok op) :
    (asked s op opcode frame n).Inv := by
  obtain ⟨hcfg, -, hres, htx, hrx, hreads⟩ := hinv
  have hentry := txOk_of_decodeRequest (call := .writeAndRead) hdecode (by simp [hsome])
  rw [hidle] at hreads
  unfold asked
  split
  · refine ⟨hcfg, by simp [pendOk, hsome], hres, ?_, hrx, ?_⟩
    · simpa [hentry] using htx
    · simpa [readsBegun_append, readsOutstanding] using hreads
  · refine ⟨hcfg, by simp [pendOk, hidle], rfl, ?_, hrx, ?_⟩
    · simpa [hentry] using htx
    · simpa [readsBegun_append, hidle] using hreads

theorem inv_answered {s : State} {r : Res} {a : ReadAns} (hinv : s.Inv) (hawait : s.phase = .awaitReply) (hr : resOk r = true)
    (ha : rxOk s.cfg a = true) : (answered s r a).Inv := by
  obtain ⟨hcfg, -, -, htx, hrx, hreads⟩ := hinv
  rw [hawait] at hreads
  refine ⟨hcfg, rfl, hr, htx, ?_, ?_⟩
  · simpa [answered, ha] using hrx
  · simpa [answered, readsOutstanding] using hreads

/-- An operation keeps the invariant. -/
theorem inv_exec {i : Instr} {s t : State} (hinv : s.Inv) (h : exec i s = .next t) : t.Inv := by
  obtain ⟨hidle, -⟩ := exec_next_idle h
  have hcfg : s.cfg.WellFormed := hinv.1
  rcases exec_next_cases h with ⟨-, r, n, hr, -, rfl⟩ | ⟨-, hnone, frame, n, hdecode, rfl⟩ |
    ⟨-, opcode, frame, n, hsome, hdecode, rfl⟩
  · exact inv_primDone n hinv hidle hr
  · exact inv_wrote n hinv hidle hnone (hdecode hcfg)
  · exact inv_asked n hinv hidle hsome (hdecode hcfg)

/-- Settles O55, by what a step can do: wait, issue one operation, or take one reply. -/
theorem everyStepKeepsTheInvariant : Obligations.EveryStepKeepsTheInvariant := by
  intro s t hinv h
  rcases step_cases h with ⟨-, -, rfl⟩ | ⟨-, c, i, -, -, -, hexec⟩ | ⟨hawait, hreply⟩
  · exact hinv
  · exact inv_exec hinv hexec
  · obtain ⟨r, a, -, ha, hr, -, rfl⟩ := reply_next hreply
    exact inv_answered hinv hawait hr ha

/-! ### An earlier result is read by nothing -/

/-- The outcome with `r` for `RES` in a next state that `undelivered` picks: one to which no result was delivered. -/
def overlay (undelivered : State → Bool) (r : Res) : Out → Out
  | .next t => .next (if undelivered t then { t with res := r } else t)
  | o => o

/-- The outcome with `r` for `RES` where a reply is awaited: what an operation does with `r` as the old result. -/
abbrev overlayAwaiting : Res → Out → Out := overlay fun t => decide (t.phase = .awaitReply)

theorem whenIdle_res {s : State} {r : Res} {k k' : Out} (h : k' = overlayAwaiting r k) :
    whenIdle { s with res := r } k' = overlayAwaiting r (whenIdle s k) := by
  subst h
  cases hp : s.phase <;> simp [whenIdle, hp, overlay]

theorem withSix_res {α : Type} (v : List α) {r : Res} {k k' : Out} (h : k' = overlayAwaiting r k) :
    withSix v k' = overlayAwaiting r (withSix v k) := by
  subst h
  by_cases hv : v.length = 6
  · simp only [withSix_six hv]
  · simp only [withSix_not_six hv, overlay]

theorem issuePrim_res (r' : Res) (n : Nat) (s : State) (r : Res) :
    issuePrim r' n { s with res := r } = overlayAwaiting r (issuePrim r' n s) := rfl

theorem issueWrite_res (opcode : Byte) (payload : List Byte) (n : Nat) (s : State) (r : Res) :
    issueWrite opcode payload n { s with res := r } = overlayAwaiting r (issueWrite opcode payload n s) := by
  unfold issueWrite
  rw [nextWriteAns_res]
  cases buildFrame s.cfg opcode payload with
  | none => rfl
  | some frame => cases nextWriteAns s <;> rfl

theorem issueQuery_res (op : Op) (opcode : Byte) (payload : List Byte) (n : Nat) (s : State) (r : Res) :
    issueQuery op opcode payload n { s with res := r } = overlayAwaiting r (issueQuery op opcode payload n s) := by
  unfold issueQuery
  rw [nextWriteAns_res]
  cases buildFrame s.cfg opcode payload with
  | none => rfl
  | some frame => cases nextWriteAns s <;> rfl

/-- An operation does with `r` as the old result what it does without, by the step it takes; only an awaited reply leaves `r` in place. -/
theorem exec_res (i : Instr) (s : State) (r : Res) : exec i { s with res := r } = overlayAwaiting r (exec i s) := by
  cases i with
  | encodeAngle | encodeCoord | decodeAngle | decodeCoord | put16 | parseFrame | decodePayload =>
    exact whenIdle_res (issuePrim_res ..)
  | coordsToInt | intToCoords => exact whenIdle_res (withSix_res _ (issuePrim_res ..))
  | get16 bytes => exact whenIdle_res (by split <;> rfl)
  | buildFrame opcode payload => exact whenIdle_res (by cases Machine.buildFrame s.cfg opcode payload <;> rfl)
  | powerOn | powerOff | releaseAllServos | sendAngle | sendCoord | pause | resume | stop | jogAngle | jogCoord | jogStop
  | setEncoder =>
    exact whenIdle_res (issueWrite_res ..)
  | sendAngles | sendCoords => exact whenIdle_res (withSix_res _ (issueWrite_res ..))
  | version | isPowerOn | isControllerConnected | getAngles | getCoords | isPaused | isMoving | getEncoder | isServoEnabled =>
    exact whenIdle_res (issueQuery_res ..)
  | isInAnglePosition | isInCoordPosition => exact whenIdle_res (withSix_res _ (issueQuery_res ..))

/-- After an operation the host's index stands still exactly where a reply is awaited. -/
theorem exec_next_hpc {i : Instr} {s t : State} (h : exec i s = .next t) : t.phase = .awaitReply ↔ t.hpc = s.hpc := by
  obtain ⟨hidle, -⟩ := exec_next_idle h
  rcases exec_next_cases h with ⟨-, r, n, -, -, rfl⟩ | ⟨-, -, frame, n, -, rfl⟩ | ⟨-, opcode, frame, n, -, -, rfl⟩
  · simp [primDone, hidle]
  · simp [wrote, hidle]
  · rcases asked_cases s i.op opcode frame n with ⟨hphase, hsame⟩ | ⟨hphase, hnext, -⟩
    · simp [hphase, hsame]
    · simp [hphase, hnext, hidle]

/-- The result a reply delivers overwrites the old one whole. -/
theorem reply_res (s : State) (r : Res) : reply { s with res := r } = reply s := rfl

/-- The pick matters only on the next state. -/
theorem overlay_congr {u v : State → Bool} {r : Res} {o : Out} (h : ∀ t, o = .next t → u t = v t) :
    overlay u r o = overlay v r o := by
  cases o with
  | next t => simp only [overlay, h t rfl]
  | fault | refused => rfl

theorem overlay_of_delivered {u : State → Bool} {r : Res} {o : Out} (h : ∀ t, o = .next t → u t = false) :
    overlay u r o = o := by
  cases o with
  | next t => simp [overlay, h t rfl]
  | fault | refused => rfl

/-- A step does with `r` as the old result what it does without, but for the result it leaves in place. -/
theorem step_res (s : State) (r : Res) :
    step { s with res := r } = overlay (fun t => decide (t.hpc = s.hpc)) r (step s) := by
  obtain hidle | hawait : s.phase = .idle ∨ s.phase = .awaitReply := by cases s.phase <;> simp
  · cases hc : s.prog[s.hpc]? with
    | none =>
      rw [step_of_no_command hidle hc, step_of_no_command (s := { s with res := r }) hidle hc]
      simp [overlay]
    | some c =>
      cases hd : decode s.cfg c with
      | error e =>
        rw [step_of_decode_error hidle hc hd, step_of_decode_error (s := { s with res := r }) hidle hc hd]
        rfl
      | ok i =>
        rw [step_of_decode hidle hc hd, step_of_decode (s := { s with res := r }) hidle hc hd, exec_res]
        exact overlay_congr fun t h => decide_eq_decide.mpr (exec_next_hpc h)
  · rw [step_awaitReply hawait, step_awaitReply (s := { s with res := r }) hawait, reply_res, overlay_of_delivered]
    intro t h
    obtain ⟨r', a, -, -, -, -, rfl⟩ := reply_next h
    simp [answered]

/-- Settles O60: `exec_res` for the issue, `step_res` for the step, REPLY included. -/
theorem noOperationReadsAnEarlierResult : Obligations.NoOperationReadsAnEarlierResult := by
  intro s r
  refine ⟨fun i => (exec_res i s r).trans ?_, (step_res s r).trans ?_⟩
  · cases exec i s <;> simp [overlay]
  · cases step s <;> simp [overlay]

end Sys2Proof.BlockState
end

section
/-!
The memory statements (20_memory.md): a number stored big-endian in a buffer reads back, and the bytes beside it stand.
-/

namespace Sys2Proof.Buffer
open Sys2Proof.Machine

/-! ### The big-endian image of a number -/

@[simp] theorem bytesOfWord_length (n v : Nat) : (bytesOfWord n v).length = n := by
  induction n with
  | zero => rfl
  | succ n ih => simp [bytesOfWord, ih]

theorem foldl_bytesOfWord (acc n v : Nat) :
    (bytesOfWord n v).foldl (fun a b => a * 256 + b.toNat) acc = acc * 256 ^ n + v % 256 ^ n := by
  induction n generalizing acc with
  | zero => simp [bytesOfWord, Nat.mod_one]
  | succ n ih =>
    rw [bytesOfWord, List.foldl_cons, ih, BitVec.toNat_ofNat, Nat.mod_pow_succ (b := 256)]
    ring

/-- A number read from its own `n`-byte image is the number modulo `256 ^ n`. -/
theorem bigEndian_bytesOfWord (n v : Nat) : bigEndian (bytesOfWord n v) = v % 256 ^ n := by
  rw [bigEndian, foldl_bytesOfWord, Nat.zero_mul, Nat.zero_add]

/-! ### Where an access is defined -/

theorem memRead_eq_none {buf : List Byte} {i n : Nat} (h : buf.length < i + n) : memRead buf i n = none :=
  if_neg (Nat.not_le.mpr h)

theorem memWrite_eq_none {buf : List Byte} {i n : Nat} (h : buf.length < i + n) (v : Nat) : memWrite buf i n v = none :=
  if_neg (Nat.not_le.mpr h)

theorem memWrite_eq_some {buf buf' : List Byte} {i n v : Nat} :
    memWrite buf i n v = some buf' ↔
      i + n ≤ buf.length ∧ buf.take i ++ bytesOfWord n v ++ buf.drop (i + n) = buf' := by
  simp [memWrite]

/-! ### What stands in a buffer after a write -/

section
variable {buf buf' : List Byte} {i n v : Nat} (h : memWrite buf i n v = some buf')
include h

theorem memWrite_length : buf'.length = buf.length := by
  obtain ⟨hn, rfl⟩ := memWrite_eq_some.mp h
  simp
  omega

theorem memWrite_getElem?_inside {j : Nat} (hj : j < n) : buf'[i + j]? = (bytesOfWord n v)[j]? := by
  obtain ⟨hn, rfl⟩ := memWrite_eq_some.mp h
  have hi : (buf.take i).length = i := List.length_take_of_le (by omega)
  rw [List.append_assoc, List.getElem?_append_right (by omega), hi, Nat.add_sub_cancel_left,
    List.getElem?_append_left (by simpa using hj)]

theorem memWrite_getElem?_outside {j : Nat} (hj : j < i ∨ i + n ≤ j) : buf'[j]? = buf[j]? := by
  obtain ⟨hn, rfl⟩ := memWrite_eq_some.mp h
  have hi : (buf.take i).length = i := List.length_take_of_le (by omega)
  rcases hj with hj | hj
  · rw [List.append_assoc, List.getElem?_append_left (by omega), List.getElem?_take_of_lt hj]
  · have hin : (buf.take i ++ bytesOfWord n v).length = i + n := by simp [hi]
    rw [List.getElem?_append_right (by omega), hin, List.getElem?_drop, Nat.add_sub_cancel' hj]

/-- A field of any width reads back, modulo what its width can hold. -/
theorem memRead_memWrite : memRead buf' i n = some (v % 256 ^ n) := by
  have hlen := memWrite_length h
  obtain ⟨hn, rfl⟩ := memWrite_eq_some.mp h
  have hi : (buf.take i).length = i := List.length_take_of_le (by omega)
  rw [memRead, if_pos (hlen ▸ hn), List.append_assoc, List.drop_left' hi, List.take_left' (bytesOfWord_length n v),
    bigEndian_bytesOfWord]

end

/-- Settles O24, by the laws of `memWrite` at width 2. -/
theorem bufferFieldReadsBackWhatWasStored : Obligations.BufferFieldReadsBackWhatWasStored := by
  intro buf i v hv
  refine ⟨fun hin => ?_, fun hout => ⟨memWrite_eq_none hout v, memRead_eq_none hout⟩⟩
  obtain ⟨buf', hw⟩ : ∃ buf', memWrite buf i 2 v = some buf' := ⟨_, memWrite_eq_some.mpr ⟨hin, rfl⟩⟩
  have hhigh : buf'[i]? = some (BitVec.ofNat 8 (v / 256)) := by
    simpa [bytesOfWord] using memWrite_getElem?_inside hw (j := 0) (by decide)
  have hlow : buf'[i + 1]? = some (BitVec.ofNat 8 v) := by
    simpa [bytesOfWord] using memWrite_getElem?_inside hw (j := 1) (by decide)
  refine ⟨buf', hw, memWrite_length hw, ?_, ?_, ?_, fun j hj => memWrite_getElem?_outside hw hj⟩
  · rw [memRead_memWrite hw, Nat.mod_eq_of_lt (show v < 256 ^ 2 from hv)]
  · rw [memRead_one, hhigh, Option.map_some, BitVec.toNat_ofNat, Nat.mod_eq_of_lt (by omega)]
  · rw [memRead_one, hlow, Option.map_some, BitVec.toNat_ofNat]

end Sys2Proof.Buffer
end

section
/-!
The encoding's statements (30_encoding.md): the layout of a built frame, the words of the opcode table, and the frame each catalog operation
hands to the transport.
-/

namespace Sys2Proof.Encoding
open Sys2Proof.Machine

/-! ### The layout of a built frame -/

section
variable {cfg : Config} {opcode : Byte} {payload frame : List Byte} (h : buildFrame cfg opcode payload = some frame)
include h

theorem buildFrame_length : frame.length = payload.length + 5 := by
  obtain ⟨-, rfl⟩ := buildFrame_some h
  simp

/-- The four bytes before the payload (R60). -/
theorem buildFrame_header :
    frame[0]? = some cfg.sentinel ∧ frame[1]? = some cfg.sentinel ∧ frame[2]? = some (BitVec.ofNat 8 (payload.length + 2)) ∧
      frame[3]? = some opcode := by
  obtain ⟨-, rfl⟩ := buildFrame_some h
  exact ⟨rfl, rfl, rfl, rfl⟩

/-- The length byte does not wrap: at most 253 payload bytes give at most 255. -/
theorem buildFrame_lengthByte_toNat : frame[2]?.map BitVec.toNat = some (payload.length + 2) := by
  obtain ⟨hle, -⟩ := buildFrame_some h
  obtain ⟨-, -, hlen, -⟩ := buildFrame_header h
  rw [hlen, Option.map_some, BitVec.toNat_ofNat, Nat.mod_eq_of_lt (by omega)]

/-- The payload and the trailer stand from index 4 on (R60). -/
theorem buildFrame_drop_header (k : Nat) : frame[4 + k]? = (payload ++ [cfg.sentinel])[k]? := by
  obtain ⟨-, rfl⟩ := buildFrame_some h
  rw [List.append_assoc, List.getElem?_append_right (by simp)]
  simp

theorem buildFrame_payload {k : Nat} (hk : k < payload.length) : frame[4 + k]? = payload[k]? := by
  rw [buildFrame_drop_header h, List.getElem?_append_left hk]

theorem buildFrame_trailer : frame[4 + payload.length]? = some cfg.sentinel := by
  rw [buildFrame_drop_header h, List.getElem?_concat_length]

end

/-- `build_frame` delivers the built frame (R130). -/
theorem exec_buildFrame {s : State} {opcode : Byte} {payload frame : List Byte} (hs : s.phase = .idle)
    (h : buildFrame s.cfg opcode payload = some frame) :
    exec (.buildFrame opcode payload) s = .next (primDone s ⟨some .ok, none, none, none, some frame⟩ 0) := by
  change whenIdle s _ = _
  rw [whenIdle_idle hs, h]
  exact issuePrim_idle hs

/-- Settles O15: the frame `buildFrame` answers, its bytes by `buildFrame_header`, `buildFrame_payload` and `buildFrame_trailer`. -/
theorem buildFrameWrapsThePayload : Obligations.BuildFrameWrapsThePayload := by
  intro s opcode payload hs hle
  obtain ⟨frame, h⟩ : ∃ frame, buildFrame s.cfg opcode payload = some frame := ⟨_, buildFrame_of_le hle⟩
  obtain ⟨hfirst, hsecond, -, hopcode⟩ := buildFrame_header h
  exact ⟨frame, exec_buildFrame hs h, buildFrame_length h, hfirst, hsecond, buildFrame_lengthByte_toNat h, hopcode,
    fun _ => buildFrame_payload h, buildFrame_trailer h⟩

/-! ### The words of the opcode table -/

/-- Settles O51: each word runs through the decoder. -/
theorem tableWordsDecodeToTheirOperations : Obligations.TableWordsDecodeToTheirOperations := by
  unfold Obligations.TableWordsDecodeToTheirOperations
  decide

/-! ### The frame a catalog operation sends -/

theorem asked_tx (s : State) (op : Op) (opcode : Byte) (frame : List Byte) (n : Nat) :
    (asked s op opcode frame n).tx = s.tx ++ [⟨.writeAndRead, frame, nextWriteAns s⟩] := by
  unfold asked
  cases nextWriteAns s <;> rfl

/-- A catalog operation's request is a frame of the operation's fixed length (R62). -/
theorem frame_length_of_isRequest {cfg : Config} {op : Op} {opcode : Byte} {payload : List Byte}
    (h : IsRequest cfg op opcode payload) :
    ([cfg.sentinel, cfg.sentinel, BitVec.ofNat 8 (payload.length + 2), opcode] ++ payload ++ [cfg.sentinel]).length =
      payloadLen op + 5 := by
  rw [buildFrame_length (buildFrame_of_le h.length_le), h.length_eq]

/-- Settles O52: a write-only operation and a query each hand over the one frame of their request, which the request map reads back. -/
theorem everyRequestDecodesToItsOperation : Obligations.EveryRequestDecodesToItsOperation := by
  intro s i hcfg hs hwf hcatalog
  rcases exec_shape hs hwf with ⟨hprim, -⟩ | ⟨-, hnone, opcode, payload, n, hreq, hexec⟩ |
    ⟨-, opcode, payload, n, hsome, hreq, hexec⟩
  · exact nomatch hprim.symm.trans hcatalog
  · exact ⟨_, _, hexec, rfl, rfl, decodeRequest_of_isRequest hcfg hreq, frame_length_of_isRequest hreq, by rw [hnone]; rfl⟩
  · exact ⟨_, _, hexec, asked_tx .., rfl, decodeRequest_of_isRequest hcfg hreq, frame_length_of_isRequest hreq, by rw [hsome]; rfl⟩

end Sys2Proof.Encoding
end

section
/-!
Rounding as a function of the quotient: the exponent that fits, the rounded magnitude and its distance, and the integer part of a
rounded quotient.
-/

namespace Sys2Proof.Rounding
open Sys2Proof.Machine Sys2Proof.Scope

/-- Powers of two that enclose one value compare by their exponents. -/
theorem exponent_lt {q : ℚ} {i j : Nat} {a b : Int} (hlo : (2 : ℚ) ^ i * 2 ^ a ≤ q) (hhi : q < 2 ^ j * 2 ^ b) :
    i + a < j + b := by
  have h := lt_of_le_of_lt hlo hhi
  rwa [← zpow_natCast, ← zpow_natCast, ← zpow_add₀ two_ne_zero, ← zpow_add₀ two_ne_zero,
    zpow_lt_zpow_iff_right₀ one_lt_two] at h

/-- A natural number in units of a negative power of two. -/
theorem natCast_eq_units (k : Nat) {j : Nat} {e : Int} (h : e = -(j : Int)) : (k : ℚ) = (k * 2 ^ j : Nat) * 2 ^ e := by
  rw [h, zpow_neg, zpow_natCast]
  push_cast
  field_simp

theorem num_pos_of_quot_pos {num den : Nat} (h : (0 : ℚ) < num / den) : 0 < num := by
  refine Nat.pos_of_ne_zero fun h0 => h.ne' ?_
  rw [h0, Nat.cast_zero, zero_div]

/-! ### The rounding depends on the quotient alone -/

theorem rneQuot_mul_left {k : Nat} (hk : 0 < k) (n d : Nat) : rneQuot (k * n) (k * d) = rneQuot n d := by
  have hscale : ∀ a b : Nat, k * a < 2 * (k * b) ↔ a < 2 * b := fun a b => by
    rw [Nat.mul_left_comm, Nat.mul_lt_mul_left hk]
  have htie : ∀ a b : Nat, 2 * (k * a) = k * b ↔ 2 * a = b := fun a b => by
    rw [Nat.mul_left_comm, Nat.mul_right_inj hk.ne']
  simp only [rneQuot, Nat.mul_div_mul_left n d hk, Nat.mul_mod_mul_left, hscale, htie]

theorem rneQuot_congr {n d n' d' : Nat} (hd : 0 < d) (hd' : 0 < d') (h : (n : ℚ) / d = n' / d') :
    rneQuot n d = rneQuot n' d' := by
  rw [div_eq_div_iff (by positivity) (by positivity)] at h
  have hcross : d' * n = d * n' := by
    rw [Nat.mul_comm, Nat.mul_comm d]
    exact_mod_cast h
  rw [← rneQuot_mul_left hd', hcross, Nat.mul_comm d' d, rneQuot_mul_left hd]

/-- An even integer at a distance of at most one half is the one `rneQuot` rounds to. -/
theorem rneQuot_eq_of_even {n d k : Nat} (hd : 0 < d) (hk : |(n : ℚ) / d - 2 * k| ≤ 1 / 2) : rneQuot n d = 2 * k := by
  obtain ⟨hlo, hhi⟩ := abs_le.mp hk
  refine le_antisymm ?_ ((two_mul_le_rneQuot_iff hd k).mpr (by linarith))
  by_contra hlt
  obtain ⟨hhalf, htie⟩ := rneQuot_half (n := n) hd
  have hhalf' := abs_le.mp hhalf
  have hlt' : (2 * k + 1 : ℚ) ≤ rneQuot n d := by exact_mod_cast not_le.mp hlt
  have hodd : rneQuot n d = 2 * k + 1 := by
    have : (rneQuot n d : ℚ) = 2 * k + 1 := by linarith
    exact_mod_cast this
  have heven := htie (le_antisymm hhalf (by rw [le_abs]; right; linarith))
  omega

/-- A quotient that is an integer rounds to it. -/
theorem rneQuot_eq_of_exact {n d k : Nat} (hd : 0 < d) (h : (n : ℚ) / d = k) : rneQuot n d = k := by
  rw [rneQuot_congr (n' := k) (d' := 1) hd Nat.one_pos (by simpa using h)]
  simp [rneQuot, Nat.mod_one]

/-- The magnitude `rne` rounds `num / den` to, before an exponent that is too large gives the infinity. -/
def rneMag (num den : Nat) : ℚ := rneSig num den * 2 ^ rneExp num den

theorem rneMag_nonneg (num den : Nat) : 0 ≤ rneMag num den := by
  unfold rneMag
  positivity

theorem rneMag_zero {den : Nat} (hd : 0 < den) : rneMag 0 den = 0 := by
  have h : rneSig 0 den = 0 := rneQuot_eq_of_exact (rneDen_pos hd _) (by simp [rneNum])
  rw [rneMag, h, Nat.cast_zero, zero_mul]

/-- The rounded magnitude is within half a unit of the last place. -/
theorem abs_quot_sub_rneMag (num : Nat) {den : Nat} (hd : 0 < den) :
    |(num : ℚ) / den - rneMag num den| ≤ 2 ^ rneExp num den / 2 := by
  rw [rneMag, abs_quot_sub]
  have h := (rneQuot_half (n := rneNum num (rneExp num den)) (rneDen_pos hd (rneExp num den))).1
  calc _ ≤ 1 / 2 * (2 : ℚ) ^ rneExp num den := mul_le_mul_of_nonneg_right h (by positivity)
    _ = _ := by ring

/-- A multiple of the unit in the last place rounds to itself. -/
theorem rneMag_eq_of_multiple {num den k : Nat} (hd : 0 < den) (h : (num : ℚ) / den = k * 2 ^ rneExp num den) :
    rneMag num den = num / den := by
  have hsig : rneSig num den = k := by
    refine rneQuot_eq_of_exact (rneDen_pos hd _) ?_
    rw [rneNum_div_rneDen, h, mul_div_cancel_right₀ _ (by positivity)]
  rw [rneMag, hsig, h]

/-- A natural number within half a unit of the last place, even in those units, is what the quotient rounds to. -/
theorem rneMag_eq_of_near_nat {num den k : Nat} (hd : 0 < den) (hexp : rneExp num den ≤ -1)
    (h : |(num : ℚ) / den - k| ≤ 2 ^ rneExp num den / 2) : rneMag num den = k := by
  obtain ⟨j, hj⟩ := Int.eq_ofNat_of_zero_le (show 0 ≤ -1 - rneExp num den by omega)
  have hunit : (0 : ℚ) < 2 ^ rneExp num den := by positivity
  have hunits : (k : ℚ) = 2 * ((k * 2 ^ j : Nat) : ℚ) * 2 ^ rneExp num den := by
    rw [natCast_eq_units k (j := j + 1) (e := rneExp num den) (by push_cast; omega), pow_succ]
    push_cast
    ring
  have hsig : rneSig num den = 2 * (k * 2 ^ j) := by
    refine rneQuot_eq_of_even (rneDen_pos hd _) ?_
    rw [rneNum_div_rneDen, ← mul_le_mul_iff_left₀ hunit, ← abs_of_pos hunit, ← abs_mul, abs_of_pos hunit, sub_mul,
      div_mul_cancel₀ _ hunit.ne', ← hunits]
    linarith
  rw [rneMag, hsig, hunits]
  push_cast
  rfl

/-- A natural number below the quotient stays below it where the unit in the last place is at most 1. -/
theorem le_rneMag_of_nat {num den k : Nat} (hd : 0 < den) (hexp : rneExp num den ≤ 0) (h : (k : ℚ) ≤ num / den) :
    (k : ℚ) ≤ rneMag num den := by
  obtain ⟨j, hj⟩ := Int.eq_ofNat_of_zero_le (Int.neg_nonneg_of_nonpos hexp)
  obtain ⟨-, -, -, hfloor, -⟩ := rneQuot_spec (n := rneNum num (rneExp num den)) (rneDen_pos hd (rneExp num den))
  have hunits : ((k * 2 ^ j : Nat) : ℚ) = k / 2 ^ rneExp num den :=
    eq_div_of_mul_eq (by positivity) (natCast_eq_units k (by omega)).symm
  have hle : k * 2 ^ j ≤ rneSig num den := by
    refine le_trans ?_ hfloor
    rw [← not_lt, div_lt_iff_rat (rneDen_pos hd _), rneNum_div_rneDen, hunits, not_lt]
    exact div_le_div_of_nonneg_right h (by positivity)
  rw [rneMag, ← div_le_iff₀ (by positivity), ← hunits]
  exact_mod_cast hle

theorem rneMag_le_two_mul (num : Nat) {den : Nat} (hd : 0 < den) : rneMag num den ≤ 2 * (num / den) := by
  obtain ⟨hle, -⟩ := rneSig_nearest_multiple num hd 0
  have hq : (0 : ℚ) ≤ num / den := by positivity
  rw [Int.cast_zero, zero_mul, sub_zero, abs_of_nonneg hq] at hle
  have := (abs_le.mp hle).1
  rw [rneMag]
  linarith

section
variable {num den : Nat} (hn : 0 < num) (hd : 0 < den)
include hn hd

/-- The exponent `rneExp` chooses is the only one that fits. -/
theorem rneExp_eq {e : Int} (hmin : -1074 ≤ e) (hlt : (num : ℚ) / den < 2 ^ 53 * 2 ^ e)
    (hge : (2 : ℚ) ^ 52 * 2 ^ e ≤ num / den ∨ e = -1074) : rneExp num den = e := by
  obtain ⟨hmin', -, -⟩ := rneExp_spec hn hd
  refine le_antisymm ?_ ?_
  · by_contra hgt
    have := exponent_lt (units_le_quot hn hd (by omega)) hlt
    omega
  · rcases hge with hge | rfl
    · have := exponent_lt hge (quot_lt_units hn hd)
      omega
    · exact hmin'

theorem rneExp_congr {num' den' : Nat} (hn' : 0 < num') (hd' : 0 < den') (h : (num : ℚ) / den = num' / den') :
    rneExp num den = rneExp num' den' := by
  refine rneExp_eq hn hd (rneExp_spec hn' hd').1 (h ▸ quot_lt_units hn' hd') ?_
  by_cases hmin : rneExp num' den' = -1074
  · exact .inr hmin
  · have := (rneExp_spec hn' hd').1
    exact .inl (h ▸ units_le_quot hn' hd' (by omega))

/-- The exponent of a quotient below a power of two. -/
theorem rneExp_le_of_lt {j : Nat} (h : (num : ℚ) / den < 2 ^ j) : rneExp num den ≤ j - 53 := by
  by_contra hgt
  have := exponent_lt (j := j) (b := 0) (units_le_quot hn hd (by omega)) (by simpa using h)
  omega

/-- Above the least exponent the significand has full length. -/
theorem le_rneSig (h : -1074 < rneExp num den) : 2 ^ 52 ≤ rneSig num den := by
  by_contra hlt
  have := rneExp_of_sig_lt hn hd (not_le.mp hlt)
  omega

theorem units_le_rneMag (h : -1074 < rneExp num den) : (2 : ℚ) ^ 52 * 2 ^ rneExp num den ≤ rneMag num den :=
  mul_le_mul_of_nonneg_right (by exact_mod_cast le_rneSig hn hd h) (by positivity)

/-- A natural number of at most 53 bits is exact. -/
theorem rneMag_eq_of_nat {k : Nat} (hk : k < 2 ^ 53) (h : (num : ℚ) / den = k) : rneMag num den = k := by
  have hexp : rneExp num den ≤ 0 := rneExp_le_of_lt (j := 53) hn hd (by rw [h]; exact_mod_cast hk)
  obtain ⟨j, hj⟩ := Int.eq_ofNat_of_zero_le (Int.neg_nonneg_of_nonpos hexp)
  rw [rneMag_eq_of_multiple hd (h.trans (natCast_eq_units k (j := j) (by omega))), h]

/-- A rounded value of full exponent has a significand of full length, whether or not the rounding carried. -/
theorem le_significand_of_rne {neg neg' : Bool} {m : Nat} {e : Int} (hexp : -1074 < rneExp num den)
    (h : f64Value (rne neg num den) = .fin neg' m e) : 2 ^ 52 ≤ m := by
  have hsig := le_rneSig hn hd hexp
  rw [f64Value_rne_of_sig hn hd, if_neg (by omega)] at h
  split at h
  · split at h
    · cases h
    · cases h
      exact le_rfl
  · split at h
    · cases h
    · cases h
      exact hsig

/-- The threshold of the infinity, read on the rounded magnitude. -/
theorem threshold_le_iff : (2 : ℚ) ^ 1024 - 2 ^ 970 ≤ num / den ↔ (2 : ℚ) ^ 1024 ≤ rneMag num den := by
  have htop : (2 : ℚ) ^ 1024 = 2 ^ 53 * 2 ^ (971 : Int) := by
    rw [show (1024 : Nat) = 53 + 971 from rfl, pow_add]
    rfl
  have hsigMax : rneSig num den ≤ 2 ^ 53 := rneQuot_le hn hd
  rw [← overflow_iff hn hd, htop, rneMag]
  constructor
  · rintro (hexp | ⟨hexp, hsig⟩)
    · calc (2 : ℚ) ^ 53 * 2 ^ (971 : Int) = 2 ^ 52 * 2 ^ ((971 : Int) + 1) := by
            rw [zpow_add_one₀ two_ne_zero]; ring
        _ ≤ 2 ^ 52 * 2 ^ rneExp num den :=
            mul_le_mul_of_nonneg_left (zpow_le_zpow_right₀ one_le_two (by omega)) (by positivity)
        _ ≤ _ := units_le_rneMag hn hd (by omega)
    · rw [hexp, hsig, Nat.cast_pow, Nat.cast_ofNat]
  · intro h
    have hsig : (rneSig num den : ℚ) ≤ 2 ^ 53 := by exact_mod_cast hsigMax
    rcases lt_trichotomy (rneExp num den) 971 with hexp | hexp | hexp
    · have hlt : (2 : ℚ) ^ rneExp num den < 2 ^ (971 : Int) := zpow_lt_zpow_right₀ one_lt_two hexp
      have := calc (2 : ℚ) ^ 53 * 2 ^ (971 : Int) ≤ rneSig num den * 2 ^ rneExp num den := h
        _ ≤ 2 ^ 53 * 2 ^ rneExp num den := mul_le_mul_of_nonneg_right hsig (by positivity)
        _ < 2 ^ 53 * 2 ^ (971 : Int) := mul_lt_mul_of_pos_left hlt (by positivity)
      exact absurd this (lt_irrefl _)
    · rw [hexp] at h
      have hge : (2 : ℚ) ^ 53 ≤ rneSig num den := le_of_mul_le_mul_right h (by positivity)
      exact .inr ⟨hexp, le_antisymm hsigMax (by exact_mod_cast hge)⟩
    · exact .inl hexp

end

/-- The rounding error of a quotient below a power of two. -/
theorem abs_quot_sub_rneMag_le {num den j : Nat} (hd : 0 < den) (h : (num : ℚ) / den < 2 ^ j) :
    |(num : ℚ) / den - rneMag num den| ≤ 2 ^ ((j : Int) - 54) := by
  rcases Nat.eq_zero_or_pos num with rfl | hn
  · rw [rneMag_zero hd, Nat.cast_zero, zero_div, sub_self, abs_zero]
    positivity
  · calc |(num : ℚ) / den - rneMag num den| ≤ 2 ^ rneExp num den / 2 := abs_quot_sub_rneMag num hd
      _ = 2 ^ (rneExp num den - 1) := (zpow_sub_one₀ two_ne_zero _).symm
      _ ≤ 2 ^ ((j : Int) - 54) := by
        have := rneExp_le_of_lt hn hd h
        exact zpow_le_zpow_right₀ one_le_two (by omega)

/-- `rne` depends on the quotient alone. -/
theorem rne_congr (neg : Bool) {num den num' den' : Nat} (hd : 0 < den) (hd' : 0 < den') (h : (num : ℚ) / den = num' / den') :
    rne neg num den = rne neg num' den' := by
  have hzero : num = 0 ↔ num' = 0 := by
    have : (num : ℚ) / den = 0 ↔ (num' : ℚ) / den' = 0 := by rw [h]
    simpa [hd.ne', hd'.ne'] using this
  rcases Nat.eq_zero_or_pos num with hn | hn
  · rw [hn, hzero.mp hn, rne_zero, rne_zero]
  · have hn' : 0 < num' := Nat.pos_of_ne_zero fun h0 => hn.ne' (hzero.mpr h0)
    have hexp := rneExp_congr hn hd hn' hd' h
    rw [rne_eq_pack neg den hn, rne_eq_pack neg den' hn', hexp,
      rneQuot_congr (rneDen_pos hd _) (rneDen_pos hd' _) (by rw [rneNum_div_rneDen, rneNum_div_rneDen, h])]

theorem trunc_of_fin {p : F64} {neg : Bool} {m : Nat} {e : Int} (h : f64Value p = .fin neg m e) :
    trunc p = some (signed neg ⌊ratOf false m e⌋₊) := by
  simp only [trunc, h, truncMag_eq_floor, ratOf_false]

/-- A quotient whose rounded magnitude is below `2^1024` rounds to a finite value of that magnitude. -/
theorem f64Value_rne_of_rneMag (neg : Bool) {num den : Nat} (hd : 0 < den) (h : rneMag num den < 2 ^ 1024) :
    ∃ m e, f64Value (rne neg num den) = .fin neg m e ∧ ratOf false m e = rneMag num den := by
  rcases Nat.eq_zero_or_pos num with rfl | hn
  · exact ⟨0, -1074, by rw [rne_zero, f64Value_zero], by rw [rneMag_zero hd, ratOf_false, Nat.cast_zero, zero_mul]⟩
  · obtain ⟨m, e, hval, hrat, -⟩ :=
      f64Value_rne_finite hn hd neg (not_le.mp (mt (threshold_le_iff hn hd).mp (not_le.mpr h)))
    exact ⟨m, e, hval, hrat⟩

/-- A quotient whose rounded magnitude is `2^1024` or more rounds to the infinity. -/
theorem rne_of_le_rneMag (neg : Bool) {num den : Nat} (hd : 0 < den) (h : 2 ^ 1024 ≤ rneMag num den) :
    rne neg num den = f64Inf neg := by
  rcases Nat.eq_zero_or_pos num with rfl | hn
  · rw [rneMag_zero hd] at h
    exact absurd h (not_le.mpr (by positivity))
  · exact rne_eq_f64Inf hn hd neg ((threshold_le_iff hn hd).mpr h)

/-- The integer part of a rounded quotient: none from `2^1024` on, else the floor of the rounded magnitude with the sign. -/
theorem trunc_rne (neg : Bool) {num den : Nat} (hd : 0 < den) :
    trunc (rne neg num den) =
      if 2 ^ 1024 ≤ rneMag num den then none else some (signed neg ⌊rneMag num den⌋₊) := by
  split
  · rename_i hover
    rw [rne_of_le_rneMag neg hd hover, trunc, f64Value_f64Inf]
  · rename_i hfin
    obtain ⟨m, e, hval, hrat⟩ := f64Value_rne_of_rneMag neg hd (not_le.mp hfin)
    rw [trunc_of_fin hval, hrat]

end Sys2Proof.Rounding
end

section
/-!
The Unit Codec's statements (40_unit_codec.md): the scaled product and its sign, the wrap, the integer-only algorithm, the decoded
quotient, the two round trips and the eight primitives.
-/

namespace Sys2Proof.UnitCodec
open Sys2Proof.Machine Sys2Proof.Scope Sys2Proof.Rounding

/-! ### Signs -/

theorem cast_signed (neg : Bool) (n : Nat) : ((signed neg n : Int) : ℚ) = (if neg then -1 else 1) * n := by
  cases neg <;> simp [signed]

theorem signed_natAbs (w : Int) : signed (decide (w < 0)) w.natAbs = w := by
  simp only [signed, decide_eq_true_eq]
  split <;> omega

theorem natAbs_signed (neg : Bool) (n : Nat) : (signed neg n).natAbs = n := by cases neg <;> simp [signed]

theorem ratOf_eq_sign_mul (neg : Bool) (m : Nat) (e : Int) : ratOf neg m e = (if neg then -1 else 1) * ratOf false m e := by
  rw [ratOf_false, ratOf, mul_assoc]

theorem ratOf_false_nonneg (m : Nat) (e : Int) : 0 ≤ ratOf false m e := by
  rw [ratOf_false]
  positivity

/-- The floor of the magnitude with the sign is the integer part toward zero. -/
theorem signed_floor_toward_zero (neg : Bool) (m : Nat) (e : Int) :
    if 0 ≤ ratOf neg m e then signed neg ⌊ratOf false m e⌋₊ = ⌊ratOf neg m e⌋
    else signed neg ⌊ratOf false m e⌋₊ = -⌊-ratOf neg m e⌋ := by
  have hnonneg := ratOf_false_nonneg m e
  have hfloor := Int.natCast_floor_eq_floor hnonneg
  cases neg
  · rw [if_pos hnonneg]
    exact hfloor
  · rw [ratOf_eq_sign_mul, if_pos rfl, neg_one_mul, neg_neg, ← hfloor]
    split
    · rename_i h
      have hzero : ratOf false m e = 0 := by linarith
      simp [hzero, signed]
    · rfl

/-! ### The product and the scaled value -/

/-- An integer of at most 53 bits is an exact binary64 value (R12). -/
theorem f64Value_i2f {w : Int} (hw : w.natAbs < 2 ^ 53) :
    ∃ m e, f64Value (i2f w) = .fin (decide (w < 0)) m e ∧ ratOf false m e = w.natAbs := by
  have hmag : rneMag w.natAbs 1 = w.natAbs := by
    rcases Nat.eq_zero_or_pos w.natAbs with h | h
    · rw [h, rneMag_zero Nat.one_pos, Nat.cast_zero]
    · exact rneMag_eq_of_nat h Nat.one_pos hw (by simp)
  have hlt : rneMag w.natAbs 1 < 2 ^ 1024 := by
    rw [hmag]
    calc (w.natAbs : ℚ) < 2 ^ 53 := by exact_mod_cast hw
      _ < 2 ^ 1024 := pow_lt_pow_right₀ one_lt_two (by decide)
  rw [← hmag]
  exact f64Value_rne_of_rneMag _ Nat.one_pos hlt

section
variable {d : F64} {neg : Bool} {m : Nat} {e : Int} {K : Nat} (hK : K = 10 ∨ K = 100) (h : f64Value d = .fin neg m e)
include hK h

/-- The product of a finite operand and a scale is one rounding of the exact product. -/
theorem fmul_scale : ∃ num den : Nat, 0 < den ∧ (num : ℚ) / den = ratOf false m e * K ∧
    fmul d (i2f K) = some (rne neg num den) := by
  obtain ⟨mk, ek, hval, hrat⟩ := f64Value_i2f (w := K) (by rcases hK with rfl | rfl <;> decide)
  obtain ⟨⟨num, den, hd, hquot, hmul⟩, -⟩ := productAndQuotientRoundOnce _ _ _ _ _ _ _ _ h hval
  have hsign : (neg != decide ((K : Int) < 0)) = neg := by rw [decide_eq_false (by omega), Bool.bne_false]
  refine ⟨num, den, hd, ?_, by rw [hmul, hsign]⟩
  rw [← abs_ratQuot, hquot, abs_mul, abs_ratOf, abs_ratOf, ← ratOf_false, ← ratOf_false, hrat, Int.natAbs_natCast]

/-- The truncated product of a finite operand: the floor of the rounded magnitude with the operand's sign, or none where the
product overflows. -/
theorem encProduct_of_fin : ∃ num den : Nat, 0 < den ∧ (num : ℚ) / den = ratOf false m e * K ∧
    encProduct d K = if 2 ^ 1024 ≤ rneMag num den then none else some (signed neg ⌊rneMag num den⌋₊) := by
  obtain ⟨num, den, hd, hquot, hmul⟩ := fmul_scale hK h
  exact ⟨num, den, hd, hquot, by rw [encProduct, hmul, Option.bind_some, trunc_rne neg hd]⟩

end

theorem encProduct_of_not_finite {d : F64} (h : f64Value d = .nan ∨ ∃ neg, f64Value d = .inf neg) (K : Nat) :
    encProduct d K = none := by
  rcases h with h | ⟨neg, h⟩ <;> simp [encProduct, fmul, h]

theorem encProduct_of_overflow {d : F64} {K : Nat} {neg : Bool} (h : fmul d (i2f K) = some (f64Inf neg)) :
    encProduct d K = none := by
  rw [encProduct, h, Option.bind_some, trunc, f64Value_f64Inf]

theorem encScaled_of_some {d : F64} {K : Nat} {t : Int} (h : encProduct d K = some t) (n : Nat) :
    encScaled d K n = wrap16 t := by
  rw [encScaled, h]

theorem encScaled_of_none {d : F64} {K : Nat} (h : encProduct d K = none) (n : Nat) :
    encScaled d K n = Config.drawI16 n := by
  rw [encScaled, h]

theorem wrap16_toInt (t : Int) : (wrap16 t).toInt = sext16Int (t % 65536).toNat := by
  rw [toInt_eq_sext16Int, wrap16_toNat]

/-- Settles O3: a finite operand's product is one `rne`, so it is an infinity or a finite value of the operand's sign. -/
theorem encodingFollowsItsRule : Obligations.EncodingFollowsItsRule := by
  intro d K n hK
  refine ⟨fun h => encScaled_of_none (encProduct_of_not_finite h K) n, fun sd md ed h => ?_⟩
  obtain ⟨num, den, hd, -, hmul⟩ := fmul_scale hK h
  refine ⟨_, hmul, ?_⟩
  by_cases hover : 2 ^ 1024 ≤ rneMag num den
  · have hinf := rne_of_le_rneMag sd hd hover
    refine .inl ⟨⟨sd, by rw [hinf, f64Value_f64Inf]⟩, encScaled_of_none (encProduct_of_overflow (neg := sd) ?_) n⟩
    rw [hmul, hinf]
  · obtain ⟨m, e, hval, -⟩ := f64Value_rne_of_rneMag sd hd (not_le.mp hover)
    have hprod : encProduct d K = some (signed sd ⌊ratOf false m e⌋₊) := by
      rw [encProduct, hmul, Option.bind_some, trunc_of_fin hval]
    exact .inr ⟨sd, m, e, hval, _, signed_floor_toward_zero sd m e, by rw [encScaled_of_some hprod, wrap16_toInt]⟩

/-! ### The sign of the operand -/

theorem fmul_neg_left (a b : F64) :
    fmul ⟨!a.neg, a.exp, a.frac⟩ b = (fmul a b).map fun p => ⟨!p.neg, p.exp, p.frac⟩ := by
  simp only [fmul, f64Value_neg]
  cases f64Value a with
  | nan => rfl
  | inf => rfl
  | fin sa ma ea =>
    cases f64Value b with
    | nan => rfl
    | inf => rfl
    | fin sb mb eb =>
      obtain ⟨hneg, hflip⟩ := rne_neg (sa != sb) (ma * mb * 2 ^ (ea + eb).toNat) (2 ^ (-(ea + eb)).toNat)
      simp only [Option.map_some, Bool.not_bne, hflip, hneg]

theorem trunc_neg (p : F64) : trunc ⟨!p.neg, p.exp, p.frac⟩ = (trunc p).map (- ·) := by
  simp only [trunc, f64Value_neg]
  cases f64Value p with
  | nan => rfl
  | inf => rfl
  | fin neg m e => cases neg <;> simp [signed]

theorem encProduct_neg (d : F64) (K : Nat) : encProduct ⟨!d.neg, d.exp, d.frac⟩ K = (encProduct d K).map (- ·) := by
  rw [encProduct, fmul_neg_left, encProduct]
  cases fmul d (i2f K) with
  | none => rfl
  | some p => exact trunc_neg p

/-- A wrapped integer is congruent to the integer modulo 65536 and lies in the `i16` range. -/
theorem wrap16_toInt_spec (t : Int) :
    (wrap16 t).toInt % 65536 = t % 65536 ∧ -32768 ≤ (wrap16 t).toInt ∧ (wrap16 t).toInt ≤ 32767 := by
  have hle := BitVec.le_toInt (wrap16 t)
  have hlt := BitVec.toInt_lt (x := wrap16 t)
  exact ⟨wrap16_toInt_emod t, hle, by omega⟩

/-- Settles O6: the sign bit goes through the product and the truncation, and the wrap is odd but at the residue 32768. -/
theorem encodingIsOddBeforeWrapping : Obligations.EncodingIsOddBeforeWrapping := by
  intro d K n t _ ht
  have hneg : encProduct ⟨!d.neg, d.exp, d.frac⟩ K = some (-t) := by rw [encProduct_neg, ht, Option.map_some]
  obtain ⟨hmod, hlo, hhi⟩ := wrap16_toInt_spec t
  obtain ⟨hmod', hlo', hhi'⟩ := wrap16_toInt_spec (-t)
  rw [encScaled_of_some hneg, encScaled_of_some ht]
  exact ⟨hneg, rfl, fun hres => by omega, fun hres => by omega⟩

/-! ### The primitives -/

section
variable {s : State} (hs : s.phase = .idle)
include hs

theorem exec_encodeAngle (d : F64) :
    exec (.encodeAngle d) s =
      .next (primDone s ⟨some .ok, some (encScaled d 100 s.draws).toInt, none, none, none⟩ 1) :=
  (whenIdle_idle hs _).trans (issuePrim_idle hs)

theorem exec_encodeCoord (d : F64) :
    exec (.encodeCoord d) s =
      .next (primDone s ⟨some .ok, some (encScaled d 10 s.draws).toInt, none, none, none⟩ 1) :=
  (whenIdle_idle hs _).trans (issuePrim_idle hs)

theorem exec_decodeAngle (w : I16) :
    exec (.decodeAngle w) s = .next (primDone s ⟨some .ok, none, none, some [decScaled w 100], none⟩ 0) :=
  (whenIdle_idle hs _).trans (issuePrim_idle hs)

theorem exec_decodeCoord (w : I16) :
    exec (.decodeCoord w) s = .next (primDone s ⟨some .ok, none, none, some [decScaled w 10], none⟩ 0) :=
  (whenIdle_idle hs _).trans (issuePrim_idle hs)

theorem exec_coordsToInt {pose : List F64} (h : pose.length = 6) :
    exec (.coordsToInt pose) s =
      .next (primDone s ⟨some .ok, none, some (encLanes poseScale s.draws 0 pose), none, none⟩ 6) :=
  ((whenIdle_idle hs _).trans (withSix_six h _)).trans (issuePrim_idle hs)

theorem exec_intToCoords {vals : List I16} (h : vals.length = 6) :
    exec (.intToCoords vals) s = .next (primDone s ⟨some .ok, none, none, some (decLanes poseScale 0 vals), none⟩ 0) :=
  ((whenIdle_idle hs _).trans (withSix_six h _)).trans (issuePrim_idle hs)

theorem exec_put16 (w : I16) :
    exec (.put16 w) s = .next (primDone s ⟨some .ok, none, none, none, some [hiByte w, loByte w]⟩ 0) :=
  (whenIdle_idle hs _).trans (issuePrim_idle hs)

theorem exec_get16 (hi lo : Byte) :
    exec (.get16 [hi, lo]) s = .next (primDone s ⟨some .ok, some (joinBytes hi lo).toInt, none, none, none⟩ 0) :=
  (whenIdle_idle hs _).trans (issuePrim_idle hs)

end

/-- Settles O10: both encoders are the step ISSUE-PRIM, with one draw. -/
theorem encodePrimitivesDeliverTheirScalar : Obligations.EncodePrimitivesDeliverTheirScalar :=
  fun _ d hs => ⟨exec_encodeAngle hs d, exec_encodeCoord hs d⟩

/-- Settles O12: both decoders are the step ISSUE-PRIM, with no draw. -/
theorem decodePrimitivesDeliverTheirQuotient : Obligations.DecodePrimitivesDeliverTheirQuotient :=
  fun _ w hs => ⟨exec_decodeAngle hs w, exec_decodeCoord hs w⟩

/-- Settles O11: in each of the three cases there is no truncated product, so the scalar is the draw. -/
theorem nonFiniteOperandsEncodeToADraw : Obligations.NonFiniteOperandsEncodeToADraw := by
  intro s d hs
  have hdraw : ∀ K : Nat, (f64Value d = .nan ∨ (∃ neg, f64Value d = .inf neg) ∨ fmul d (i2f K) = some (f64Inf d.neg)) →
      encScaled d K s.draws = Config.drawI16 s.draws := by
    rintro K (hnan | hinf | hover)
    · exact encScaled_of_none (encProduct_of_not_finite (.inl hnan) K) _
    · exact encScaled_of_none (encProduct_of_not_finite (.inr hinf) K) _
    · exact encScaled_of_none (encProduct_of_overflow hover) _
  exact ⟨fun h => ⟨_, exec_encodeAngle hs d, by rw [← hdraw 100 h]; rfl⟩,
    fun h => ⟨_, exec_encodeCoord hs d, by rw [← hdraw 10 h]; rfl⟩⟩

/-- Settles O13: lane `k` of six is converted at `poseScale k`. -/
theorem batchFormsScaleEachLaneAlone : Obligations.BatchFormsScaleEachLaneAlone :=
  fun _ hs => ⟨fun _ _ _ _ _ _ => exec_coordsToInt hs rfl, fun _ _ _ _ _ _ => exec_intToCoords hs rfl⟩

/-- Settles O14: the two bytes of `put16` join to the wire integer, and the two bytes of a joined one are those it was joined from. -/
theorem fieldPackerIsBigEndianAndInvertible : Obligations.FieldPackerIsBigEndianAndInvertible := by
  intro s hs
  constructor
  · intro w
    have hget := exec_get16 hs (hiByte w) (loByte w)
    rw [joinBytes_hiByte_loByte] at hget
    exact ⟨_, _, exec_put16 hs w, hiByte_toNat w, loByte_toNat w, hget⟩
  · intro hi lo
    have hval : (joinBytes hi lo).toInt = sext16Int (hi.toNat * 256 + lo.toNat) := by
      rw [toInt_eq_sext16Int, joinBytes_toNat]
    have hput := exec_put16 hs (joinBytes hi lo)
    rw [hiByte_joinBytes, loByte_joinBytes] at hput
    exact ⟨_, hval ▸ exec_get16 hs hi lo, hval, hput⟩

/-! ### Large products -/

/-- A truncated value of magnitude `2^68` or more is a multiple of 65536: its significand has 53 bits (R113). -/
theorem dvd_of_trunc_large {p : F64} {t : Int} (h : trunc p = some t) (hlarge : 2 ^ 68 ≤ |t|) : (65536 : Int) ∣ t := by
  cases hp : f64Value p with
  | nan => simp [trunc, hp] at h
  | inf => simp [trunc, hp] at h
  | fin neg m e =>
    obtain ⟨-, hm, -, -, -⟩ := f64Value_range hp
    have ht : t = signed neg (truncMag m e) := by simpa [trunc, hp] using h.symm
    have habs : |t| = truncMag m e := by rw [ht]; cases neg <;> simp [signed]
    have hexp : 16 ≤ e := by
      by_contra hlt
      have hle : truncMag m e < 2 ^ 53 * 2 ^ 15 :=
        calc truncMag m e ≤ m * 2 ^ e.toNat := Nat.div_le_self _ _
          _ < 2 ^ 53 * 2 ^ e.toNat := Nat.mul_lt_mul_of_pos_right hm (by positivity)
          _ ≤ 2 ^ 53 * 2 ^ 15 := Nat.mul_le_mul_left _ (Nat.pow_le_pow_right two_pos (by omega))
      rw [habs] at hlarge
      omega
    have hdvd : 65536 ∣ truncMag m e := by
      rw [truncMag, show (-e).toNat = 0 by omega, pow_zero, Nat.div_one]
      exact Dvd.dvd.mul_left (pow_dvd_pow 2 (by omega : 16 ≤ e.toNat)) m
    rw [← dvd_abs, habs]
    exact_mod_cast hdvd

/-- Settles O7: the wrap's congruence and range, and a significand of 53 bits leaves a large product no low 16 bits. -/
theorem encodingWrapsModulo65536 : Obligations.EncodingWrapsModulo65536 := by
  intro d K n t hK ht
  obtain ⟨hmod, hlo, hhi⟩ := wrap16_toInt_spec t
  rw [encScaled_of_some ht]
  refine ⟨hmod, hlo, hhi, fun hlarge => ?_, fun s hs => ?_⟩
  · obtain ⟨p, -, hp⟩ := Option.bind_eq_some_iff.mp ht
    have hdvd := dvd_of_trunc_large hp hlarge
    omega
  · rcases hK with rfl | rfl
    · exact ⟨_, exec_encodeCoord hs d, rfl⟩
    · exact ⟨_, exec_encodeAngle hs d, rfl⟩

/-! ### The decoded quotient -/

theorem natAbs_toInt_le (w : I16) : w.toInt.natAbs ≤ 32768 := by
  have hle := BitVec.le_toInt w
  have hlt := BitVec.toInt_lt (x := w)
  omega

/-- A finite value whose significand has full length is normal. -/
theorem exp_of_normal {d : F64} {neg : Bool} {m : Nat} {e : Int} (h : f64Value d = .fin neg m e) (hm : 2 ^ 52 ≤ m) :
    0 < d.exp.toNat ∧ d.exp.toNat < 2047 := by
  have hexp := d.exp.isLt
  have hfrac := d.frac.isLt
  unfold f64Value at h
  split at h
  · split at h <;> cases h
  · split at h
    · cases h
      omega
    · omega

section
variable {K : Nat} (hK : K = 10 ∨ K = 100) (w : I16)
include hK

/-- A decoded value is finite, and its magnitude is the rounded quotient. -/
theorem f64Value_decScaled :
    ∃ m e, f64Value (decScaled w K) = .fin (decide (w.toInt < 0)) m e ∧ ratOf false m e = rneMag w.toInt.natAbs K := by
  have hd : 0 < K := by omega
  refine f64Value_rne_of_rneMag _ hd ?_
  have hK1 : (1 : ℚ) ≤ K := by exact_mod_cast hd
  have hw : (w.toInt.natAbs : ℚ) ≤ 2 ^ 15 := by exact_mod_cast natAbs_toInt_le w
  calc rneMag w.toInt.natAbs K ≤ 2 * (w.toInt.natAbs / K) := rneMag_le_two_mul _ hd
    _ ≤ 2 * 2 ^ 15 := by
      refine mul_le_mul_of_nonneg_left ?_ two_pos.le
      exact (div_le_self (by positivity) hK1).trans hw
    _ < 2 ^ 1024 := by
      rw [← pow_succ']
      exact pow_lt_pow_right₀ one_lt_two (by decide)

/-- The decoded value is the quotient of the two exact operands (R109). -/
theorem fdiv_i2f_scale : fdiv (i2f w.toInt) (i2f K) = some (decScaled w K) := by
  have hd : 0 < K := by omega
  obtain ⟨mw, ew, hvalw, hratw⟩ := f64Value_i2f (w := w.toInt) (by have := natAbs_toInt_le w; omega)
  obtain ⟨mk, ek, hvalk, hratk⟩ := f64Value_i2f (w := K) (by omega)
  have hsign : decide ((K : Int) < 0) = false := decide_eq_false (by omega)
  rw [hsign] at hvalk
  rw [Int.natAbs_natCast] at hratk
  have hne : ratOf false mk ek ≠ 0 := by
    rw [hratk]
    exact_mod_cast hd.ne'
  obtain ⟨num, den, hden, hquot, hdiv⟩ := (productAndQuotientRoundOnce _ _ _ _ _ _ _ _ hvalw hvalk).2 hne
  rw [hdiv, Bool.bne_false, decScaled, rne_congr _ hden hd]
  rw [← abs_ratQuot, hquot, abs_div, abs_ratOf, abs_ratOf, ← ratOf_false, ← ratOf_false, hratw, hratk]

/-- A quotient that is not 0 decodes to a normal value: it is at least `1/100`. -/
theorem exp_decScaled (hw : w.toInt ≠ 0) : 0 < (decScaled w K).exp.toNat ∧ (decScaled w K).exp.toNat < 2047 := by
  have hd : 0 < K := by omega
  have hn : 0 < w.toInt.natAbs := Int.natAbs_pos.mpr hw
  obtain ⟨m, e, hval, -⟩ := f64Value_decScaled hK w
  refine exp_of_normal hval (le_significand_of_rne hn hd ?_ hval)
  have hquot : (2 : ℚ) ^ 52 * 2 ^ (-59 : Int) ≤ w.toInt.natAbs / K := by
    have hK100 : (K : ℚ) ≤ 100 := by exact_mod_cast (by omega : K ≤ 100)
    have hn1 : (1 : ℚ) ≤ w.toInt.natAbs := by exact_mod_cast hn
    calc (2 : ℚ) ^ 52 * 2 ^ (-59 : Int) ≤ 1 / 100 := by norm_num
      _ ≤ w.toInt.natAbs / K := div_le_div₀ (by positivity) hn1 (by positivity) hK100
  have := exponent_lt hquot (quot_lt_units hn hd)
  omega

/-- The decoded value is the quotient up to half a unit of the last place: a quotient is below `2^9` for angles, `2^12` for
coordinates (R114). -/
theorem abs_decScaled_sub_quot :
    ∃ neg m e, f64Value (decScaled w K) = .fin neg m e ∧
      |ratOf neg m e - (w.toInt : ℚ) / K| ≤ (if K = 100 then 1 / 2 ^ 45 else 1 / 2 ^ 42) := by
  obtain ⟨m, e, hval, hrat⟩ := f64Value_decScaled hK w
  refine ⟨_, m, e, hval, ?_⟩
  have hw : (w.toInt.natAbs : ℚ) ≤ 2 ^ 15 := by exact_mod_cast natAbs_toInt_le w
  have hmirror : |ratOf (decide (w.toInt < 0)) m e - (w.toInt : ℚ) / K| =
      |(w.toInt.natAbs : ℚ) / K - rneMag w.toInt.natAbs K| := by
    have hcast := cast_signed (decide (w.toInt < 0)) w.toInt.natAbs
    rw [signed_natAbs] at hcast
    rw [ratOf_eq_sign_mul, hrat, hcast, mul_div_assoc, ← mul_sub, abs_mul, abs_sub_comm]
    split <;> simp
  rw [hmirror]
  rcases hK with rfl | rfl
  · refine (abs_quot_sub_rneMag_le (j := 12) (by decide) ?_).trans (by norm_num)
    rw [div_lt_iff₀ (by norm_num)]
    norm_num at hw ⊢
    linarith
  · refine (abs_quot_sub_rneMag_le (j := 9) (by decide) ?_).trans (by norm_num)
    rw [div_lt_iff₀ (by norm_num)]
    norm_num at hw ⊢
    linarith

end

/-- Settles O5: the quotient of the two exact operands is one `rne` of `w / K`, finite and, unless it is 0, at least `1/100`. -/
theorem decodingIsTheBinary64Quotient : Obligations.DecodingIsTheBinary64Quotient := by
  intro w K hK
  refine ⟨fdiv_i2f_scale hK w, ?_, ?_, exp_decScaled hK w, rfl⟩
  · obtain ⟨m, e, hval, hrat⟩ := f64Value_i2f (w := w.toInt) (by have := natAbs_toInt_le w; omega)
    exact ⟨_, m, e, hval, by rw [ratOf_eq_sign_mul, hrat, ← cast_signed, signed_natAbs]⟩
  · obtain ⟨m, e, hval, -⟩ := f64Value_decScaled hK w
    exact ⟨m, e, hval⟩

/-! ### The two round trips -/

/-- A rounded magnitude whose integer part is at most `2^15` has that integer part within one below its quotient, up to the rounding
(R114). -/
theorem quot_sub_floor_rneMag {num den : Nat} (hd : 0 < den) (h : ⌊rneMag num den⌋₊ ≤ 32768) :
    -(1 / 2 ^ 38 : ℚ) < num / den - ⌊rneMag num den⌋₊ ∧ (num : ℚ) / den - ⌊rneMag num den⌋₊ < 1 := by
  rcases Nat.eq_zero_or_pos num with rfl | hn
  · rw [rneMag_zero hd]
    norm_num
  have hfloor : (⌊rneMag num den⌋₊ : ℚ) ≤ 32768 := by exact_mod_cast h
  have hexp : rneExp num den ≤ 0 := by
    by_contra hgt
    have hhi : rneMag num den < 2 ^ 16 * 2 ^ (0 : Int) := by
      have := Nat.lt_floor_add_one (rneMag num den)
      norm_num
      linarith
    have := exponent_lt (units_le_rneMag hn hd (by omega)) hhi
    omega
  constructor
  · rcases lt_or_ge ((num : ℚ) / den) (2 ^ 15) with hlt | hge
    · have herr := (abs_le.mp (abs_quot_sub_rneMag_le hd hlt)).1
      have hle := Nat.floor_le (rneMag_nonneg num den)
      norm_num at herr ⊢
      linarith
    · norm_num at hge ⊢
      linarith
  · have hquot : (0 : ℚ) ≤ num / den := by positivity
    have hle : ⌊(num : ℚ) / den⌋₊ ≤ ⌊rneMag num den⌋₊ := Nat.le_floor (le_rneMag_of_nat hd hexp (Nat.floor_le hquot))
    have hle' : (⌊(num : ℚ) / den⌋₊ : ℚ) ≤ ⌊rneMag num den⌋₊ := by exact_mod_cast hle
    linarith [Nat.lt_floor_add_one ((num : ℚ) / den)]

/-- The exact product of a finite operand less its truncated product: the remainder `r` has the operand's sign, up to the rounding. -/
theorem ratOf_mul_sub_trunc {d : F64} {neg : Bool} {m : Nat} {e : Int} {K : Nat} {t : Int} (hK : K = 10 ∨ K = 100)
    (h : f64Value d = .fin neg m e) (ht : encProduct d K = some t) (hrange : t.natAbs ≤ 32768) :
    ∃ r : ℚ, ratOf neg m e * K - t = (if neg then -1 else 1) * r ∧ -(1 / 2 ^ 38 : ℚ) < r ∧ r < 1 ∧
      (ratOf false m e = 0 → r ≤ 0) := by
  obtain ⟨num, den, hd, hquot, hprod⟩ := encProduct_of_fin hK h
  obtain rfl : t = signed neg ⌊rneMag num den⌋₊ := by
    rw [hprod] at ht
    split at ht
    · cases ht
    · exact (Option.some.inj ht).symm
  rw [natAbs_signed] at hrange
  obtain ⟨hlow, hhigh⟩ := quot_sub_floor_rneMag hd hrange
  refine ⟨_, ?_, hlow, hhigh, fun hzero => ?_⟩
  · rw [cast_signed, ratOf_eq_sign_mul, mul_assoc, ← hquot, mul_sub]
  · rw [hquot, hzero, zero_mul, zero_sub, neg_nonpos]
    positivity

/-- Settles O8: the truncated product lies toward zero of the exact one by `ratOf_mul_sub_trunc`, and decoding it rounds once. -/
theorem encodeThenDecodeIsWithinOneUnit : Obligations.EncodeThenDecodeIsWithinOneUnit := by
  intro d neg m e K n t hK h ht hlo hhi
  obtain ⟨r, hr, hlow, hhigh, hzero⟩ := ratOf_mul_sub_trunc hK h ht (by omega)
  have hmag := ratOf_false_nonneg m e
  have hback : (encScaled d K n).toInt = t := by rw [encScaled_of_some ht, wrap16_toInt_of_range hlo hhi]
  refine ⟨fun hnonneg => ?_, fun hneg => ?_, hback, hback ▸ abs_decScaled_sub_quot hK (encScaled d K n)⟩
  · rw [hr]
    cases neg
    · rw [if_neg Bool.false_ne_true, one_mul]
      exact ⟨hlow, hhigh⟩
    · rw [ratOf_eq_sign_mul, if_pos rfl] at hnonneg
      have := hzero (by linarith)
      rw [if_pos rfl]
      norm_num at hlow ⊢
      constructor <;> linarith
  · rw [← neg_sub, hr]
    cases neg
    · exact absurd hmag (not_le.mpr hneg)
    · rw [if_pos rfl, neg_one_mul, neg_neg]
      exact ⟨hlow, hhigh⟩

/-- The unit in the last place of a coordinate's tenth is a negative power of two, above the least. -/
theorem rneExp_tenth {a : Nat} (ha : a ≤ 32768) (hapos : 0 < a) : -1074 < rneExp a 10 ∧ rneExp a 10 ≤ -1 := by
  have ha' : (a : ℚ) ≤ 32768 := by exact_mod_cast ha
  have hapos' : (1 : ℚ) ≤ a := by exact_mod_cast hapos
  have hlo : (2 : ℚ) ^ 52 * 2 ^ (-56 : Int) ≤ (a : ℚ) / (10 : Nat) := by
    rw [le_div_iff₀ (by norm_num)]
    norm_num
    linarith
  have hhi : (a : ℚ) / (10 : Nat) < 2 ^ 12 := by
    rw [div_lt_iff₀ (by norm_num)]
    norm_num
    linarith
  have := exponent_lt hlo (quot_lt_units hapos (by decide))
  have := rneExp_le_of_lt hapos (by decide) hhi
  omega

/-- Ten times a rounded tenth is within four units of the tenth's last place: it is within five, and an even number of units away. -/
theorem abs_rneMag_ten_sub_le (a : Nat) (hexp : rneExp a 10 ≤ -1) :
    |rneMag a 10 * 10 - a| ≤ 4 * 2 ^ rneExp a 10 := by
  obtain ⟨j, hj⟩ := Int.eq_ofNat_of_zero_le (show 0 ≤ -1 - rneExp a 10 by omega)
  have hnum : rneNum a (rneExp a 10) = 2 * (a * 2 ^ j) := by
    rw [rneNum, show (-rneExp a 10).toNat = j + 1 by omega, pow_succ]
    ring
  have hden : rneDen 10 (rneExp a 10) = 10 := by rw [rneDen, show (rneExp a 10).toNat = 0 by omega, pow_zero, mul_one]
  obtain ⟨hle, hge, -, -, -⟩ := rneQuot_spec (n := 2 * (a * 2 ^ j)) (d := 10) (by decide)
  have hsig : rneSig a 10 = rneQuot (2 * (a * 2 ^ j)) 10 := by rw [rneSig, hnum, hden]
  rw [← hsig] at hle hge
  have hunits : (a : ℚ) = (2 * (a * 2 ^ j) : Nat) * 2 ^ rneExp a 10 := by
    rw [natCast_eq_units a (j := j + 1) (e := rneExp a 10) (by push_cast; omega), pow_succ]
    push_cast
    ring
  have hup : (rneSig a 10 * 10 : ℚ) ≤ (2 * (a * 2 ^ j) : Nat) + 4 := by exact_mod_cast (by omega : rneSig a 10 * 10 ≤ _)
  have hdown : ((2 * (a * 2 ^ j) : Nat) : ℚ) ≤ rneSig a 10 * 10 + 4 := by exact_mod_cast (by omega : _ ≤ rneSig a 10 * 10 + 4)
  conv_lhs => rw [hunits]
  rw [rneMag, mul_right_comm, ← sub_mul, abs_mul, abs_of_pos (show (0 : ℚ) < 2 ^ rneExp a 10 by positivity)]
  exact mul_le_mul_of_nonneg_right (abs_le.mpr ⟨by linarith, by linarith⟩) (by positivity)

/-- Ten times a rounded tenth reaches the full significand in units eight times the tenth's. -/
theorem units_le_rneMag_ten {a : Nat} (hapos : 0 < a) (hexp : -1074 < rneExp a 10) :
    (2 : ℚ) ^ 52 * 2 ^ (rneExp a 10 + 3) ≤ rneMag a 10 * 10 := by
  have hunit : (0 : ℚ) < 2 ^ rneExp a 10 := by positivity
  have hmag := units_le_rneMag hapos (by decide) hexp
  rw [zpow_add₀ two_ne_zero]
  norm_num at hmag ⊢
  linarith

/-- Ten times the rounded tenth of a coordinate rounds back to the coordinate: it misses by at most four units of the tenth's last place,
which is at most half a unit of its own, and the coordinate is even in those units (R115). -/
theorem rneMag_ten_mul_tenth {a num den : Nat} (ha : a ≤ 32768) (hd : 0 < den)
    (hquot : (num : ℚ) / den = rneMag a 10 * 10) : rneMag num den = a := by
  rcases Nat.eq_zero_or_pos a with rfl | hapos
  · rw [rneMag_zero (by decide), zero_mul, div_eq_zero_iff, Nat.cast_eq_zero, Nat.cast_eq_zero, or_iff_left hd.ne'] at hquot
    rw [hquot, rneMag_zero hd, Nat.cast_zero]
  have ha' : (a : ℚ) ≤ 32768 := by exact_mod_cast ha
  obtain ⟨hmin, hmax⟩ := rneExp_tenth ha hapos
  have hnear := abs_rneMag_ten_sub_le a hmax
  have hlo := units_le_rneMag_ten hapos hmin
  rw [← hquot] at hnear hlo
  have hn := num_pos_of_quot_pos (lt_of_lt_of_le (by positivity) hlo)
  have hexp : rneExp a 10 + 3 ≤ rneExp num den := by
    have := exponent_lt hlo (quot_lt_units hn hd)
    omega
  have hexp' : rneExp num den ≤ -1 := by
    have hlt : (num : ℚ) / den < 2 ^ 17 := by
      have := rneMag_le_two_mul a (den := 10) (by decide)
      rw [hquot]
      norm_num at this ⊢
      linarith
    have := rneExp_le_of_lt hn hd hlt
    omega
  refine rneMag_eq_of_near_nat hd hexp' (hnear.trans ?_)
  calc 4 * (2 : ℚ) ^ rneExp a 10 = 2 ^ (rneExp a 10 + 3) / 2 := by rw [zpow_add₀ two_ne_zero]; ring
    _ ≤ 2 ^ rneExp num den / 2 := div_le_div_of_nonneg_right (zpow_le_zpow_right₀ one_le_two hexp) two_pos.le

/-- Encoding a decoded coordinate gives the truncated product the coordinate itself. -/
theorem encProduct_decScaled_ten (w : I16) : encProduct (decScaled w 10) 10 = some w.toInt := by
  obtain ⟨m, e, hval, hrat⟩ := f64Value_decScaled (.inl rfl) w
  obtain ⟨num, den, hd, hquot, hprod⟩ := encProduct_of_fin (.inl rfl) hval
  rw [hrat] at hquot
  have hmag : rneMag num den = w.toInt.natAbs := rneMag_ten_mul_tenth (natAbs_toInt_le w) hd hquot
  have hfin : ¬ (2 : ℚ) ^ 1024 ≤ rneMag num den := by
    have hw : (w.toInt.natAbs : ℚ) ≤ 2 ^ 15 := by exact_mod_cast natAbs_toInt_le w
    rw [hmag, not_le]
    exact hw.trans_lt (pow_lt_pow_right₀ one_lt_two (by decide))
  rw [hprod, if_neg hfin, hmag, Nat.floor_natCast, signed_natAbs]

/-- Where the truncated product of a decoded value is the wire integer, encoding gives the wire integer back. -/
theorem encScaled_decScaled {w : I16} {K : Nat} (h : encProduct (decScaled w K) K = some w.toInt) (n : Nat) :
    encScaled (decScaled w K) K n = w := by
  rw [encScaled_of_some h, wrap16, BitVec.ofInt_toInt]

/-- The 29 angles below 29, by evaluation (R115). -/
theorem encProduct_decScaled_angle_below_29 :
    ∀ v < 29, encProduct (decScaled (BitVec.ofNat 16 v) 100) 100 = some (BitVec.ofNat 16 v).toInt := by decide +kernel

/-- Settles O9: coordinates by `encProduct_decScaled_ten`; the angles up to 29 by evaluation. -/
theorem decodeThenEncodeRestoresCoordinates : Obligations.DecodeThenEncodeRestoresCoordinates := by
  refine ⟨fun w n => encScaled_decScaled (encProduct_decScaled_ten w) n, fun w n hlo hhi => ?_, fun n => ?_⟩
  · have hw : w = BitVec.ofNat 16 w.toNat := by simp
    have hlt : w.toNat < 29 := by
      have := w.isLt
      rw [BitVec.toInt_eq_toNat_cond] at hlo hhi
      split at hhi <;> omega
    have h := encProduct_decScaled_angle_below_29 w.toNat hlt
    rw [← hw] at h
    exact encScaled_decScaled h n
  · have h : encProduct (decScaled 29 100) 100 = some 28 := by decide +kernel
    exact encScaled_of_some h n

/-! ### The integer-only algorithm -/

/-- The magnitude the integer-only algorithm rounds `N * 2^e` to: 53 bits of `N` are kept, whatever the exponent. -/
def intMag (N : Nat) (e : Int) : ℚ :=
  (rneQuot N (2 ^ (bitLen N - 53)) * 2 ^ (bitLen N - 53) : Nat) * 2 ^ e

/-- Nothing is shifted out of at most 53 bits. -/
theorem intMag_of_short {N : Nat} (h : bitLen N ≤ 53) (e : Int) : intMag N e = N * 2 ^ e := by
  rw [intMag, Nat.sub_eq_zero_of_le h, pow_zero, rneQuot_eq_of_exact (k := N) Nat.one_pos (by simp), mul_one]

theorem bitLen_spec {N : Nat} (hN : 0 < N) : 0 < bitLen N ∧ 2 ^ (bitLen N - 1) ≤ N ∧ N < 2 ^ bitLen N := by
  rw [bitLen, if_neg hN.ne']
  exact ⟨Nat.succ_pos _, Nat.log2_self_le hN.ne', Nat.lt_log2_self⟩

theorem shift_le {N : Nat} (hN : 0 < N) : 2 ^ (bitLen N - 53) ≤ N :=
  le_trans (Nat.pow_le_pow_right two_pos (by omega)) (bitLen_spec hN).2.1

theorem rneQuot_shift_pos {N : Nat} (hN : 0 < N) : 0 < rneQuot N (2 ^ (bitLen N - 53)) := by
  obtain ⟨-, -, -, hfloor, -⟩ := rneQuot_spec (n := N) (show 0 < 2 ^ (bitLen N - 53) by positivity)
  exact (Nat.div_pos (shift_le hN) (by positivity)).trans_le hfloor

/-- The overflow test of R110 on a significand and an exponent. -/
theorem lt_bitLen_add_iff {N : Nat} (hN : 0 < N) (j : Nat) (e : Int) :
    (j : Int) < bitLen N + e ↔ (2 : ℚ) ^ j ≤ N * 2 ^ e := by
  obtain ⟨hpos, hle, hlt⟩ := bitLen_spec hN
  have hlo : (2 : ℚ) ^ (bitLen N - 1) * 2 ^ e ≤ N * 2 ^ e :=
    mul_le_mul_of_nonneg_right (by exact_mod_cast hle) (by positivity)
  have hhi : (N : ℚ) * 2 ^ e < 2 ^ bitLen N * 2 ^ e := mul_lt_mul_of_pos_right (by exact_mod_cast hlt) (by positivity)
  constructor
  · intro h
    refine le_trans ?_ hlo
    rw [← zpow_natCast, ← zpow_natCast, ← zpow_add₀ two_ne_zero]
    exact zpow_le_zpow_right₀ one_le_two (by omega)
  · intro h
    have := exponent_lt (i := j) (a := 0) (by rwa [zpow_zero, mul_one]) hhi
    omega

/-- The rounding step of R110 is `rneQuot` by the power of two shifted out; the carry to `2^53` keeps the value. -/
theorem roundBits_value {N : Nat} (hN : 53 < bitLen N) :
    (roundBits N).1 * 2 ^ (roundBits N).2 = rneQuot N (2 ^ (bitLen N - 53)) * 2 ^ (bitLen N - 53) := by
  obtain ⟨r, hr⟩ : ∃ r, bitLen N - 53 = r + 1 := ⟨bitLen N - 54, by omega⟩
  have hquot : (if 2 ^ r < N % 2 ^ (r + 1) ∨ N % 2 ^ (r + 1) = 2 ^ r ∧ N / 2 ^ (r + 1) % 2 = 1 then N / 2 ^ (r + 1) + 1
      else N / 2 ^ (r + 1)) = rneQuot N (2 ^ (r + 1)) := by
    refine if_congr ?_ rfl rfl
    rw [Nat.pow_succ]
    omega
  have hround : roundBits N =
      if rneQuot N (2 ^ (r + 1)) = 2 ^ 53 then (2 ^ 52, r + 1 + 1) else (rneQuot N (2 ^ (r + 1)), r + 1) := by
    simp only [roundBits, hr, Nat.add_sub_cancel, hquot]
  rw [hround, hr]
  split
  · rename_i hcarry
    rw [hcarry, Nat.pow_succ 2 (r + 1)]
    ring
  · rfl

/-- The overflow test and the truncation of R110 depend on the kept magnitude alone. -/
theorem keep_eq {N : Nat} (hN : 0 < N) (neg : Bool) {e : Int} {q : ℚ} (h : (N : ℚ) * 2 ^ e = q) :
    (if 1024 < (bitLen N : Int) + e then none else some (signed neg (truncMag N e))) =
      if 2 ^ 1024 ≤ q then none else some (signed neg ⌊q⌋₊) := by
  have hover := lt_bitLen_add_iff hN 1024 e
  rw [h, Nat.cast_ofNat] at hover
  simp only [hover, truncMag_eq_floor, h]

theorem encProductInt_of_pos {neg : Bool} {m : Nat} {e : Int} {K : Nat} (hN : 0 < m * K) :
    encProductInt neg m e K = if 2 ^ 1024 ≤ intMag (m * K) e then none else some (signed neg ⌊intMag (m * K) e⌋₊) := by
  simp only [encProductInt, if_neg hN.ne']
  by_cases hbits : 53 < bitLen (m * K)
  · simp only [if_pos hbits]
    have hval := roundBits_value hbits
    refine keep_eq ?_ neg ?_
    · refine Nat.pos_of_mul_pos_right (b := 2 ^ (roundBits (m * K)).2) ?_
      rw [hval]
      exact Nat.mul_pos (rneQuot_shift_pos hN) (by positivity)
    · rw [intMag, ← hval, zpow_add₀ two_ne_zero, zpow_natCast]
      push_cast
      ring
  · simp only [if_neg hbits]
    refine keep_eq hN neg ?_
    exact (intMag_of_short (by omega) e).symm

/-- The kept bits are nearest to `N`, so they are at most twice it. -/
theorem intMag_le {N : Nat} (hN : 0 < N) (e : Int) : intMag N e ≤ 2 * (N * 2 ^ e) := by
  obtain ⟨hround, -, -, -, -⟩ := rneQuot_spec (n := N) (show 0 < 2 ^ (bitLen N - 53) by positivity)
  have hunit := shift_le hN
  rw [intMag, ← mul_assoc]
  refine mul_le_mul_of_nonneg_right ?_ (by positivity)
  exact_mod_cast (by omega : rneQuot N (2 ^ (bitLen N - 53)) * 2 ^ (bitLen N - 53) ≤ 2 * N)

section
variable {N num den : Nat} {e : Int} (hN : 0 < N) (hn : 0 < num) (hd : 0 < den) (hquot : (num : ℚ) / den = N * 2 ^ e)
include hN hn hd hquot

/-- Above the least exponent the product keeps 53 bits of its significand. -/
theorem rneExp_of_bitLen (hexp : -1074 < rneExp num den) : rneExp num den = bitLen N + e - 53 := by
  obtain ⟨hpos, hle, hlt⟩ := bitLen_spec hN
  have hlo : (2 : ℚ) ^ (bitLen N - 1) * 2 ^ e ≤ num / den := by
    rw [hquot]
    exact mul_le_mul_of_nonneg_right (by exact_mod_cast hle) (by positivity)
  have hhi : (num : ℚ) / den < 2 ^ bitLen N * 2 ^ e := by
    rw [hquot]
    exact mul_lt_mul_of_pos_right (by exact_mod_cast hlt) (by positivity)
  have := exponent_lt hlo (quot_lt_units hn hd)
  have := exponent_lt (units_le_quot hn hd hexp) hhi
  omega

/-- Above the least exponent the integer-only algorithm rounds as binary64 does. -/
theorem rneMag_eq_intMag (hexp : -1074 < rneExp num den) : rneMag num den = intMag N e := by
  have hbits := rneExp_of_bitLen hN hn hd hquot hexp
  rcases le_total (bitLen N) 53 with hle | hge
  · -- nothing is shifted out: the product is exact
    obtain ⟨j, hj⟩ : ∃ j : Nat, bitLen N + j = 53 := ⟨53 - bitLen N, by omega⟩
    have hmultiple : (num : ℚ) / den = (N * 2 ^ j : Nat) * 2 ^ rneExp num den := by
      rw [hquot, show e = j + rneExp num den by omega, zpow_add₀ two_ne_zero, zpow_natCast]
      push_cast
      ring
    rw [rneMag_eq_of_multiple hd hmultiple, hquot, intMag_of_short hle]
  · -- the bits shifted out are those below the unit in the last place
    obtain ⟨r, hr⟩ : ∃ r : Nat, bitLen N = 53 + r := ⟨bitLen N - 53, by omega⟩
    have hsig : rneSig num den = rneQuot N (2 ^ r) := by
      refine rneQuot_congr (rneDen_pos hd _) (by positivity) ?_
      rw [rneNum_div_rneDen, hquot, show rneExp num den = r + e by omega, zpow_add₀ two_ne_zero, zpow_natCast]
      push_cast
      field_simp
    rw [rneMag, hsig, intMag, show bitLen N - 53 = r by omega, show rneExp num den = r + e by omega,
      zpow_add₀ two_ne_zero, zpow_natCast]
    push_cast
    ring

/-- At the least exponent both magnitudes are below 1, though they are rounded to different numbers of bits (R110). -/
theorem magnitudes_lt_one (hexp : rneExp num den = -1074) : rneMag num den < 1 ∧ intMag N e < 1 := by
  have hsmall : (num : ℚ) / den < 1 / 2 := by
    refine (quot_lt_units hn hd).trans_le ?_
    rw [hexp, ← zpow_natCast, ← zpow_add₀ two_ne_zero, one_div, ← zpow_neg_one]
    exact zpow_le_zpow_right₀ one_le_two (by omega)
  have hmag := rneMag_le_two_mul num hd
  have hint := intMag_le hN e
  rw [← hquot] at hint
  constructor <;> linarith

end

/-- Settles O4: above the least exponent the two algorithms round to one magnitude; at it both magnitudes truncate to 0. -/
theorem encodingAgreesWithTheIntegerAlgorithm : Obligations.EncodingAgreesWithTheIntegerAlgorithm := by
  intro d neg m e K hK h
  obtain ⟨num, den, hd, hquot, hprod⟩ := encProduct_of_fin hK h
  have hquotN : (num : ℚ) / den = (m * K : Nat) * 2 ^ e := by
    rw [hquot, ratOf_false]
    push_cast
    ring
  rcases Nat.eq_zero_or_pos (m * K) with hN | hN
  · rw [hN, Nat.cast_zero, zero_mul, div_eq_zero_iff, Nat.cast_eq_zero, Nat.cast_eq_zero, or_iff_left hd.ne'] at hquotN
    rw [hprod, hquotN, rneMag_zero hd, if_neg (not_le.mpr (by positivity))]
    simp [encProductInt, hN, signed]
  have hn : 0 < num := by
    refine num_pos_of_quot_pos (den := den) ?_
    rw [hquotN]
    exact mul_pos (by exact_mod_cast hN) (by positivity)
  rw [hprod, encProductInt_of_pos hN]
  by_cases hexp : rneExp num den = -1074
  · obtain ⟨hmag, hint⟩ := magnitudes_lt_one hN hn hd hquotN hexp
    have hone : (1 : ℚ) ≤ 2 ^ 1024 := one_le_pow₀ one_le_two
    rw [if_neg (hmag.trans_le hone).not_ge, if_neg (hint.trans_le hone).not_ge, Nat.floor_eq_zero.mpr hmag, Nat.floor_eq_zero.mpr hint]
  · have := (rneExp_spec hn hd).1
    rw [rneMag_eq_intMag hN hn hd hquotN (by omega)]

end Sys2Proof.UnitCodec
end

section
/-!
The Frame Codec's statements (41_frame_codec.md): what `parse_frame` makes of a built frame, of bytes before a frame and of bytes after its
payload, and the dispatch of `decode_payload`.
-/

namespace Sys2Proof.FrameCodec
open Sys2Proof.Machine Sys2Proof.Encoding

/-! ### The primitives -/

section
variable {s : State} (hs : s.phase = .idle)
include hs

theorem exec_parseFrame (raw : List Byte) (expected : Byte) :
    exec (.parseFrame raw expected) s =
      .next (primDone s ⟨some .ok, none, none, none, some (parseFrame s.cfg raw expected)⟩ 0) :=
  (whenIdle_idle hs _).trans (issuePrim_idle hs)

theorem exec_decodePayload (payload : List Byte) (opcode : Byte) :
    exec (.decodePayload payload opcode) s =
      .next (primDone s ⟨some .ok, none, some (decodePayload s.cfg payload opcode), none, none⟩ 0) :=
  (whenIdle_idle hs _).trans (issuePrim_idle hs)

end

/-! ### The frame at the first sentinel pair -/

/-- Settles O17, by the laws of `parseFrame` without a pair, at a pair cut short, and at a pair with its length and opcode bytes. -/
theorem parseFrameReadsTheFirstSentinelPair : Obligations.ParseFrameReadsTheFirstSentinelPair := by
  intro s raw expected hs
  refine ⟨_, exec_parseFrame hs raw expected, parseFrame_of_no_pair, fun i hpair => ⟨parseFrame_of_short hpair, ?_⟩⟩
  intro len opc hlen hopc
  rw [parseFrame_of_pair hpair hlen hopc]
  split
  next hgood =>
    obtain ⟨-, -, hfits⟩ := hgood
    refine ⟨?_, fun k hk => slice_getElem? _ _ _ _ (by omega)⟩
    rw [slice_length _ _ _ hfits, Nat.add_sub_cancel_left]
  next => rfl

/-! ### Built frames -/

theorem slice_payload {cfg : Config} {opcode : Byte} {payload frame : List Byte}
    (h : buildFrame cfg opcode payload = some frame) : slice frame 4 (4 + payload.length) = payload := by
  obtain ⟨-, rfl⟩ := buildFrame_some h
  simp [slice]

/-- A built frame parses to its payload under its own opcode, and to nothing under another (R145, R146). -/
theorem parseFrame_buildFrame {cfg : Config} {opcode : Byte} {payload frame : List Byte}
    (h : buildFrame cfg opcode payload = some frame) (expected : Byte) :
    parseFrame cfg frame expected = if opcode = expected then payload else [] := by
  obtain ⟨-, -, hlen, hopc⟩ := buildFrame_header h
  have hpair : IsFirstPair cfg.sentinel frame 0 := by simpa using isFirstPair_frame h []
  have hlenNat : (BitVec.ofNat 8 (payload.length + 2)).toNat = payload.length + 2 := by
    simpa [hlen] using buildFrame_lengthByte_toNat h
  rw [parseFrame_of_pair hpair hlen hopc, hlenNat, Nat.add_sub_cancel, buildFrame_length h, Nat.zero_add, slice_payload h]
  exact if_congr ⟨fun ⟨_, heq, _⟩ => heq, fun heq => ⟨by omega, heq, by omega⟩⟩ rfl rfl

/-- Settles O18, by the parse of a built frame under its own opcode. -/
theorem parsingABuiltFrameReturnsThePayload : Obligations.ParsingABuiltFrameReturnsThePayload := by
  intro cfg opcode payload hle
  refine ⟨_, buildFrame_of_le hle, ?_⟩
  rw [parseFrame_buildFrame (buildFrame_of_le hle), if_pos rfl]

/-- Settles O19, by the parse of a built frame under another opcode. -/
theorem parsingWithAnotherOpcodeReturnsNothing : Obligations.ParsingWithAnotherOpcodeReturnsNothing := by
  intro cfg a b payload frame h hne
  rw [parseFrame_buildFrame h, if_neg hne]

/-! ### Bytes before a frame -/

/-- A byte that opens no sentinel pair moves the scan's answer by one. -/
theorem firstPair_cons {sentinel b : Byte} {raw : List Byte} (h : ¬ (b = sentinel ∧ raw[0]? = some sentinel)) :
    firstPair sentinel (b :: raw) = (firstPair sentinel raw).map (· + 1) := by
  cases raw with
  | nil => rfl
  | cons c rest => exact if_neg (by simpa using h)

/-- A byte that opens no sentinel pair is skipped (R134). -/
theorem parseFrame_cons {cfg : Config} {b : Byte} {raw : List Byte} (h : ¬ (b = cfg.sentinel ∧ raw[0]? = some cfg.sentinel))
    (expected : Byte) : parseFrame cfg (b :: raw) expected = parseFrame cfg raw expected := by
  rw [parseFrame, parseFrame, firstPair_cons h]
  cases firstPair cfg.sentinel raw with
  | none => rfl
  | some i => simp [memRead_one, slice, Nat.add_right_comm _ 1]

/-- Noise with no sentinel pair and no sentinel at its end is skipped, whatever follows (R147). -/
theorem parseFrame_append_of_no_pair {cfg : Config} {noise : List Byte} (hpair : firstPair cfg.sentinel noise = none)
    (hlast : noise.getLast? ≠ some cfg.sentinel) (rest : List Byte) (expected : Byte) :
    parseFrame cfg (noise ++ rest) expected = parseFrame cfg rest expected := by
  induction noise using firstPair.induct cfg.sentinel with
  | case1 a b tail h => simp [firstPair, h] at hpair
  | case2 a b tail h ih =>
    have htail : firstPair cfg.sentinel (b :: tail) = none := by simpa [firstPair, h] using hpair
    rw [List.cons_append, parseFrame_cons (by simpa using h)]
    exact ih htail (by simpa using hlast)
  | case3 noise h =>
    match noise, h with
    | [], _ => rfl
    | [a], _ => exact parseFrame_cons (fun hopen => hlast (by simp [hopen.1])) expected
    | a :: b :: tail, h => exact absurd rfl (h a b tail)

/-- Settles O20; without the proviso the frame of opcode 0x12 behind one sentinel is lost (C1). -/
theorem leadingNoiseIsSkipped : Obligations.LeadingNoiseIsSkipped :=
  ⟨fun _ _ expected _ frame _ _ hpair hlast =>
      parseFrame_append_of_no_pair (firstPair_eq_none.mpr hpair) hlast frame expected,
    _, rfl, by decide, by decide⟩

/-! ### Bytes after a sentinel pair -/

theorem getElem?_append_of_some {raw : List Byte} {j : Nat} {b : Byte} (h : raw[j]? = some b) (tail : List Byte) :
    (raw ++ tail)[j]? = some b := by
  obtain ⟨hj, -⟩ := List.getElem?_eq_some_iff.mp h
  rwa [List.getElem?_append_left hj]

/-- The first sentinel pair is found before anything that follows it (R134). -/
theorem isFirstPair_append {sentinel : Byte} {raw : List Byte} {i : Nat} (h : IsFirstPair sentinel raw i) (tail : List Byte) :
    IsFirstPair sentinel (raw ++ tail) i := by
  obtain ⟨⟨hfirst, hsecond⟩, hmin⟩ := h
  obtain ⟨hlt, -⟩ := List.getElem?_eq_some_iff.mp hsecond
  refine ⟨⟨getElem?_append_of_some hfirst tail, getElem?_append_of_some hsecond tail⟩, fun j hj => ?_⟩
  rw [List.getElem?_append_left (by omega), List.getElem?_append_left (by omega)]
  exact hmin j hj

/-- Settles O21: another opcode at the first pair is an anomaly, and the pair in the noise stays the first. -/
theorem aPairInNoiseHidesTheFrame : Obligations.APairInNoiseHidesTheFrame :=
  fun _ _ rest opc _ i hpair hopc hne => parseFrame_of_anomaly
    (.inr ⟨i, isFirstPair_append hpair rest, .inr (.inr ⟨opc, getElem?_append_of_some hopc rest, hne⟩)⟩)

theorem slice_append_left {raw : List Byte} {a b : Nat} (hab : a ≤ b) (hb : b ≤ raw.length) (tail : List Byte) :
    slice (raw ++ tail) a b = slice raw a b := by
  rw [slice, slice, List.drop_append_of_le_length (by omega), List.take_append_of_le_length (by simp; omega)]

/-- Nothing after the last payload byte of the frame at the first pair is read (R138). -/
theorem parseFrame_append_of_complete {cfg : Config} {raw : List Byte} {i : Nat} {len : Byte}
    (hpair : IsFirstPair cfg.sentinel raw i) (hlen : raw[i + 2]? = some len) (hfits : i + 4 + (len.toNat - 2) ≤ raw.length)
    (tail : List Byte) (expected : Byte) : parseFrame cfg (raw ++ tail) expected = parseFrame cfg raw expected := by
  have hopc : raw[i + 3]? = some raw[i + 3] := List.getElem?_eq_getElem (by omega)
  have hfits' : i + 4 + (len.toNat - 2) ≤ (raw ++ tail).length := by simp; omega
  rw [parseFrame_of_pair hpair hlen hopc, parseFrame_of_pair (isFirstPair_append hpair tail)
    (getElem?_append_of_some hlen tail) (getElem?_append_of_some hopc tail), slice_append_left (by omega) hfits]
  simp only [hfits, hfits']

/-- Settles O22: with either tail the parse is that of the bytes before it. -/
theorem bytesAfterThePayloadAreNotRead : Obligations.BytesAfterThePayloadAreNotRead := by
  intro cfg raw tail tail' expected i len hpair hlen hfits
  rw [parseFrame_append_of_complete hpair hlen hfits, parseFrame_append_of_complete hpair hlen hfits]

/-! ### decode_payload -/

theorem decodePayload_two (cfg : Config) (hi lo opcode : Byte) :
    decodePayload cfg [hi, lo] opcode = if opcode = cfg.opIsServoEnabled then [sext8 lo] else [joinBytes hi lo] := rfl

theorem decodePayload_of_length_twelve {payload : List Byte} (h : payload.length = 12) (cfg : Config) (opcode : Byte) :
    decodePayload cfg payload opcode = pairs payload := by
  match payload, h with
  | _ :: _ :: _ :: _, h => exact if_pos h

/-- A payload that is neither empty nor of 2 or 12 bytes is read by its first byte alone (R142). -/
theorem decodePayload_of_other_length {b : Byte} {rest : List Byte} (h2 : (b :: rest).length ≠ 2)
    (h12 : (b :: rest).length ≠ 12) (cfg : Config) (opcode : Byte) : decodePayload cfg (b :: rest) opcode = [sext8 b] := by
  match rest, h2, h12 with
  | [], _, _ => rfl
  | [_], h2, _ => exact absurd rfl h2
  | _ :: _ :: _, _, h12 => exact if_neg h12

theorem joinBytes_toInt (hi lo : Byte) : (joinBytes hi lo).toInt = sext16Int (hi.toNat * 256 + lo.toNat) := by
  rw [toInt_eq_sext16Int, joinBytes_toNat]

/-- The two-byte decode as integers: the narrow reading for the servo query alone (R141). -/
theorem map_toInt_decodePayload_two (cfg : Config) (hi lo opcode : Byte) :
    (decodePayload cfg [hi, lo] opcode).map BitVec.toInt =
      [if opcode = cfg.opIsServoEnabled then sext8Int lo.toNat else sext16Int (hi.toNat * 256 + lo.toNat)] := by
  rw [decodePayload_two, ← sext8_toInt, ← joinBytes_toInt]
  split <;> rfl

/-- Settles O23, by the equation of `decodePayload` for each length. -/
theorem decodePayloadDispatchesByLength : Obligations.DecodePayloadDispatchesByLength := by
  intro s payload opcode hs
  refine ⟨_, exec_decodePayload hs payload opcode, ?_⟩
  by_cases h0 : payload.length = 0
  · rw [if_pos h0, List.length_eq_zero_iff.mp h0, decodePayload_nil]
  by_cases h12 : payload.length = 12
  · rw [if_neg h0, if_pos h12, decodePayload_of_length_twelve h12]
    refine ⟨by rw [pairs_length, h12], fun k hi lo _ hhi hlo => ?_⟩
    rw [pairs_getElem? _ _ _ _ hhi hlo, Option.map_some, joinBytes_toInt]
  rw [if_neg h0, if_neg h12]
  by_cases h2 : payload.length = 2
  · rw [if_pos h2]
    intro hi lo hhi hlo
    obtain ⟨_, _, rfl⟩ := List.length_eq_two.mp h2
    cases hhi
    cases hlo
    exact map_toInt_decodePayload_two ..
  · rw [if_neg h2]
    intro b hb
    cases payload with
    | nil => exact absurd rfl h0
    | cons _ _ =>
      cases hb
      rw [decodePayload_of_other_length h2 h12, List.map_singleton, sext8_toInt]

/-- Settles O39: the built frame parses to its payload, whose two bytes are read by the narrow rule. -/
theorem servoEnabledRepliesReadTheSecondByte : Obligations.ServoEnabledRepliesReadTheSecondByte := by
  intro s b state raw hawait hpend hread hadm hbuilt
  rw [step_of_answer hawait hpend hread hadm rfl]
  have hdecode : decodePayload s.cfg (parseFrame s.cfg raw s.cfg.opIsServoEnabled) s.cfg.opIsServoEnabled = [sext8 state] := by
    rw [parseFrame_buildFrame hbuilt, if_pos rfl, decodePayload_two, if_pos rfl]
  rw [replyIsServoEnabled, scalarReply_eq, hdecode, ← sext8_toInt]

end Sys2Proof.FrameCodec
end

section
/-!
The write-only operations' statements (42_commands_write.md): the one frame each of the fourteen hands to the transport, with the bytes of its
ids, its scaled fields and its lanes.
-/

namespace Sys2Proof.Commands
open Sys2Proof.Machine

/-! ### The id bytes -/

theorem jointByte_toNat (joint : Joint) : (jointByte joint).toNat = jointOrdinal joint := by
  cases joint <;> rfl

theorem axisOrdinal_bounds (axis : Axis) : 1 ≤ axisOrdinal axis ∧ axisOrdinal axis ≤ 6 := by
  cases axis <;> decide

/-- The bias is 0 or 1 and no ordinal is 0, so the subtraction never truncates (R168, D26). -/
theorem jogAxisByte_toNat_add_bias (cfg : Config) (axis : Axis) :
    (jogAxisByte cfg axis).toNat + cfg.jogCoordIdBias.val = axisOrdinal axis := by
  have hbias := cfg.jogCoordIdBias.isLt
  obtain ⟨hlo, hhi⟩ := axisOrdinal_bounds axis
  rw [jogAxisByte, BitVec.toNat_ofNat, Nat.mod_eq_of_lt (by omega)]
  omega

/-! ### The frames -/

section
variable {s : State} (hs : s.phase = .idle)
include hs

/-- The frame the seven commands without operands share: an opcode and no payload (R62). -/
theorem whenIdle_issueWrite_fmtEmpty (opcode : Byte) :
    whenIdle s (issueWrite opcode fmtEmpty 0 s) =
      .next (wrote s [s.cfg.sentinel, s.cfg.sentinel, 2, opcode, s.cfg.sentinel] 0) :=
  (whenIdle_idle hs _).trans (issueWrite_of_le (by simp) hs)

theorem exec_sendAngle (joint : Joint) (deg : F64) (speed : Byte) :
    exec (.sendAngle joint deg speed) s =
      .next (wrote s [s.cfg.sentinel, s.cfg.sentinel, 6, s.cfg.opSendAngle, jointByte joint, hiByte (encScaled deg 100 s.draws),
        loByte (encScaled deg 100 s.draws), speed, s.cfg.sentinel] 1) :=
  (whenIdle_idle hs _).trans (issueWrite_of_le (by simp) hs)

theorem exec_sendCoord (axis : Axis) (val : F64) (speed : Byte) :
    exec (.sendCoord axis val speed) s =
      .next (wrote s [s.cfg.sentinel, s.cfg.sentinel, 6, s.cfg.opSendCoord, axisByte axis, hiByte (encScaled val 10 s.draws),
        loByte (encScaled val 10 s.draws), speed, s.cfg.sentinel] 1) :=
  (whenIdle_idle hs _).trans (issueWrite_of_le (by simp) hs)

theorem exec_setEncoder (joint : Joint) (enc : I16) :
    exec (.setEncoder joint enc) s =
      .next (wrote s [s.cfg.sentinel, s.cfg.sentinel, 5, s.cfg.opSetEncoder, jointByte joint, hiByte enc, loByte enc,
        s.cfg.sentinel] 0) :=
  (whenIdle_idle hs _).trans (issueWrite_of_le (by simp) hs)

/-- The frame the two jog commands share: an id byte, a direction byte and the speed (R62). -/
theorem whenIdle_issueWrite_fmtIDS (opcode id dir speed : Byte) :
    whenIdle s (issueWrite opcode (fmtIDS id dir speed) 0 s) =
      .next (wrote s [s.cfg.sentinel, s.cfg.sentinel, 5, opcode, id, dir, speed, s.cfg.sentinel] 0) :=
  (whenIdle_idle hs _).trans (issueWrite_of_le (by simp) hs)

/-- The frame the two vector commands share: twelve bytes of lanes and then the single bytes that close the payload (R62). -/
theorem issueWrite_lanes {body : List Byte} (hbody : body.length = 12) {closing : List Byte} (hclosing : closing.length ≤ 2)
    (opcode : Byte) (n : Nat) :
    issueWrite opcode (body ++ closing) n s =
      .next (wrote s ([s.cfg.sentinel, s.cfg.sentinel, BitVec.ofNat 8 (12 + closing.length + 2), opcode] ++ body ++
        (closing ++ [s.cfg.sentinel])) n) := by
  have hlen : (body ++ closing).length = 12 + closing.length := by rw [List.length_append, hbody]
  rw [issueWrite_of_le (by omega) hs, hlen]
  simp only [List.append_assoc]

theorem exec_sendAngles {degs : List F64} (h : degs.length = 6) (speed : Byte) :
    exec (.sendAngles degs speed) s =
      .next (wrote s ([s.cfg.sentinel, s.cfg.sentinel, 15, s.cfg.opSendAngles] ++
        put16All (encLanes angleLanes s.draws 0 degs) ++ [speed, s.cfg.sentinel]) 6) :=
  ((whenIdle_idle hs _).trans (withSix_six h _)).trans (issueWrite_lanes hs (by simp [h]) (by simp) _ _)

theorem exec_sendCoords {vals : List F64} (h : vals.length = 6) (speed mode : Byte) :
    exec (.sendCoords vals speed mode) s =
      .next (wrote s ([s.cfg.sentinel, s.cfg.sentinel, 16, s.cfg.opSendCoords] ++
        put16All (encLanes poseScale s.draws 0 vals) ++ [speed, mode, s.cfg.sentinel]) 6) := by
  refine ((whenIdle_idle hs _).trans (withSix_six h _)).trans ?_
  rw [fmtP6SM, List.append_assoc]
  exact issueWrite_lanes hs (by simp [h]) (by simp) _ _

end

/-! ### The statements -/

/-- Settles O26: the angle's two bytes are those of its encoded field. -/
theorem sendAngleSendsItsFrame : Obligations.SendAngleSendsItsFrame :=
  fun _ joint deg speed hs =>
    ⟨_, _, _, exec_sendAngle hs joint deg speed, jointByte_toNat joint, hiByte_loByte_toNat _⟩

/-- Settles O27: the twelve bytes between header and speed are the lanes', each scaled by `angleLanes`. -/
theorem sendAnglesSendsItsFrame : Obligations.SendAnglesSendsItsFrame :=
  fun s _ speed hs h => ⟨_, exec_sendAngles hs h speed, encLanes_bytes angleLanes s.draws h⟩

/-- Settles O28: the axis byte is the ordinal less one, and the scale does not depend on the axis. -/
theorem sendCoordSendsItsFrame : Obligations.SendCoordSendsItsFrame :=
  fun _ axis val speed hs =>
    ⟨_, _, _, exec_sendCoord hs axis val speed, by cases axis <;> rfl, hiByte_loByte_toNat _⟩

/-- Settles O29: the twelve bytes between header and speed are the lanes', lane `k` scaled by `poseScale k`. -/
theorem sendCoordsSendsItsFrame : Obligations.SendCoordsSendsItsFrame :=
  fun s _ speed mode hs h => ⟨_, exec_sendCoords hs h speed mode, encLanes_bytes poseScale s.draws h⟩

/-- Settles O30: both jog commands send the shared frame, with the joint's ordinal or the axis's ordinal less the bias. -/
theorem jogCommandsSendTheirFrame : Obligations.JogCommandsSendTheirFrame :=
  fun s _ _ hs =>
    ⟨fun joint => ⟨_, whenIdle_issueWrite_fmtIDS hs _ _ _ _, jointByte_toNat joint⟩,
      fun axis => ⟨_, whenIdle_issueWrite_fmtIDS hs _ _ _ _, jogAxisByte_toNat_add_bias s.cfg axis⟩⟩

/-- Settles O31: the encoder value goes into its two bytes as it is. -/
theorem setEncoderSendsItsFrame : Obligations.SetEncoderSendsItsFrame :=
  fun _ joint enc hs => ⟨_, _, _, exec_setEncoder hs joint enc, jointByte_toNat joint, hiByte_loByte_toNat enc⟩

/-- Settles O25: each of the seven is ISSUE-WRITE of its own opcode with no payload. -/
theorem commandsWithoutOperandsSendTheirFrame : Obligations.CommandsWithoutOperandsSendTheirFrame :=
  fun _ hs =>
    have hframe := whenIdle_issueWrite_fmtEmpty hs
    ⟨hframe _, hframe _, hframe _, hframe _, hframe _, hframe _, hframe _⟩

end Sys2Proof.Commands
end

section
/-!
The queries' statements (43_commands_query.md): the one frame each of the eleven hands to the transport, what the reply delivers, and that
the two steps together complete the query.
-/

namespace Sys2Proof.Queries
open Sys2Proof.Machine Sys2Proof.Commands

/-! ### The frames -/

section
variable {s : State} (hs : s.phase = .idle)
include hs

/-- The frame the seven queries without operands share: an opcode and no payload (R62). -/
theorem whenIdle_issueQuery_fmtEmpty (op : Op) (opcode : Byte) :
    whenIdle s (issueQuery op opcode fmtEmpty 0 s) =
      .next (asked s op opcode [s.cfg.sentinel, s.cfg.sentinel, 2, opcode, s.cfg.sentinel] 0) :=
  (whenIdle_idle hs _).trans (issueQuery_of_le (by simp) hs)

/-- The frame the two queries of one joint share: an opcode and the joint id (R62). -/
theorem whenIdle_issueQuery_fmtJ (op : Op) (opcode : Byte) (joint : Joint) :
    whenIdle s (issueQuery op opcode (fmtJ joint) 0 s) =
      .next (asked s op opcode [s.cfg.sentinel, s.cfg.sentinel, 3, opcode, jointByte joint, s.cfg.sentinel] 0) :=
  (whenIdle_idle hs _).trans (issueQuery_of_le (by simp) hs)

/-- The frame the two position checks share: twelve bytes of lanes, then the flag byte that tells them apart (R62, R69). -/
theorem issueQuery_lanes {body : List Byte} (hbody : body.length = 12) (op : Op) (opcode flag : Byte) (n : Nat) :
    issueQuery op opcode (body ++ [flag]) n s =
      .next (asked s op opcode ([s.cfg.sentinel, s.cfg.sentinel, 15, opcode] ++ body ++ [flag, s.cfg.sentinel]) n) := by
  have hlen : (body ++ [flag]).length = 13 := by rw [List.length_append, hbody, List.length_singleton]
  rw [issueQuery_of_le (by omega) hs, hlen]
  simp only [List.append_assoc, List.singleton_append]
  rfl

theorem exec_isInAnglePosition {degs : List F64} (h : degs.length = 6) :
    exec (.isInAnglePosition degs) s =
      .next (asked s .isInAnglePosition s.cfg.opIsInPosition ([s.cfg.sentinel, s.cfg.sentinel, 15, s.cfg.opIsInPosition] ++
        put16All (encLanes angleLanes s.draws 0 degs) ++ [0x00, s.cfg.sentinel]) 6) :=
  ((whenIdle_idle hs _).trans (withSix_six h _)).trans (issueQuery_lanes hs (encLanes_bytes angleLanes _ h).1 _ _ _ _)

theorem exec_isInCoordPosition {coords : List F64} (h : coords.length = 6) :
    exec (.isInCoordPosition coords) s =
      .next (asked s .isInCoordPosition s.cfg.opIsInPosition ([s.cfg.sentinel, s.cfg.sentinel, 15, s.cfg.opIsInPosition] ++
        put16All (encLanes poseScale s.draws 0 coords) ++ [0x01, s.cfg.sentinel]) 6) :=
  ((whenIdle_idle hs _).trans (withSix_six h _)).trans (issueQuery_lanes hs (encLanes_bytes poseScale _ h).1 _ _ _ _)

end

/-- Settles O33: the lanes' twelve bytes are scaled by `angleLanes` before flag 0x00 and by `poseScale` before flag 0x01. -/
theorem positionChecksSendTheirFrame : Obligations.PositionChecksSendTheirFrame :=
  fun s _ hs h =>
    ⟨⟨_, exec_isInAnglePosition hs h, encLanes_bytes angleLanes s.draws h⟩,
      ⟨_, exec_isInCoordPosition hs h, encLanes_bytes poseScale s.draws h⟩⟩

/-- Settles O32: each of the seven is ISSUE-QUERY of its own opcode with no payload. -/
theorem queriesWithoutOperandsSendTheirFrame : Obligations.QueriesWithoutOperandsSendTheirFrame :=
  fun _ hs =>
    have hframe := whenIdle_issueQuery_fmtEmpty hs
    ⟨hframe _ _, hframe _ _, hframe _ _, hframe _ _, hframe _ _, hframe _ _, hframe _ _⟩

/-- Settles O34: both queries send the joint's id byte, which is its ordinal. -/
theorem jointQueriesSendTheirFrame : Obligations.JointQueriesSendTheirFrame :=
  fun _ joint hs =>
    ⟨jointByte joint, whenIdle_issueQuery_fmtJ hs _ _ joint, whenIdle_issueQuery_fmtJ hs _ _ joint, jointByte_toNat joint⟩

/-! ### The replies -/

/-- Settles O35: REPLY delivers what all eight scalar queries make of a raw answer. -/
theorem scalarRepliesDeliverTheirFirstElement : Obligations.ScalarRepliesDeliverTheirFirstElement := by
  intro s op expected raw hawait hpend hscalar hread hadm
  have hstep := step_of_answer hawait hpend hread hadm (replyResult_of_scalar hscalar)
  rw [scalarReply_eq] at hstep
  exact hstep

/-- A decoded vector has one value per wire integer, lane `k` divided by the scale of lane `k` (R105, R203). -/
theorem decLanes_lanes (scale : Nat → Nat) (ws : List I16) :
    (decLanes scale 0 ws).length = ws.length ∧
    ∀ (k : Nat) (w : I16), ws[k]? = some w → (decLanes scale 0 ws)[k]? = some (decScaled w (scale k)) := by
  refine ⟨decLanes_length scale 0 ws, fun k w hw => ?_⟩
  rw [decLanes_getElem?, hw, Nat.zero_add, Option.map_some]

/-- Settles O36: both vector queries deliver the decoded lanes, under `angleLanes` and under `poseScale`. -/
theorem vectorRepliesScaleEachLane : Obligations.VectorRepliesScaleEachLane :=
  fun _ _ _ hawait hread hadm =>
    ⟨fun hpend => ⟨_, step_of_answer hawait hpend hread hadm rfl, decLanes_lanes angleLanes _⟩,
      fun hpend => ⟨_, step_of_answer hawait hpend hread hadm rfl, decLanes_lanes poseScale _⟩⟩

/-- Settles O37: the result of `version` is `parse_frame`'s payload itself. -/
theorem versionRepliesDeliverThePayload : Obligations.VersionRepliesDeliverThePayload :=
  fun _ _ _ hawait hpend hread hadm => step_of_answer hawait hpend hread hadm rfl

/-! ### The two steps together -/

/-- An operation has a reply rule exactly when it awaits a reply (R34, R74). -/
theorem replyResult_isSome (cfg : Config) (expected : Byte) (raw : List Byte) (op : Op) :
    (replyResult cfg expected raw op).isSome = (queryOpcode cfg op).isSome := by
  cases op <;> rfl

/-- A query leaves `asked`, over its own opcode, which stands at index 3 of the frame (R33, R60). -/
theorem exec_query {s : State} {i : Instr} {opcode : Byte} (hs : s.phase = .idle) (hwf : i.wellFormed = true)
    (hq : queryOpcode s.cfg i.op = some opcode) :
    ∃ frame n, frame[3]? = some opcode ∧ exec i s = .next (asked s i.op opcode frame n) := by
  rcases exec_shape hs hwf with ⟨-, hnone, -⟩ | ⟨-, hnone, -⟩ | ⟨-, opcode', payload, n, hsome, -, hexec⟩
  · exact nomatch hq.symm.trans hnone
  · exact nomatch hq.symm.trans hnone
  · obtain rfl := Option.some.inj (hq.symm.trans hsome)
    exact ⟨_, n, rfl, hexec⟩

/-- Settles O41: ISSUE-QUERY leaves `asked`, which takes nothing from `RX`, so REPLY finds the same answer and delivers its result. -/
theorem queriesCompleteInTwoSteps : Obligations.QueriesCompleteInTwoSteps := by
  intro s i opcode raw hs hwf hq hwrite hread hadm
  obtain ⟨frame, n, hframe, hexec⟩ := exec_query hs hwf hq
  rw [asked_of_ok hwrite] at hexec
  obtain ⟨r, hr⟩ : ∃ r, replyResult s.cfg opcode raw i.op = some r :=
    Option.isSome_iff_exists.mp (by rw [replyResult_isSome, hq, Option.isSome_some])
  have hok := (replyResult_ok hr).2
  exact ⟨_, _, frame, r, hexec, rfl, rfl, hframe, rfl, rfl, rfl, rfl, step_of_answer rfl rfl hread hadm hr, hr, hok,
    rfl, rfl, rfl, rfl, rfl, rfl, rfl, rfl, rfl⟩

end Sys2Proof.Queries
end

section
/-!
The exceptions' statements (60_exceptions.md): the silent anomalies of a reply, what a transport fault ends and what stays possible after
it, and the refusals of an operand, a selector and an answer.
-/

namespace Sys2Proof.Exceptions
open Sys2Proof.Machine

/-! ### Silent anomalies of a reply -/

section
variable {cfg : Config} {raw : List Byte} {expected : Byte} (h : Anomaly cfg raw expected)
include h

theorem scalarReply_of_anomaly : scalarReply cfg expected raw = ⟨some .ok, some (-1), none, none, none⟩ := by
  rw [scalarReply_eq, parseFrame_of_anomaly h, decodePayload_nil]

theorem vectorReply_of_anomaly (scale : Nat → Nat) :
    vectorReply scale cfg expected raw = ⟨some .ok, none, none, some [], none⟩ := by
  rw [vectorReply, parseFrame_of_anomaly h, decodePayload_nil]
  rfl

theorem textReply_of_anomaly : textReply cfg expected raw = ⟨some .ok, none, none, none, some []⟩ := by
  rw [textReply, parseFrame_of_anomaly h]
  rfl

end

/-- Settles O38: an anomaly parses to the empty payload, and each kind of query has its own answer to that one. -/
theorem replyAnomaliesAreSilent : Obligations.ReplyAnomaliesAreSilent := by
  intro s op expected raw hawait hpend hread hadm hanomaly
  have hstep {r : Res} : replyResult s.cfg expected raw op = some r → step s = .next (answered s r (.bytes raw)) :=
    step_of_answer hawait hpend hread hadm
  refine ⟨fun hscalar => hstep ?_, fun hvector => hstep ?_, fun htext => hstep ?_⟩
  · rw [replyResult_of_scalar hscalar, scalarReply_of_anomaly hanomaly]
  · rcases hvector with rfl | rfl
    · exact congrArg some (vectorReply_of_anomaly hanomaly angleLanes)
    · exact congrArg some (vectorReply_of_anomaly hanomaly poseScale)
  · subst htext
    exact congrArg some (textReply_of_anomaly hanomaly)

/-! ### Transport faults -/

/-- A query whose write the transport fails to take (R33, R225); the other answer is `asked_of_ok`. -/
theorem asked_of_fault {s : State} {op : Op} {opcode : Byte} {frame : List Byte} {n : Nat} {info : ErrInfo}
    (h : nextWriteAns s = .fault info) :
    asked s op opcode frame n =
      { s with
        res := Res.failed info, pend := none, hpc := s.hpc + 1, draws := s.draws + n
        tx := s.tx ++ [⟨.writeAndRead, frame, .fault info⟩], txAns := s.txAns.tail } := by
  rw [asked, h]
  rfl

/-- Settles O42: an operation that is no primitive leaves `wrote` or `asked`, and either takes the error of its one write. -/
theorem writeFaultsAbortTheOperation : Obligations.WriteFaultsAbortTheOperation := by
  intro s i info hidle hwf hcatalog hfault
  rcases exec_shape hidle hwf with ⟨hprim, -⟩ | ⟨-, -, opcode, payload, n, -, hexec⟩ | ⟨-, opcode, payload, n, -, -, hexec⟩
  · exact nomatch hprim.symm.trans hcatalog
  · exact ⟨_, hexec, congrArg resOfWrite hfault, hidle, rfl, rfl, rfl, rfl, rfl, rfl⟩
  · rw [asked_of_fault hfault] at hexec
    exact ⟨_, hexec, rfl, hidle, rfl, rfl, rfl, rfl, rfl, rfl⟩

/-! ### Availability -/

theorem resOfWrite_status_isSome (a : WriteAns) : (resOfWrite a).status.isSome = true := by cases a <;> rfl

/-- Settles O57: a primitive and a write-only operation deliver a result, and so does a query whose write fails; else it awaits the reply. -/
theorem everyWellFormedOperationCompletes : Obligations.EveryWellFormedOperationCompletes := by
  intro s i hidle hwf
  rcases exec_shape hidle hwf with ⟨-, -, r, n, -, hok, hexec⟩ | ⟨-, -, opcode, payload, n, -, hexec⟩ |
    ⟨-, opcode, payload, n, hquery, -, hexec⟩
  · exact ⟨_, hexec, .inl ⟨hidle, Option.isSome_of_eq_some hok, rfl⟩⟩
  · exact ⟨_, hexec, .inl ⟨hidle, resOfWrite_status_isSome _, rfl⟩⟩
  · refine ⟨_, hexec, ?_⟩
    cases hwrite : nextWriteAns s with
    | ok =>
      rw [asked_of_ok hwrite]
      exact .inr ⟨rfl, Option.isSome_of_eq_some hquery, rfl, rfl⟩
    | fault info =>
      rw [asked_of_fault hwrite]
      exact .inl ⟨hidle, rfl, rfl⟩

/-- An operation that advances the host's index ends with no transaction in flight (R21, R31 to R33). -/
theorem exec_delivers_idle {i : Instr} {s t : State} (h : exec i s = .next t) (hhpc : t.hpc = s.hpc + 1) :
    t.phase = .idle ∧ t.pend = none := by
  obtain ⟨hidle, -⟩ := exec_next_idle h
  rcases BlockState.exec_next_cases h with ⟨-, r, n, -, -, rfl⟩ | ⟨-, -, frame, n, -, rfl⟩ | ⟨-, opcode, frame, n, -, -, rfl⟩
  · exact ⟨hidle, rfl⟩
  · exact ⟨hidle, rfl⟩
  · cases hwrite : nextWriteAns s with
    | ok =>
      rw [asked_of_ok hwrite] at hhpc
      exact absurd hhpc (Nat.ne_of_lt s.hpc.lt_succ_self)
    | fault info =>
      rw [asked_of_fault hwrite]
      exact ⟨hidle, rfl⟩

/-- A step that advances the host's index, REPLY included, ends with no transaction in flight (R21, R34). -/
theorem step_delivers_idle {s t : State} (h : step s = .next t) (hhpc : t.hpc = s.hpc + 1) : t.phase = .idle ∧ t.pend = none := by
  rcases step_cases h with ⟨-, -, rfl⟩ | ⟨-, c, i, -, -, -, hexec⟩ | ⟨-, hreply⟩
  · omega
  · exact exec_delivers_idle hexec hhpc
  · obtain ⟨r, a, -, -, -, -, rfl⟩ := BlockState.reply_next hreply
    exact ⟨rfl, rfl⟩

/-- Settles O44: the step that delivered the error left the block idle, where every well-formed operation completes. -/
theorem errorsDoNotDisableTheBlock : Obligations.ErrorsDoNotDisableTheBlock := by
  intro s t info h hhpc herr
  obtain ⟨hidle, hpend⟩ := step_delivers_idle h hhpc
  refine ⟨hidle, hpend, BlockState.res_of_step_transportError h hhpc herr, fun c i hc hd hwf => ?_⟩
  obtain ⟨u, hexec, -⟩ := everyWellFormedOperationCompletes t i hidle hwf
  exact ⟨u, (step_of_decode hidle hc hd).trans hexec⟩

/-! ### Refused operands -/

section
variable {s : State} (hs : s.phase = .idle)
include hs

theorem exec_buildFrame_of_gt {payload : List Byte} (h : 254 ≤ payload.length) (opcode : Byte) :
    exec (.buildFrame opcode payload) s = .refused .payloadTooLong := by
  change whenIdle s _ = _
  rw [whenIdle_idle hs, buildFrame_of_gt h]

theorem exec_get16_of_length_ne {bytes : List Byte} (h : bytes.length ≠ 2) :
    exec (.get16 bytes) s = .refused .badFieldLength := by
  match bytes, h with
  | [], _ | [_], _ | _ :: _ :: _ :: _, _ => exact whenIdle_idle hs _
  | [_, _], h => exact absurd rfl h

/-- The refusal the six operations with a vector operand share (R229, D21). -/
theorem whenIdle_withSix_of_length_ne {α : Type} {v : List α} (h : v.length ≠ 6) (k : Out) :
    whenIdle s (withSix v k) = .refused .badVectorLength :=
  (whenIdle_idle hs _).trans (withSix_not_six h k)

end

/-- Settles O16, by the guard each operation puts on its operand. -/
theorem operandsOutsideTheAdmittedSetAreRefused : Obligations.OperandsOutsideTheAdmittedSetAreRefused := by
  intro s hs
  refine ⟨fun opcode _ hlen => exec_buildFrame_of_gt hs hlen opcode, fun _ hlen => exec_get16_of_length_ne hs hlen,
    fun v hlen => ?_, fun _ hlen => whenIdle_withSix_of_length_ne hs hlen _⟩
  have hrefused := whenIdle_withSix_of_length_ne hs hlen
  exact ⟨fun _ => hrefused _, fun _ _ => hrefused _, hrefused _, hrefused _, hrefused _⟩

/-! ### Refused answers -/

theorem rawTooLong_of_bound {cfg : Config} {raw : List Byte} {bound : Nat} (h : cfg.rawMax = some bound)
    (hlt : bound < raw.length) : rawTooLong cfg raw = true := by
  rw [rawTooLong, h]
  exact decide_eq_true hlt

theorem reply_of_rawTooLong {s : State} {raw : List Byte} (hread : nextReadAns s = some (.bytes raw))
    (h : rawTooLong s.cfg raw = true) : reply s = .refused .rawTooLong := by
  rw [reply, hread]
  exact if_pos h

/-- Settles O46: in `AWAIT_REPLY` the step is REPLY, which looks at the answer's length first. -/
theorem repliesBeyondTheBoundAreRefused : Obligations.RepliesBeyondTheBoundAreRefused :=
  fun _ _ _ hawait hread hbound hlt =>
    (step_awaitReply hawait).trans (reply_of_rawTooLong hread (rawTooLong_of_bound hbound hlt))

/-! ### Refused selectors and records -/

/-- The form of the selector bits: a function code up to 10 for a primitive (R90), two or three bytes for a catalog operation (R72). -/
theorem selectorBits_form (cfg : Config) (op : Op) :
    (∃ fn : Byte, fn.toNat ≤ 10 ∧ selectorBits cfg op = [fn]) ∨
    ((selectorBits cfg op).length = 2 ∨ (selectorBits cfg op).length = 3) := by
  cases op
  case encodeAngle | encodeCoord | decodeAngle | decodeCoord | coordsToInt | intToCoords | put16 | get16 | buildFrame |
      parseFrame | decodePayload =>
    exact .inl ⟨_, by decide, rfl⟩
  case isInAnglePosition | isInCoordPosition => exact .inr (.inr rfl)
  all_goals exact .inr (.inl rfl)

theorem ne_selectorBits_of_fn {fn : Byte} (h : 11 ≤ fn.toNat) (cfg : Config) (op : Op) : [fn] ≠ selectorBits cfg op := by
  intro he
  have hform := selectorBits_form cfg op
  rw [← he] at hform
  rcases hform with ⟨fn', hle, heq⟩ | hlen | hlen
  · cases heq
    omega
  · cases hlen
  · cases hlen

theorem selectorBits_length_bounds (cfg : Config) (op : Op) :
    0 < (selectorBits cfg op).length ∧ (selectorBits cfg op).length < 4 := by
  rcases selectorBits_form cfg op with ⟨fn, -, h⟩ | h | h
  · simp [h]
  · omega
  · omega

theorem decode_of_unknown_selector {cfg : Config} {c : Cmd} (h : ∀ op, c.op ≠ selectorBits cfg op) :
    decode cfg c = .error .badSelector := by
  rw [decode, decodeSelector_error h]

theorem decode_of_selectorBits {cfg : Config} (hcfg : cfg.WellFormed) {c : Cmd} {op : Op} (h : c.op = selectorBits cfg op) :
    decode cfg c = decodeOperands c op := by
  rw [decode, h, decodeSelector_selectorBits hcfg]

theorem decodeOperands_of_no_laneF {c : Cmd} (hf : c.f = []) {op : Op}
    (hop : op ∈ [Op.sendAngle, Op.sendCoord, Op.encodeAngle, Op.encodeCoord]) : decodeOperands c op = .error .missingLane := by
  have hlane (k : F64 → Instr) : withLaneF c k = .error .missingLane := by rw [withLaneF, hf]
  simp only [List.mem_cons, List.not_mem_nil, or_false] at hop
  rcases hop with rfl | rfl | rfl | rfl <;> exact hlane _

theorem decodeOperands_of_no_laneW {c : Cmd} (hw : c.w = []) {op : Op}
    (hop : op ∈ [Op.setEncoder, Op.decodeAngle, Op.decodeCoord, Op.put16]) : decodeOperands c op = .error .missingLane := by
  have hlane (k : I16 → Instr) : withLaneW c k = .error .missingLane := by rw [withLaneW, hw]
  simp only [List.mem_cons, List.not_mem_nil, or_false] at hop
  rcases hop with rfl | rfl | rfl | rfl <;> exact hlane _

/-- Settles O47: each of the listed selectors differs from the selector bits of every operation, and a missing lane stops the decoder. -/
theorem unknownSelectorsAreRefused : Obligations.UnknownSelectorsAreRefused := by
  intro s c hidle hc
  refine ⟨fun h => ?_, fun hcfg => ⟨fun op hsel hop hf => ?_, fun op hsel hop hw => ?_⟩⟩
  · refine step_of_decode_error hidle hc (decode_of_unknown_selector fun op he => ?_)
    have hlen := selectorBits_length_bounds s.cfg op
    rw [← he] at hlen
    rcases h with h | ⟨fn, hfn, h⟩ | h | h
    · exact h op he
    · exact ne_selectorBits_of_fn hfn s.cfg op (h.symm.trans he)
    · simp [h] at hlen
    · omega
  · exact step_of_decode_error hidle hc ((decode_of_selectorBits hcfg hsel).trans (decodeOperands_of_no_laneF hf hop))
  · exact step_of_decode_error hidle hc ((decode_of_selectorBits hcfg hsel).trans (decodeOperands_of_no_laneW hw hop))

end Sys2Proof.Exceptions
end

section
/-!
The statement about the overloaded -1 (70_reset_and_hazards.md): a reply that carries the value -1 and no reply at all leave one result.
-/

namespace Sys2Proof.Hazards
open Sys2Proof.Machine Sys2Proof.FrameCodec Sys2Proof.Exceptions

/-- No bytes at all are an anomaly: they hold no sentinel pair (R222). -/
theorem anomaly_nil (cfg : Config) (expected : Byte) : Anomaly cfg [] expected :=
  .inl (firstPair_eq_none.mp rfl)

/-! ### The payloads that carry the value -1 -/

theorem decodePayload_ff (cfg : Config) (opcode : Byte) : decodePayload cfg [0xFF] opcode = [-1] :=
  decodePayload_of_other_length (by decide) (by decide) cfg opcode

/-- Under the servo opcode the second byte alone is read, so the first may be any (R141). -/
theorem decodePayload_servo_ff (cfg : Config) (b : Byte) : decodePayload cfg [b, 0xFF] cfg.opIsServoEnabled = [-1] :=
  (decodePayload_two cfg b 0xFF _).trans (if_pos rfl)

/-- The narrow and the wide reading of two bytes 0xFF agree. -/
theorem decodePayload_ff_ff (cfg : Config) (opcode : Byte) : decodePayload cfg [0xFF, 0xFF] opcode = [-1] := by
  rw [decodePayload_two]
  split <;> rfl

/-! ### The result -/

theorem scalarReply_of_built_neg_one {cfg : Config} {expected : Byte} {payload raw : List Byte}
    (hbuilt : buildFrame cfg expected payload = some raw) (hdecode : decodePayload cfg payload expected = [-1]) :
    scalarReply cfg expected raw = ⟨some .ok, some (-1), none, none, none⟩ := by
  rw [scalarReply_eq, parseFrame_buildFrame hbuilt, if_pos rfl, hdecode]
  rfl

/-- Settles O40: no bytes are an anomaly, whose answer is the sentinel -1, and each of the three payloads decodes to the value -1. -/
theorem minusOneIsOverloaded : Obligations.MinusOneIsOverloaded := by
  intro s op expected b raw hawait hpend hscalar hread hadm hraw
  refine step_of_answer hawait hpend hread hadm ((replyResult_of_scalar hscalar).trans (congrArg some ?_))
  rcases hraw with rfl | hbuilt | hbuilt | ⟨rfl, hbuilt⟩
  · exact scalarReply_of_anomaly (anomaly_nil s.cfg expected)
  · exact scalarReply_of_built_neg_one hbuilt (decodePayload_ff s.cfg expected)
  · exact scalarReply_of_built_neg_one hbuilt (decodePayload_ff_ff s.cfg expected)
  · exact scalarReply_of_built_neg_one hbuilt (decodePayload_servo_ff s.cfg b)

end Sys2Proof.Hazards
end
